-- ==== Sys2Proof/Word.lean ====
section
/-! DEFINITION. The units of data: the byte (00_scope.md R5), the byte sequence (R6) and the
64-bit scalar result (R4, `VALW`). -/

namespace Sys2Proof

/-- A byte, bit 7 the most significant (R5). -/
abbrev Byte := BitVec 8

/-- A byte sequence; element 0 is the first byte on the wire (R6). -/
abbrev Bytes := List Byte

/-- The scalar result `val`: `VALW` = 64 bits, unsigned (R4, R9). -/
abbrev Val := BitVec 64

end Sys2Proof
end

