-- ==== Sys2Proof/Syntax.lean ====
section
/-! DEFINITION. The instructions: one constructor for each row of spec/opcode_table.json, the 29
commands of 30_encoding.md R72 and the 6 header forms of R61. -/

namespace Sys2Proof

/-- The fields of byte 0 of a frame (30_encoding.md R60), most significant first. -/
structure HdrByte0 where
  fin    : BitVec 1
  rsv1   : BitVec 1
  rsv2   : BitVec 1
  rsv3   : BitVec 1
  opcode : BitVec 4
deriving DecidableEq, Repr

/-- The `BUILD` descriptor (R75): `PRES` is which of the fields are `some`, and its bit 7. -/
structure Descriptor where
  /-- `PRES` bit 7; "must be 0; if 1 the command raises `IllegalCommand`". -/
  presBit7   : Bool
  fin        : Option Byte
  rsv1       : Option Byte
  rsv2       : Option Byte
  rsv3       : Option Byte
  opcode     : Option Byte
  maskingKey : Option Bytes
  payload    : Option Bytes
deriving DecidableEq, Repr

/-- The instruction set. Operands are those of R72 and R74: `arg : Byte` is `ARG`, `key : Bytes` is `KEY`
with `KLEN = key.length`, `data : Bytes` is `DATA` with `DLEN = data.length`. -/
inductive Instr where
  /-- 0x01 `LOAD` -/
  | load (data : Bytes)
  /-- 0x02 `BUILD` -/
  | build (d : Descriptor)
  /-- 0x03 `APPEND` -/
  | append (data : Bytes)
  /-- 0x10 `GET_FIN` -/
  | getFin
  /-- 0x11 `GET_RSV1` -/
  | getRsv1
  /-- 0x12 `GET_RSV2` -/
  | getRsv2
  /-- 0x13 `GET_RSV3` -/
  | getRsv3
  /-- 0x14 `GET_OPCODE` -/
  | getOpcode
  /-- 0x15 `GET_MASK` -/
  | getMask
  /-- 0x16 `GET_LEN7` -/
  | getLen7
  /-- 0x17 `GET_EXTW` -/
  | getExtw
  /-- 0x18 `GET_KEYOFF` -/
  | getKeyoff
  /-- 0x19 `GET_PAYOFF` -/
  | getPayoff
  /-- 0x1A `GET_RESIDENT` -/
  | getResident
  /-- 0x1B `GET_PAYLEN` -/
  | getPaylen
  /-- 0x1C `GET_KEY` -/
  | getKey
  /-- 0x1D `GET_PAYLOAD` -/
  | getPayload
  /-- 0x1E `IS_COMPLETE` -/
  | isComplete
  /-- 0x1F `IS_VALID` -/
  | isValid
  /-- 0x20 `SET_FIN` -/
  | setFin (arg : Byte)
  /-- 0x21 `SET_RSV1` -/
  | setRsv1 (arg : Byte)
  /-- 0x22 `SET_RSV2` -/
  | setRsv2 (arg : Byte)
  /-- 0x23 `SET_RSV3` -/
  | setRsv3 (arg : Byte)
  /-- 0x24 `SET_OPCODE` -/
  | setOpcode (arg : Byte)
  /-- 0x25 `SET_KEY` -/
  | setKey (key : Bytes)
  /-- 0x26 `REMOVE_KEY` -/
  | removeKey
  /-- 0x27 `SET_PAYLOAD` -/
  | setPayload (data : Bytes)
  /-- 0x28 `REMOVE_PAYLOAD` -/
  | removePayload
  /-- 0x30 `XFORM` -/
  | xform (key : Bytes) (data : Bytes)
  /-- `HDR.L7.U`: len7 0..125, MASK 0 -/
  | hdrL7U (h : HdrByte0) (len7 : BitVec 7)
  /-- `HDR.L7.M`: len7 0..125, MASK 1 -/
  | hdrL7M (h : HdrByte0) (len7 : BitVec 7)
  /-- `HDR.L16.U`: len7 126, MASK 0 -/
  | hdrL16U (h : HdrByte0)
  /-- `HDR.L16.M`: len7 126, MASK 1 -/
  | hdrL16M (h : HdrByte0)
  /-- `HDR.L64.U`: len7 127, MASK 0 -/
  | hdrL64U (h : HdrByte0)
  /-- `HDR.L64.M`: len7 127, MASK 1 -/
  | hdrL64M (h : HdrByte0)
deriving DecidableEq, Repr

end Sys2Proof
end

