-- ==== Sys2Proof/WellFormed.lean ====
section
/-! DEFINITION. Which instructions the encodings can spell: the operand ranges of 30_encoding.md R74
and the literal range of `len7` in the two `L7` header forms (R61). -/

namespace Sys2Proof

/-- `KLEN` is 0..255 (R74, `KLENMAX`). -/
def keyEncodable (key : Bytes) : Bool := decide (key.length ≤ 255)

/-- `DLEN` is 0..2^64-1 (R74). -/
def dataEncodable (data : Bytes) : Bool := decide (data.length < 2 ^ 64)

/-- A descriptor field that is absent is carried by no operand (R75). -/
def optEncodable (ok : Bytes → Bool) : Option Bytes → Bool
  | none   => true
  | some s => ok s

/-- `len7` of an `L7` form is 0..125 (R61). -/
def len7Literal (len7 : BitVec 7) : Bool := decide (len7.toNat ≤ 125)

/-- The header forms (R61): what the parser decodes from `BUF`, not what the host issues. -/
def Instr.isHeader : Instr → Bool
  | .hdrL7U _ _ | .hdrL7M _ _ | .hdrL16U _ | .hdrL16M _ | .hdrL64U _ | .hdrL64M _ => true
  | .load _ | .build _ | .append _ | .getFin | .getRsv1 | .getRsv2 | .getRsv3 | .getOpcode | .getMask
  | .getLen7 | .getExtw | .getKeyoff | .getPayoff | .getResident | .getPaylen | .getKey | .getPayload
  | .isComplete | .isValid | .setFin _ | .setRsv1 _ | .setRsv2 _ | .setRsv3 _ | .setOpcode _
  | .setKey _ | .removeKey | .setPayload _ | .removePayload | .xform _ _ => false

/-- Well-formed: every operand is one its encoding can carry. `ARG` and `PRES` are bytes, so every value of
theirs is encodable, the out-of-range ones too (R74: "Wider than any field on purpose"). -/
def Instr.wf : Instr → Bool
  | .load data | .append data | .setPayload data => dataEncodable data
  | .build d => optEncodable keyEncodable d.maskingKey && optEncodable dataEncodable d.payload
  | .setKey key => keyEncodable key
  | .xform key data => keyEncodable key && dataEncodable data
  | .hdrL7U _ len7 | .hdrL7M _ len7 => len7Literal len7
  | .hdrL16U _ | .hdrL16M _ | .hdrL64U _ | .hdrL64M _ => true
  | .getFin | .getRsv1 | .getRsv2 | .getRsv3 | .getOpcode | .getMask | .getLen7 | .getExtw | .getKeyoff
  | .getPayoff | .getResident | .getPaylen | .getKey | .getPayload | .isComplete | .isValid
  | .setFin _ | .setRsv1 _ | .setRsv2 _ | .setRsv3 _ | .setOpcode _ | .removeKey | .removePayload => true

end Sys2Proof
end

