-- ==== Sys2Proof/Decode.lean ====
section
/-! DEFINITION. The encodings of 30_encoding.md: byte order, the layout constants of 10_state.md R29, the
decoder of the two header bytes (Part A) and of command packets (Part B), total on any bytes, and the
encoder written from the same tables. -/

namespace Sys2Proof

/-! ### Byte order (00_scope.md R6, 20_memory.md R40) -/

/-- `BE(n, v)`: the `n` bytes of `v`, most significant first. Defined for `v < 2^(8n)` (R6). -/
def be : Nat → Nat → Bytes
  | 0,     _ => []
  | n + 1, v => BitVec.ofNat 8 (v / 256 ^ n) :: be n v

/-- `UBE(s)`, counting on from the value `acc` of the bytes before `s`. -/
def ubeFrom (acc : Nat) : Bytes → Nat
  | []      => acc
  | b :: bs => ubeFrom (acc * 256 + b.toNat) bs

/-- `UBE(s)`: the unsigned value of `s`, most significant byte first (R6). -/
def ube (s : Bytes) : Nat := ubeFrom 0 s

/-! ### Layout constants (10_state.md R29) -/

abbrev M_FIN    : Byte := 0x80#8
abbrev M_RSV1   : Byte := 0x40#8
abbrev M_RSV2   : Byte := 0x20#8
abbrev M_RSV3   : Byte := 0x10#8
abbrev M_OPCODE : Byte := 0x0F#8
abbrev M_MASK   : Byte := 0x80#8
abbrev M_LEN7   : Byte := 0x7F#8
abbrev LIT_MAX  : Nat := 125
abbrev ESC16    : Nat := 126
abbrev ESC64    : Nat := 127
abbrev L16_MAX  : Nat := 65535
abbrev MINFRAME : Nat := 2
abbrev KEYW     : Nat := 4

/-! ### Part A: the two header bytes -/

/-- The fields of byte 0: FIN bit 7, RSV1 bit 6, RSV2 bit 5, RSV3 bit 4, opcode bits 3..0 (R60). -/
def decodeByte0 (b0 : Byte) : HdrByte0 :=
  { fin    := b0.extractLsb' 7 1
    rsv1   := b0.extractLsb' 6 1
    rsv2   := b0.extractLsb' 5 1
    rsv3   := b0.extractLsb' 4 1
    opcode := b0.extractLsb' 0 4 }

/-- The header form of a frame, selected by byte 1 only, as R61 lists the six tests on
`W = BUF[0]*256 + BUF[1]`. Every pair of bytes decodes (R67). -/
def decodeHeader (b0 b1 : Byte) : Instr :=
  if b1 = 0x7E#8 then .hdrL16U (decodeByte0 b0)
  else if b1 = 0xFE#8 then .hdrL16M (decodeByte0 b0)
  else if b1 = 0x7F#8 then .hdrL64U (decodeByte0 b0)
  else if b1 = 0xFF#8 then .hdrL64M (decodeByte0 b0)
  else if b1 &&& M_MASK = 0#8 then .hdrL7U (decodeByte0 b0) (b1.extractLsb' 0 7)
  else .hdrL7M (decodeByte0 b0) (b1.extractLsb' 0 7)

/-! ### Part B: command packets (R72-R76) -/

/-- What a decoder of packets says of the bytes at the front of the command channel. -/
inductive Decoded where
  /-- A whole packet of a command of R72, and the bytes after it. -/
  | command (i : Instr) (rest : Bytes)
  /-- "An undefined command code is a complete one-byte packet" (R76); the bytes after it (R73: it
  consumes no operands). -/
  | undefinedCode (rest : Bytes)
  /-- "A packet that ends before its operands are complete is not a command" (R76). -/
  | truncated
deriving DecidableEq, Repr

/-- `ARG`: 1 byte (R76). -/
def takeArg : Bytes → Option (Byte × Bytes)
  | []      => none
  | b :: bs => some (b, bs)

/-- The first `n` bytes and the rest, where there are that many. -/
def takeBytes (n : Nat) (bs : Bytes) : Option (Bytes × Bytes) :=
  if n ≤ bs.length then some (bs.take n, bs.drop n) else none

/-- `KEY`: 1 byte `KLEN`, then `KLEN` bytes, `KEY[0]` first (R76). -/
def takeKey : Bytes → Option (Bytes × Bytes)
  | []        => none
  | klen :: bs => takeBytes klen.toNat bs

/-- `DATA`: 8 bytes `BE(8, DLEN)`, then `DLEN` bytes, `DATA[0]` first (R76). -/
def takeData (bs : Bytes) : Option (Bytes × Bytes) :=
  match takeBytes 8 bs with
  | none              => none
  | some (dlen, rest) => takeBytes (ube dlen) rest

/-- A descriptor operand, carried only when its `PRES` bit is 1 (R75). -/
def takeOpt {α : Type} (present : Bool) (take : Bytes → Option (α × Bytes)) (bs : Bytes) :
    Option (Option α × Bytes) :=
  if present then
    match take bs with
    | none           => none
    | some (x, rest) => some (some x, rest)
  else some (none, bs)

/-- `PRES` and, "for each set bit from bit 0 upward, that key's operand" (R76); bit 7 names no key and
carries no operand (R75; log 9). -/
def takeDescriptor : Bytes → Option (Descriptor × Bytes)
  | []         => none
  | pres :: bs =>
    match takeOpt (pres.getLsbD 0) takeArg bs with
    | none => none
    | some (fin, bs) =>
    match takeOpt (pres.getLsbD 1) takeArg bs with
    | none => none
    | some (rsv1, bs) =>
    match takeOpt (pres.getLsbD 2) takeArg bs with
    | none => none
    | some (rsv2, bs) =>
    match takeOpt (pres.getLsbD 3) takeArg bs with
    | none => none
    | some (rsv3, bs) =>
    match takeOpt (pres.getLsbD 4) takeArg bs with
    | none => none
    | some (opcode, bs) =>
    match takeOpt (pres.getLsbD 5) takeKey bs with
    | none => none
    | some (maskingKey, bs) =>
    match takeOpt (pres.getLsbD 6) takeData bs with
    | none => none
    | some (payload, bs) =>
      some ({ presBit7 := pres.getLsbD 7, fin, rsv1, rsv2, rsv3, opcode, maskingKey, payload }, bs)

/-- `KEY` then `DATA`, the operands of `XFORM` (R72). -/
def takeKeyData (bs : Bytes) : Option ((Bytes × Bytes) × Bytes) :=
  match takeKey bs with
  | none => none
  | some (key, bs) =>
    match takeData bs with
    | none            => none
    | some (data, bs) => some ((key, data), bs)

/-- A command with its operands, or a packet that ends before they are complete. -/
def withOperands {α : Type} (mk : α → Instr) : Option (α × Bytes) → Decoded
  | none           => .truncated
  | some (x, rest) => .command (mk x) rest

/-- The packet at the front of the command channel: the code of R72, then that command's operands. -/
def decodePacket : Bytes → Decoded
  | []      => .truncated
  | c :: bs =>
    match c.toNat with
    | 0x01 => withOperands .load (takeData bs)
    | 0x02 => withOperands .build (takeDescriptor bs)
    | 0x03 => withOperands .append (takeData bs)
    | 0x10 => .command .getFin bs
    | 0x11 => .command .getRsv1 bs
    | 0x12 => .command .getRsv2 bs
    | 0x13 => .command .getRsv3 bs
    | 0x14 => .command .getOpcode bs
    | 0x15 => .command .getMask bs
    | 0x16 => .command .getLen7 bs
    | 0x17 => .command .getExtw bs
    | 0x18 => .command .getKeyoff bs
    | 0x19 => .command .getPayoff bs
    | 0x1A => .command .getResident bs
    | 0x1B => .command .getPaylen bs
    | 0x1C => .command .getKey bs
    | 0x1D => .command .getPayload bs
    | 0x1E => .command .isComplete bs
    | 0x1F => .command .isValid bs
    | 0x20 => withOperands .setFin (takeArg bs)
    | 0x21 => withOperands .setRsv1 (takeArg bs)
    | 0x22 => withOperands .setRsv2 (takeArg bs)
    | 0x23 => withOperands .setRsv3 (takeArg bs)
    | 0x24 => withOperands .setOpcode (takeArg bs)
    | 0x25 => withOperands .setKey (takeKey bs)
    | 0x26 => .command .removeKey bs
    | 0x27 => withOperands .setPayload (takeData bs)
    | 0x28 => .command .removePayload bs
    | 0x30 => withOperands (fun kd => .xform kd.1 kd.2) (takeKeyData bs)
    | _    => .undefinedCode bs

/-! ### The encoder -/

/-- Byte 0 from its fields (R60). -/
def encodeByte0 (h : HdrByte0) : Byte := h.fin ++ h.rsv1 ++ h.rsv2 ++ h.rsv3 ++ h.opcode

/-- Byte 1 from the mask bit and `len7` (R60). -/
def encodeByte1 (mask : BitVec 1) (len7 : BitVec 7) : Byte := mask ++ len7

/-- `KEY` (R76). -/
def encodeKey (key : Bytes) : Bytes := BitVec.ofNat 8 key.length :: key

/-- `DATA` (R76). -/
def encodeData (data : Bytes) : Bytes := be 8 data.length ++ data

/-- A descriptor operand, where it is present. -/
def encodeOpt {α : Type} (enc : α → Bytes) : Option α → Bytes
  | none   => []
  | some x => enc x

/-- `PRES` (R75): bit 0 `fin` up to bit 6 `payload`, and bit 7. -/
def presByte (d : Descriptor) : Byte :=
  BitVec.ofBool d.presBit7 ++ BitVec.ofBool d.payload.isSome ++ BitVec.ofBool d.maskingKey.isSome ++
    BitVec.ofBool d.opcode.isSome ++ BitVec.ofBool d.rsv3.isSome ++ BitVec.ofBool d.rsv2.isSome ++
    BitVec.ofBool d.rsv1.isSome ++ BitVec.ofBool d.fin.isSome

/-- `PRES` and the operands of the fields present, from bit 0 upward (R76). -/
def encodeDescriptor (d : Descriptor) : Bytes :=
  presByte d ::
    (encodeOpt (fun b => [b]) d.fin ++ (encodeOpt (fun b => [b]) d.rsv1 ++ (encodeOpt (fun b => [b]) d.rsv2 ++
      (encodeOpt (fun b => [b]) d.rsv3 ++ (encodeOpt (fun b => [b]) d.opcode ++
        (encodeOpt encodeKey d.maskingKey ++ encodeOpt encodeData d.payload))))))

/-- The bytes of an instruction: the command packet of a command (R72, R76), bytes 0 and 1 of a header form
(R60, R61). -/
def encode : Instr → Bytes
  | .load data      => 0x01#8 :: encodeData data
  | .build d        => 0x02#8 :: encodeDescriptor d
  | .append data    => 0x03#8 :: encodeData data
  | .getFin         => [0x10#8]
  | .getRsv1        => [0x11#8]
  | .getRsv2        => [0x12#8]
  | .getRsv3        => [0x13#8]
  | .getOpcode      => [0x14#8]
  | .getMask        => [0x15#8]
  | .getLen7        => [0x16#8]
  | .getExtw        => [0x17#8]
  | .getKeyoff      => [0x18#8]
  | .getPayoff      => [0x19#8]
  | .getResident    => [0x1A#8]
  | .getPaylen      => [0x1B#8]
  | .getKey         => [0x1C#8]
  | .getPayload     => [0x1D#8]
  | .isComplete     => [0x1E#8]
  | .isValid        => [0x1F#8]
  | .setFin arg     => [0x20#8, arg]
  | .setRsv1 arg    => [0x21#8, arg]
  | .setRsv2 arg    => [0x22#8, arg]
  | .setRsv3 arg    => [0x23#8, arg]
  | .setOpcode arg  => [0x24#8, arg]
  | .setKey key     => 0x25#8 :: encodeKey key
  | .removeKey      => [0x26#8]
  | .setPayload data => 0x27#8 :: encodeData data
  | .removePayload  => [0x28#8]
  | .xform key data => 0x30#8 :: (encodeKey key ++ encodeData data)
  | .hdrL7U h len7  => [encodeByte0 h, encodeByte1 0#1 len7]
  | .hdrL7M h len7  => [encodeByte0 h, encodeByte1 1#1 len7]
  | .hdrL16U h      => [encodeByte0 h, encodeByte1 0#1 126#7]
  | .hdrL16M h      => [encodeByte0 h, encodeByte1 1#1 126#7]
  | .hdrL64U h      => [encodeByte0 h, encodeByte1 0#1 127#7]
  | .hdrL64M h      => [encodeByte0 h, encodeByte1 1#1 127#7]

/-! ### The opcode table's numbering of bits -/

/-- The bytes of a table word. A `HDR` row is one 16-bit word `W = BUF[0]*256 + BUF[1]` (R61 and the row's own
"word"), byte 0 of the frame first; a `CMD` row is bytes, the first in bits 7..0, and the operand bytes the
row gives no bits are zero (log 14). -/
def tableBytes (nbits w : Nat) : Bytes :=
  if nbits = 16 then be 2 w
  else (be (nbits / 8) w).reverse ++ List.replicate 16 0#8

/-- The command packet at the front of `bs`, without the bytes after it. -/
def packetOf (bs : Bytes) : Bytes :=
  match decodePacket bs with
  | .command _ rest     => bs.take (bs.length - rest.length)
  | .undefinedCode rest => bs.take (bs.length - rest.length)
  | .truncated          => bs

/-- The instruction of a table row's word: a header form for the 16-bit rows, a command for the others. -/
def decodeTableWord (nbits w : Nat) : Option Instr :=
  if nbits = 16 then
    match tableBytes nbits w with
    | b0 :: b1 :: _ => some (decodeHeader b0 b1)
    | _             => none
  else
    match decodePacket (tableBytes nbits w) with
    | .command i _     => some i
    | .undefinedCode _ => none
    | .truncated       => none

end Sys2Proof
end

