-- ==== Sys2Proof/Config.lean ====
section
/-! DEFINITION. What is fixed for one unit: the parameters the spec leaves OPEN (00_scope.md R4,
92_eei_decisions.md "Open parameters in one place"), and the one value the spec gives no number for. -/

namespace Sys2Proof

/-- The open parameters of one unit, as plain data. No command reads them out or changes them.
Statements hold for every value; `State.reset` carries the spec's own defaults (log 5). -/
structure Config where
  /-- `BUFMAX`, the capacity of the frame buffer in bytes; `none` is the spec's "unbounded" (R4, D2). -/
  bufMax  : Option Nat
  /-- `ProtocolLegal : byte -> bool` (R177, D18), given as the values of byte 0 it rejects (log 6). -/
  rejects : Bytes
deriving DecidableEq, Repr

/-- R4: `BUFMAX` is "any natural number >= 14 (the longest header, 2+8+4), or unbounded". -/
def Config.wf (c : Config) : Bool :=
  match c.bufMax with
  | none   => true
  | some m => decide (14 ≤ m)

/-- The defaults the spec names: capacity unbounded, `ProtocolLegal` the constant true. -/
def Config.default : Config := { bufMax := none, rejects := [] }

/-- FREE VALUE (log 10, DESIGN CHOICE): what the 64-bit `val` shows for a count `n >= 2^64`, for which
`zext_64(n)` is not defined (R8). Nothing constrains it. -/
opaque Config.wideVal : Nat → Val

end Sys2Proof
end

