-- ==== Sys2Proof/Machine/State.lean ====
section
/-! DEFINITION. The state of the unit (10_state.md R20-R34) with the environment's side of it (the command
channel, the reset input and the output port), the error codes and responses (60_exceptions.md R185,
00_scope.md R9), the reasons a step can stop, and the state after reset. -/

namespace Sys2Proof.Machine

/-- The error codes (R185). -/
inductive ErrorCode where
  | ok
  | invalidArgumentShape
  | outOfRange
  /-- Kept for the source's taxonomy; "never raised by any command" (R188). -/
  | wrongType
  | wrongLength
  | headerIncomplete
  | overflow
  | illegalCommand
deriving DecidableEq, Repr

/-- The response `(err, null, val, out)` of one command (R9). -/
structure Response where
  err  : ErrorCode
  null : Bool
  val  : Val
  out  : Bytes
deriving DecidableEq, Repr

/-- What the last step put out. No command reads it, so it is no error latch and no record of the last
command inside the unit (10_state.md R27(e)): it is what the host reads (log 1). Responses are all that ever
stands here (60_exceptions.md R200). -/
inductive Port where
  /-- The last step put nothing out: it was no command. -/
  | idle
  /-- The response of a command (R9). -/
  | response (r : Response)
deriving DecidableEq, Repr

/-- The frame buffer: one cell `(offset, byte)` for each offset `0 .. LEN-1`, in rising order. An offset that
is not listed does not exist and holds no value (R20, R28; log 7). -/
abbrev Memory := List Host.Cell

/-- The whole state. `mem` is the unit's own and only state (R20); the other fields are the environment's
side of it, which the host drives or reads. -/
structure State where
  /-- `BUF`; `LEN` is its number of cells (R20). -/
  mem   : Memory
  /-- The command bytes the host has issued and the unit has not taken, oldest first (R76; log 2). -/
  cmdIn : Bytes
  /-- The reset input (R215; log 8). -/
  rst   : Bool
  /-- What the last step put out (R9; log 1). -/
  port  : Port
  /-- The open parameters (R4), fixed for one unit (log 5). -/
  cfg   : Config
deriving DecidableEq, Repr

/-- Why the machine is stuck. -/
inductive Fault where
  /-- Raised by `step` alone: no command is pending and `BUF` holds no header, so there is nothing to run
  ("A step is the execution of one command", R9). Safe: the machine stops where the unit waits. -/
  | idle
deriving DecidableEq, Repr

/-- What the model gives no meaning. -/
inductive Refusal where
  /-- Raised by `exec` alone, for an instruction without a meaning yet. Safe. No instruction of this model
  is left so. -/
  | notModelled (mnemonic : String)
  /-- Raised by `step` alone: the bytes of the command channel end before the operands of their first
  packet are complete; "a decoder of packets reports it invalid and no step is taken" (R76, U7). Safe. -/
  | incompletePacket
deriving DecidableEq, Repr

/-- What one step answers. -/
abbrev Out := Host.Outcome State Fault Refusal

/-- After reset `LEN = 0` and `BUF = []` (R34, R215); nothing issued, nothing put out, the reset input low
(logs 1, 2, 8), the parameters at the spec's defaults (log 5). -/
def State.reset : State :=
  { mem := [], cmdIn := [], rst := false, port := .idle, cfg := Config.default }

end Sys2Proof.Machine
end

