-- ==== Sys2Proof/Machine/Ops.lean ====
section
/-! DEFINITION. The shared operations: the buffer's cells and bytes (20_memory.md R53), the ways a command
ends (00_scope.md R8, 60_exceptions.md R195), capacity (R193), the masking cipher (41_masking_cipher.md
R110), the response packet (R76) and reset (R215). -/

namespace Sys2Proof.Machine

/-! ### The frame-buffer space -/

/-- The cells of a byte sequence that starts at offset `a`. -/
def Memory.ofBytesFrom (a : Nat) : Bytes → Memory
  | []      => []
  | b :: bs => (a, b) :: Memory.ofBytesFrom (a + 1) bs

/-- The buffer that holds the sequence `s`: byte `i` of `s` at offset `i` (R41). -/
def Memory.ofBytes (s : Bytes) : Memory := Memory.ofBytesFrom 0 s

/-- `BUF` as a sequence. -/
def Memory.bytes (m : Memory) : Bytes := m.map Prod.snd

/-- The canonical form: the offsets are exactly `0 .. LEN-1`, in rising order (R28). An unlisted offset holds
no value, so no entry can equal what an unlisted one reads as. -/
def Memory.wf (m : Memory) : Bool := m.map Prod.fst == List.range m.length

/-- The byte at offset `a`; `none` where the offset does not exist. -/
def Memory.read (m : Memory) (a : Nat) : Option Byte := (m.find? fun c => c.1 == a).map Prod.snd

/-- `BUF[a] <- v`, for an offset that exists; an offset that does not exist is not created (R53: `LEN` and
all other bytes unchanged). -/
def Memory.write (m : Memory) (a : Nat) (v : Byte) : Memory :=
  m.map fun c => if c.1 = a then (a, v) else c

/-- The bytes of `s` at offsets `a, a+1, ..`. -/
def Memory.writeBytes (m : Memory) (a : Nat) : Bytes → Memory
  | []      => m
  | b :: bs => Memory.writeBytes (m.write a b) (a + 1) bs

/-- `BUF` as a sequence (R20). -/
def State.buf (s : State) : Bytes := s.mem.bytes

/-- `LEN = len(BUF)` (R20). -/
def State.len (s : State) : Nat := s.mem.length

/-- `BUF <- bs`: "replace the whole buffer by sequence s in one step" (R8, R45). -/
def State.setBuf (s : State) (bs : Bytes) : State := { s with mem := Memory.ofBytes bs }

/-- `MemWrite(off, n, v)`: `BUF[off..off+n) <- BE(n, v)`, `LEN` unchanged (R53). -/
def State.memWrite (s : State) (off n v : Nat) : State :=
  { s with mem := s.mem.writeBytes off (be n v) }

/-- `s[i]`, read only where the rules have established `i < len(s)` (R48). -/
def byteAt (b : Bytes) (i : Nat) : Byte := b.getD i 0#8

/-- `s[lo..hi)` (R6). -/
def slice (b : Bytes) (lo hi : Nat) : Bytes := (b.drop lo).take (hi - lo)

/-- `MemRead(off, n)`: `UBE(BUF[off..off+n))` (R53). -/
def memRead (b : Bytes) (off n : Nat) : Nat := ube (slice b off (off + n))

/-! ### How a command ends -/

/-- The number of an error code (R185). -/
def errorNumber : ErrorCode → Nat
  | .ok                   => 0
  | .invalidArgumentShape => 1
  | .outOfRange           => 2
  | .wrongType            => 3
  | .wrongLength          => 4
  | .headerIncomplete     => 5
  | .overflow             => 6
  | .illegalCommand       => 7

/-- The response of a command that ends in an error: "(err = code, null = 0, val = 0, out = [])" (R195). -/
def errorResponse (e : ErrorCode) : Response := { err := e, null := false, val := 0, out := [] }

/-- `return ()`: success with no result (R9). -/
def okResponse : Response := { err := .ok, null := false, val := 0, out := [] }

/-- `return (null = 1)`. -/
def nullResponse : Response := { err := .ok, null := true, val := 0, out := [] }

/-- `return (out = bs)`. -/
def outResponse (bs : Bytes) : Response := { err := .ok, null := false, val := 0, out := bs }

/-- `return (val = v)`. -/
def valResponse (v : Val) : Response := { err := .ok, null := false, val := v, out := [] }

/-- A byte or a field of one in `val`, zero-extended (R135 ff.). -/
def valOfByte (b : Byte) : Val := b.setWidth 64

/-- A Boolean in `val`: "Booleans are returned in `val` as 0 or 1" (R76). -/
def valOfBool (b : Bool) : Val := if b then 1 else 0

/-- A count in `val`: `zext_64(n)` (R8); for `n >= 2^64`, where that is not defined, a free value (log 10). -/
def valOfCount (n : Nat) : Val := if n < 2 ^ 64 then BitVec.ofNat 64 n else Config.wideVal n

/-- Put a response on the output port; the step's new state is otherwise `s`. -/
def State.respond (s : State) (r : Response) : State := { s with port := .response r }

/-- Put nothing out: a step that is no command reports nothing (R200). -/
def State.silent (s : State) : State := { s with port := .idle }

/-- TAKING AN ERROR, `raise e` (R8, R195, R201): the state is unchanged bit for bit and the response carries the
code alone. There is no vector, no saved state, no mode; so there is no return either (R196, R202). -/
def raise (s : State) (e : ErrorCode) : Out := .next (s.respond (errorResponse e))

/-- `return r`, the state otherwise `s`. -/
def answer (s : State) (r : Response) : Out := .next (s.respond r)

/-- The capacity test: a buffer of `n` bytes fits `BUFMAX` (R193). -/
def fitsBuffer (c : Config) (n : Nat) : Bool :=
  match c.bufMax with
  | none   => true
  | some m => decide (n ≤ m)

/-- `if len(new) > BUFMAX then raise Overflow; BUF <- new; return r`: the end every command that replaces the
buffer shares (R45, R193). -/
def replaceBuffer (s : State) (new : Bytes) (r : Response) : Out :=
  if fitsBuffer s.cfg new.length then answer (s.setBuf new) r else raise s .overflow

/-! ### The masking cipher -/

/-- The cipher from index `i` on. -/
def transformFrom (i : Nat) (k : Bytes) : Bytes → Bytes
  | []      => []
  | b :: bs => (b ^^^ byteAt k (i % 4)) :: transformFrom (i + 1) k bs

/-- `transform(s, k)`: `t[i] = s[i] XOR k[i mod 4]`, for a key of exactly 4 bytes (R110). -/
def transform (s k : Bytes) : Bytes := transformFrom 0 k s

/-! ### The response packet -/

/-- The response packet (R76): `err`, `flags`, `BE(8, val)`, `BE(8, len(out))`, `out`. There is none where
`BE(8, len(out))` is not defined (R6; log 13). -/
def responsePacket (r : Response) : Option Bytes :=
  if r.out.length < 2 ^ 64 then
    some (BitVec.ofNat 8 (errorNumber r.err) :: (if r.null then 1#8 else 0#8) ::
      (be 8 r.val.toNat ++ (be 8 r.out.length ++ r.out)))
  else none

/-! ### The environment's actions -/

/-- The host issues command bytes (R9, R76). -/
def State.send (s : State) (bs : Bytes) : State := { s with cmdIn := s.cmdIn ++ bs }

/-- The host issues a command. -/
def State.issue (s : State) (i : Instr) : State := s.send (encode i)

/-- TAKING RESET (R215): `BUF = []`, `LEN = 0`; a command in progress is abandoned without a response and
without effect, a response being emitted is cut off. The reset input is low again after it (log 8). -/
def State.takeReset (s : State) : State :=
  { s with mem := [], cmdIn := [], rst := false, port := .idle }

end Sys2Proof.Machine
end

