-- ==== Sys2Proof/Machine/Operands.lean ====
section
/-! DEFINITION. Operand forms: where a frame's fields lie (the parser functions of 40_layout_engine.md), the
length encoding (30_encoding.md R70), and the validation of operands (60_exceptions.md R186-R190). -/

namespace Sys2Proof.Machine

/-! ### The parser functions, of the buffer's bytes (R90-R96) -/

/-- `Have2()` (R90). -/
def have2 (b : Bytes) : Bool := decide (MINFRAME ≤ b.length)

/-- `len7()` (R91). -/
def len7 (b : Bytes) : Nat := (byteAt b 1 &&& M_LEN7).toNat

/-- `extw()` (R92). -/
def extw (b : Bytes) : Nat :=
  if len7 b ≤ LIT_MAX then 0 else if len7 b = ESC16 then 2 else 8

/-- `keyoff()` (R93). -/
def keyoff (b : Bytes) : Nat := 2 + extw b

/-- The mask bit `BUF[1] >> 7` is 1 (R60). -/
def maskBit (b : Bytes) : Bool := byteAt b 1 >>> 7 == 1#8

/-- `payoff()` (R94). -/
def payoff (b : Bytes) : Nat := if maskBit b then keyoff b + KEYW else keyoff b

/-- `LenFieldResident()` (R90). -/
def lenFieldResident (b : Bytes) : Bool := have2 b && decide (2 + extw b ≤ b.length)

/-- `HeaderResident()` (R90). -/
def headerResident (b : Bytes) : Bool := have2 b && decide (payoff b ≤ b.length)

/-- `resident()` (R95), of use where `HeaderResident()` holds. -/
def resident (b : Bytes) : Nat := b.length - payoff b

/-- `payloadLength()` (R96), of use where `LenFieldResident()` holds. -/
def payloadLength (b : Bytes) : Nat :=
  if len7 b ≤ LIT_MAX then len7 b
  else if len7 b = ESC16 then memRead b 2 2
  else memRead b 2 8

/-- The key region `BUF[ko..ko+4)` (R42, R63). -/
def keyBytes (b : Bytes) : Bytes := slice b (keyoff b) (keyoff b + KEYW)

/-- `W = BUF[po..)`: the resident payload as stored (44_key_payload.md). -/
def wirePayload (b : Bytes) : Bytes := b.drop (payoff b)

/-- `Plain(BUF)`: the unmasked resident bytes (R161, the last two lines of R158). -/
def plainPayload (b : Bytes) : Bytes :=
  if maskBit b then transform (wirePayload b) (keyBytes b) else wirePayload b

/-! ### The length encoding -/

/-- `EncodeLength(L)`, for `L < 2^64`: the initial length and the extended-length bytes (R70). -/
def encodeLength (n : Nat) : Byte × Bytes :=
  if n ≤ LIT_MAX then (BitVec.ofNat 8 n, [])
  else if n ≤ L16_MAX then (BitVec.ofNat 8 ESC16, be 2 n)
  else (BitVec.ofNat 8 ESC64, be 8 n)

/-! ### Validation (R186-R190) -/

/-- A flag value is valid iff it is 0 or 1 (R186). -/
def flagValid (v : Byte) : Bool := decide (v.toNat ≤ 1)

/-- An opcode value is valid iff it is 0..15 (R187). -/
def opcodeValid (v : Byte) : Bool := decide (v.toNat ≤ 15)

/-- A key is valid iff its length is 4 (R189). -/
def keyValid (key : Bytes) : Bool := key.length == KEYW

/-- Raw bytes are valid iff there are at least 2 (R190). -/
def rawValid (data : Bytes) : Bool := decide (MINFRAME ≤ data.length)

/-- A supplied descriptor field is checked, an absent one is not (R122). -/
def optValid {α : Type} (ok : α → Bool) : Option α → Bool
  | none   => true
  | some v => ok v

/-- The first error of a descriptor, in the order of R122 and R198; `none` if it is valid. -/
def descriptorError (d : Descriptor) : Option ErrorCode :=
  if d.presBit7 then some .illegalCommand
  else if !optValid flagValid d.fin then some .outOfRange
  else if !optValid flagValid d.rsv1 then some .outOfRange
  else if !optValid flagValid d.rsv2 then some .outOfRange
  else if !optValid flagValid d.rsv3 then some .outOfRange
  else if !optValid opcodeValid d.opcode then some .outOfRange
  else if !optValid keyValid d.maskingKey then some .wrongLength
  else none

/-- The Frame Encoder: the frame `[b0, b1] ++ ext ++ keyb ++ body` of a valid descriptor (R122). -/
def buildFrame (d : Descriptor) : Bytes :=
  let v (x : Option Byte) : Byte := x.getD 0#8
  let b0 := (v d.fin <<< 7) ||| (v d.rsv1 <<< 6) ||| (v d.rsv2 <<< 5) ||| (v d.rsv3 <<< 4) ||| v d.opcode
  let p := d.payload.getD []
  let l := encodeLength p.length
  let b1 := (if d.maskingKey.isSome then M_MASK else 0#8) ||| l.1
  let keyb := d.maskingKey.getD []
  let body := match d.maskingKey with
    | none     => p
    | some key => transform p key
  [b0, b1] ++ l.2 ++ keyb ++ body

end Sys2Proof.Machine
end

