-- ==== Sys2Proof/Machine/Flags.lean ====
section
/-! DEFINITION. The header's bit fields (43_field_accessors.md R135) and the derived predicates
`isComplete`, `isValid` and the frame's condition (45_queries.md R175-R178). None is stored (10_state.md R26). -/

namespace Sys2Proof.Machine

/-- The mask of a field of width `w` at bit 0: `2^w - 1` (R135). -/
def fieldMask (w : Nat) : Byte := BitVec.ofNat 8 (2 ^ w - 1)

/-- `GetBits(B, pos, w)` (R135). -/
def getBits (b : Bytes) (off pos w : Nat) : Byte := (byteAt b off >>> pos) &&& fieldMask w

/-- The byte `old` with the field rewritten: the right side of `SetBits` (R135). -/
def withField (old : Byte) (pos w : Nat) (v : Byte) : Byte :=
  (old &&& ~~~(fieldMask w <<< pos)) ||| (v <<< pos)

/-- `SetBits(B, pos, w, v)`: one byte rewritten in place (R135, R53). -/
def State.setBits (s : State) (off pos w : Nat) (v : Byte) : State :=
  s.memWrite off 1 (withField (byteAt s.buf off) pos w v).toNat

/-- `isComplete()` (R175). -/
def frameComplete (b : Bytes) : Bool :=
  if !headerResident b then false else decide (payloadLength b ≤ resident b)

/-- `ProtocolLegal(b0)` (R177). -/
def protocolLegal (c : Config) (b0 : Byte) : Bool := !c.rejects.contains b0

/-- `isValid()` (R176). -/
def frameValid (c : Config) (b : Bytes) : Bool :=
  if !rawValid b then false
  else if !headerResident b then false
  else if resident b != payloadLength b then false
  else if !protocolLegal c (byteAt b 0) then false
  else true

/-- The frame's condition (R178); *complete* is the union of *valid* and *malformed*. -/
inductive FrameCondition where
  | receiving
  | valid
  | malformed
deriving DecidableEq, Repr

/-- The table of R178. -/
def frameCondition (c : Config) (b : Bytes) : FrameCondition :=
  if !frameComplete b then .receiving
  else if frameValid c b then .valid
  else .malformed

end Sys2Proof.Machine
end

