-- ==== Sys2Proof/Machine/Cipher.lean ====
section
/-! DEFINITION. The stand-alone cipher command (41_masking_cipher.md R114). -/

namespace Sys2Proof.Machine

/-- `XFORM` (R114): `BUF` is neither read nor written. -/
def execXform (key data : Bytes) (s : State) : Out :=
  if !keyValid key then raise s .wrongLength
  else answer s (outResponse (transform data key))

end Sys2Proof.Machine
end

