-- ==== Sys2Proof/Machine/Construction.lean ====
section
/-! DEFINITION. LOAD, APPEND and the frame encoder BUILD (42_construction.md R120-R122). -/

namespace Sys2Proof.Machine

/-- `LOAD` (R120). -/
def execLoad (data : Bytes) (s : State) : Out :=
  if !rawValid data then raise s .invalidArgumentShape
  else replaceBuffer s data okResponse

/-- `BUILD` (R122); the order of the checks is R198's. -/
def execBuild (d : Descriptor) (s : State) : Out :=
  match descriptorError d with
  | some e => raise s e
  | none   => replaceBuffer s (buildFrame d) okResponse

/-- `APPEND` (R121). -/
def execAppend (data : Bytes) (s : State) : Out :=
  replaceBuffer s (s.buf ++ data) okResponse

end Sys2Proof.Machine
end

