-- ==== Sys2Proof/Machine/Fields.lean ====
section
/-! DEFINITION. The field accessors: FIN, RSV1-3, opcode, mask (43_field_accessors.md R136-R146). -/

namespace Sys2Proof.Machine

/-- A field getter: `if not Have2() then raise HeaderIncomplete; return (val = GetBits(B, pos, w))`. -/
def getField (off pos w : Nat) (s : State) : Out :=
  if !have2 s.buf then raise s .headerIncomplete
  else answer s (valResponse (valOfByte (getBits s.buf off pos w)))

/-- A field setter of byte 0: the operand is validated first, then `Have2()` (R198), then the field is
rewritten in place. -/
def setField (ok : Byte → Bool) (pos w : Nat) (arg : Byte) (s : State) : Out :=
  if !ok arg then raise s .outOfRange
  else if !have2 s.buf then raise s .headerIncomplete
  else answer (s.setBits 0 pos w arg) okResponse

/-- `GET_FIN` (R136). -/
def execGetFin (s : State) : Out := getField 0 7 1 s

/-- `GET_RSV1` (R137). -/
def execGetRsv1 (s : State) : Out := getField 0 6 1 s

/-- `GET_RSV2` (R138). -/
def execGetRsv2 (s : State) : Out := getField 0 5 1 s

/-- `GET_RSV3` (R139). -/
def execGetRsv3 (s : State) : Out := getField 0 4 1 s

/-- `GET_OPCODE` (R140). -/
def execGetOpcode (s : State) : Out := getField 0 0 4 s

/-- `GET_MASK` (R141). -/
def execGetMask (s : State) : Out := getField 1 7 1 s

/-- `SET_FIN` (R142). -/
def execSetFin (arg : Byte) (s : State) : Out := setField flagValid 7 1 arg s

/-- `SET_RSV1` (R143). -/
def execSetRsv1 (arg : Byte) (s : State) : Out := setField flagValid 6 1 arg s

/-- `SET_RSV2` (R144). -/
def execSetRsv2 (arg : Byte) (s : State) : Out := setField flagValid 5 1 arg s

/-- `SET_RSV3` (R145). -/
def execSetRsv3 (arg : Byte) (s : State) : Out := setField flagValid 4 1 arg s

/-- `SET_OPCODE` (R146). -/
def execSetOpcode (arg : Byte) (s : State) : Out := setField opcodeValid 0 4 arg s

end Sys2Proof.Machine
end

