-- ==== Sys2Proof/Machine/HeaderForms.lean ====
section
/-! DEFINITION. The header forms (30_encoding.md R61): what the header parser makes of the frame in `BUF` when its
bytes 0 and 1 are of that form. The operands of a form are the fields of those two bytes; the form's own
row of the table of R61 gives the extended-length width, the mask bit and the header size; the declared
length (R62) and the resident count (R64) are read from `BUF` behind them, as far as they have arrived
(R48, R65). These outputs are functions of `BUF`, "not a stored value" (10_state.md R21, R104), and the unit
reports them in the response to a command that asks, and nowhere else (60_exceptions.md R200): log 3, log 4. -/

namespace Sys2Proof.Machine

/-- What the header parser makes of a frame header: the field values, the masking-key offset, the payload
offset, the declared payload length and the resident payload count (00_scope.md R1, 30_encoding.md R65). -/
structure Layout where
  byte0    : HdrByte0
  mask     : BitVec 1
  len7     : BitVec 7
  extw     : Nat
  keyoff   : Nat
  payoff   : Nat
  /-- `none` until `LenFieldResident()` (R90). -/
  paylen   : Option Nat
  /-- `none` until `HeaderResident()` (R90). -/
  resident : Option Nat
deriving DecidableEq, Repr

/-- The declared length (R62): the literal, or the big-endian value of the extended length once it is in
`BUF`. -/
def declaredLength (lit : BitVec 7) (width : Nat) (b : Bytes) : Option Nat :=
  if width = 0 then some lit.toNat
  else if 2 + width ≤ b.length then some (memRead b 2 width)
  else none

/-- The parser's outputs for the frame in `b`, of the form with extended-length width `width`, mask bit `mask`
and header size `size` (R61). -/
def formLayout (h : HdrByte0) (lit : BitVec 7) (mask : BitVec 1) (width size : Nat) (b : Bytes) : Layout :=
  { byte0    := h
    mask     := mask
    len7     := lit
    extw     := width
    keyoff   := 2 + width
    payoff   := size
    paylen   := declaredLength lit width b
    resident := if size ≤ b.length then some (b.length - size) else none }

/-! ### The rows of R61 -/

def layoutHdrL7U (h : HdrByte0) (lit : BitVec 7) (b : Bytes) : Layout := formLayout h lit 0#1 0 2 b

def layoutHdrL7M (h : HdrByte0) (lit : BitVec 7) (b : Bytes) : Layout := formLayout h lit 1#1 0 6 b

def layoutHdrL16U (h : HdrByte0) (b : Bytes) : Layout := formLayout h 126#7 0#1 2 4 b

def layoutHdrL16M (h : HdrByte0) (b : Bytes) : Layout := formLayout h 126#7 1#1 2 8 b

def layoutHdrL64U (h : HdrByte0) (b : Bytes) : Layout := formLayout h 127#7 0#1 8 10 b

def layoutHdrL64M (h : HdrByte0) (b : Bytes) : Layout := formLayout h 127#7 1#1 8 14 b

/-- The parser's outputs for the frame in `b` by the form `i`; a command is no header form. -/
def headerLayout (i : Instr) (b : Bytes) : Option Layout :=
  match i with
  | .hdrL7U h lit => some (layoutHdrL7U h lit b)
  | .hdrL7M h lit => some (layoutHdrL7M h lit b)
  | .hdrL16U h    => some (layoutHdrL16U h b)
  | .hdrL16M h    => some (layoutHdrL16M h b)
  | .hdrL64U h    => some (layoutHdrL64U h b)
  | .hdrL64M h    => some (layoutHdrL64M h b)
  | .load _ | .build _ | .append _ | .getFin | .getRsv1 | .getRsv2 | .getRsv3 | .getOpcode | .getMask
  | .getLen7 | .getExtw | .getKeyoff | .getPayoff | .getResident | .getPaylen | .getKey | .getPayload
  | .isComplete | .isValid | .setFin _ | .setRsv1 _ | .setRsv2 _ | .setRsv3 _ | .setOpcode _
  | .setKey _ | .removeKey | .setPayload _ | .removePayload | .xform _ _ => none

/-- The header parser's outputs at any moment: by the form that bytes 0 and 1 select, once both are there
(R61, R90). -/
def parserOutputs (b : Bytes) : Option Layout :=
  match b with
  | b0 :: b1 :: _ => headerLayout (decodeHeader b0 b1) b
  | _             => none

/-! ### The meanings -/

/-- The parser decodes a header whose outputs are `outputs`: they stand inside the unit for as long as `BUF`
stays as it is, no cell of the state holds them (R21), and nothing is reported (R200). -/
def parserPass (_outputs : Layout) (s : State) : Out := .next s.silent

/-- `HDR.L7.U` -/
def execHdrL7U (h : HdrByte0) (lit : BitVec 7) (s : State) : Out := parserPass (layoutHdrL7U h lit s.buf) s

/-- `HDR.L7.M` -/
def execHdrL7M (h : HdrByte0) (lit : BitVec 7) (s : State) : Out := parserPass (layoutHdrL7M h lit s.buf) s

/-- `HDR.L16.U` -/
def execHdrL16U (h : HdrByte0) (s : State) : Out := parserPass (layoutHdrL16U h s.buf) s

/-- `HDR.L16.M` -/
def execHdrL16M (h : HdrByte0) (s : State) : Out := parserPass (layoutHdrL16M h s.buf) s

/-- `HDR.L64.U` -/
def execHdrL64U (h : HdrByte0) (s : State) : Out := parserPass (layoutHdrL64U h s.buf) s

/-- `HDR.L64.M` -/
def execHdrL64M (h : HdrByte0) (s : State) : Out := parserPass (layoutHdrL64M h s.buf) s

end Sys2Proof.Machine
end

