-- ==== Sys2Proof/Machine/KeyPayload.lean ====
section
/-! DEFINITION. The masking-key and payload commands (44_key_payload.md R155-R160). -/

namespace Sys2Proof.Machine

/-- `GET_KEY` (R155). -/
def execGetKey (s : State) : Out :=
  if !have2 s.buf then raise s .headerIncomplete
  else if !maskBit s.buf then answer s nullResponse
  else if !headerResident s.buf then raise s .headerIncomplete
  else answer s (outResponse (keyBytes s.buf))

/-- The frame with its key replaced: the old mask removed and the new one applied (R156, D13). -/
def rekeyedFrame (b key : Bytes) : Bytes :=
  slice b 0 (keyoff b) ++ key ++ transform (transform (wirePayload b) (keyBytes b)) key

/-- The frame with a key inserted before its payload, which is masked as the mask bit is set (R156, C1). -/
def keyedFrame (b key : Bytes) : Bytes :=
  [byteAt b 0, byteAt b 1 ||| M_MASK] ++ slice b 2 (keyoff b) ++ key ++ transform (wirePayload b) key

/-- `SET_KEY` (R156). The capacity test is the insertion path's alone: a replaced key changes no length. -/
def execSetKey (key : Bytes) (s : State) : Out :=
  if !keyValid key then raise s .wrongLength
  else if !headerResident s.buf then raise s .headerIncomplete
  else if maskBit s.buf then answer (s.setBuf (rekeyedFrame s.buf key)) okResponse
  else if !fitsBuffer s.cfg (s.len + 4) then raise s .overflow
  else answer (s.setBuf (keyedFrame s.buf key)) okResponse

/-- The frame with its key stripped, the mask bit cleared and the payload unmasked (R157). -/
def unkeyedFrame (b : Bytes) : Bytes :=
  [byteAt b 0, byteAt b 1 &&& M_LEN7] ++ slice b 2 (keyoff b) ++ transform (wirePayload b) (keyBytes b)

/-- `REMOVE_KEY` (R157). -/
def execRemoveKey (s : State) : Out :=
  if !have2 s.buf then raise s .headerIncomplete
  else if !maskBit s.buf then answer s nullResponse
  else if !headerResident s.buf then raise s .headerIncomplete
  else answer (s.setBuf (unkeyedFrame s.buf)) (outResponse (keyBytes s.buf))

/-- `GET_PAYLOAD` (R158): the null test is on the declared length; all resident bytes are returned. -/
def execGetPayload (s : State) : Out :=
  if !headerResident s.buf then raise s .headerIncomplete
  else if payloadLength s.buf = 0 then answer s nullResponse
  else answer s (outResponse (plainPayload s.buf))

/-- The frame with its payload replaced by the plaintext `data`; the length form is chosen afresh (R159). -/
def repayloadedFrame (b data : Bytes) : Bytes :=
  let l := encodeLength data.length
  let key := if maskBit b then keyBytes b else []
  let body := if maskBit b then transform data (keyBytes b) else data
  [byteAt b 0, (byteAt b 1 &&& M_MASK) ||| l.1] ++ l.2 ++ key ++ body

/-- `SET_PAYLOAD` (R159). -/
def execSetPayload (data : Bytes) (s : State) : Out :=
  if !headerResident s.buf then raise s .headerIncomplete
  else replaceBuffer s (repayloadedFrame s.buf data) okResponse

/-- The frame with its payload stripped: a 0-byte literal length, the mask bit and the key kept (R160). -/
def unpayloadedFrame (b : Bytes) : Bytes :=
  [byteAt b 0, byteAt b 1 &&& M_MASK] ++ (if maskBit b then keyBytes b else [])

/-- `REMOVE_PAYLOAD` (R160). -/
def execRemovePayload (s : State) : Out :=
  if !headerResident s.buf then raise s .headerIncomplete
  else if payloadLength s.buf = 0 then answer s nullResponse
  else answer (s.setBuf (unpayloadedFrame s.buf)) (outResponse (plainPayload s.buf))

end Sys2Proof.Machine
end

