-- ==== Sys2Proof/Machine/LayoutEngine.lean ====
section
/-! DEFINITION. The read commands of the header parser (40_layout_engine.md R97-R102). -/

namespace Sys2Proof.Machine

/-- A parser read: the value of a parser function of the buffer, or `HeaderIncomplete` where the predicate its
rule requires is false (R192). -/
def readParser (ready : Bytes → Bool) (f : Bytes → Nat) (s : State) : Out :=
  if !ready s.buf then raise s .headerIncomplete
  else answer s (valResponse (valOfCount (f s.buf)))

/-- `GET_LEN7` (R97). -/
def execGetLen7 (s : State) : Out := readParser have2 len7 s

/-- `GET_EXTW` (R98). -/
def execGetExtw (s : State) : Out := readParser have2 extw s

/-- `GET_KEYOFF` (R99). -/
def execGetKeyoff (s : State) : Out := readParser have2 keyoff s

/-- `GET_PAYOFF` (R100). -/
def execGetPayoff (s : State) : Out := readParser have2 payoff s

/-- `GET_RESIDENT` (R101). -/
def execGetResident (s : State) : Out := readParser headerResident resident s

/-- `GET_PAYLEN` (R102). -/
def execGetPaylen (s : State) : Out := readParser lenFieldResident payloadLength s

end Sys2Proof.Machine
end

