-- ==== Sys2Proof/Machine/Queries.lean ====
section
/-! DEFINITION. The two queries, which never raise (45_queries.md R175, R176; 60_exceptions.md R197). -/

namespace Sys2Proof.Machine

/-- `IS_COMPLETE` (R175). -/
def execIsComplete (s : State) : Out := answer s (valResponse (valOfBool (frameComplete s.buf)))

/-- `IS_VALID` (R176). -/
def execIsValid (s : State) : Out := answer s (valResponse (valOfBool (frameValid s.cfg s.buf)))

end Sys2Proof.Machine
end

