-- ==== Sys2Proof/Machine/Dispatch.lean ====
section
/-! DEFINITION. One arm for each instruction. -/

namespace Sys2Proof.Machine

def exec (i : Instr) (s : State) : Host.Outcome State Fault Refusal :=
  match i with
  | .load data => Sys2Proof.Machine.execLoad data s
  | .build d => Sys2Proof.Machine.execBuild d s
  | .append data => Sys2Proof.Machine.execAppend data s
  | .getFin => Sys2Proof.Machine.execGetFin s
  | .getRsv1 => Sys2Proof.Machine.execGetRsv1 s
  | .getRsv2 => Sys2Proof.Machine.execGetRsv2 s
  | .getRsv3 => Sys2Proof.Machine.execGetRsv3 s
  | .getOpcode => Sys2Proof.Machine.execGetOpcode s
  | .getMask => Sys2Proof.Machine.execGetMask s
  | .getLen7 => Sys2Proof.Machine.execGetLen7 s
  | .getExtw => Sys2Proof.Machine.execGetExtw s
  | .getKeyoff => Sys2Proof.Machine.execGetKeyoff s
  | .getPayoff => Sys2Proof.Machine.execGetPayoff s
  | .getResident => Sys2Proof.Machine.execGetResident s
  | .getPaylen => Sys2Proof.Machine.execGetPaylen s
  | .getKey => Sys2Proof.Machine.execGetKey s
  | .getPayload => Sys2Proof.Machine.execGetPayload s
  | .isComplete => Sys2Proof.Machine.execIsComplete s
  | .isValid => Sys2Proof.Machine.execIsValid s
  | .setFin arg => Sys2Proof.Machine.execSetFin arg s
  | .setRsv1 arg => Sys2Proof.Machine.execSetRsv1 arg s
  | .setRsv2 arg => Sys2Proof.Machine.execSetRsv2 arg s
  | .setRsv3 arg => Sys2Proof.Machine.execSetRsv3 arg s
  | .setOpcode arg => Sys2Proof.Machine.execSetOpcode arg s
  | .setKey key => Sys2Proof.Machine.execSetKey key s
  | .removeKey => Sys2Proof.Machine.execRemoveKey s
  | .setPayload data => Sys2Proof.Machine.execSetPayload data s
  | .removePayload => Sys2Proof.Machine.execRemovePayload s
  | .xform key data => Sys2Proof.Machine.execXform key data s
  | .hdrL7U h lit => Sys2Proof.Machine.execHdrL7U h lit s
  | .hdrL7M h lit => Sys2Proof.Machine.execHdrL7M h lit s
  | .hdrL16U h => Sys2Proof.Machine.execHdrL16U h s
  | .hdrL16M h => Sys2Proof.Machine.execHdrL16M h s
  | .hdrL64U h => Sys2Proof.Machine.execHdrL64U h s
  | .hdrL64M h => Sys2Proof.Machine.execHdrL64M h s

end Sys2Proof.Machine
end

