-- ==== Sys2Proof/Machine/Fetch.lean ====
section
/-! DEFINITION. What the next step runs: the WSFU fetches no instructions, "the host supplies each command"
(10_state.md R22), so fetching takes the packet at the front of the command channel (30_encoding.md R76);
while none is pending, the header parser has the header in `BUF` before it, and its pass reports nothing
(60_exceptions.md R200; log 3). -/

namespace Sys2Proof.Machine

/-- What there is to run. -/
inductive Fetched where
  /-- The reset input is high (R215). -/
  | reset
  /-- An instruction, and the state once its bytes are taken from the channel. -/
  | instr (i : Instr) (s : State)
  /-- A command code outside the table of R72, taken from the channel (R73). -/
  | undefinedCode (s : State)
  /-- The channel ends inside its first packet (R76). -/
  | truncated
  /-- No command is pending and there is no header in `BUF`. -/
  | idle
deriving DecidableEq, Repr

/-- The state once the command channel holds `rest`. -/
def State.withCmdIn (s : State) (rest : Bytes) : State := { s with cmdIn := rest }

/-- The header in `BUF` as an instruction: bytes 0 and 1 select its form (R61), once both are there (R90). -/
def fetchHeader (s : State) : Fetched :=
  match s.buf with
  | b0 :: b1 :: _ => .instr (decodeHeader b0 b1) s
  | _             => .idle

/-- What the next step runs. -/
def fetch (s : State) : Fetched :=
  if s.rst then .reset
  else if s.cmdIn.isEmpty then fetchHeader s
  else
    match decodePacket s.cmdIn with
    | .command i rest     => .instr i (s.withCmdIn rest)
    | .undefinedCode rest => .undefinedCode (s.withCmdIn rest)
    | .truncated          => .truncated

/-- `s` with a table row's word where the next step fetches: a header form in bytes 0 and 1 of `BUF` with no
command pending, a command packet at the front of the command channel. -/
def placeTableWord (s : State) (nbits w : Nat) : State :=
  if nbits = 16 then
    { s with rst := false, cmdIn := [], mem := Memory.ofBytes (tableBytes nbits w ++ s.buf.drop 2) }
  else
    { s with rst := false, cmdIn := packetOf (tableBytes nbits w) ++ s.cmdIn }

end Sys2Proof.Machine
end

