-- ==== Sys2Proof/Machine/Step.lean ====
section
/-! DEFINITION. The step (00_scope.md R9): one command to completion; and reset, "the only way the state
changes other than by a command" (70_reset_and_hazards.md R215). -/

namespace Sys2Proof.Machine

/-- One step. -/
def step (s : State) : Host.Outcome State Fault Refusal :=
  match fetch s with
  | .reset            => .next s.takeReset
  | .instr i t        => exec i t
  | .undefinedCode t  => raise t .illegalCommand
  | .truncated        => .refused .incompletePacket
  | .idle             => .fault .idle

/-- `s` with the instruction of a table row's word stored where `step` fetches its next instruction (log 11,
log 14). -/
def State.withFetchWord (s : State) (nbits w : Nat) : State := placeTableWord s nbits w

end Sys2Proof.Machine
end

