-- ==== Sys2Proof/Safety.lean ====
section
/-! DEFINITION. What holds of every state of a sound unit (`State.Inv`), and the notions claims use: which
commands only read, how a command ends, which command can raise which error (60_exceptions.md R199) and in
which order (R198), when a step stops. -/

namespace Sys2Proof

/-- The commands of R72 whose "Changes BUF" is "no", and the header forms. -/
def Instr.readOnly : Instr → Bool
  | .load _ | .build _ | .append _ | .setFin _ | .setRsv1 _ | .setRsv2 _ | .setRsv3 _ | .setOpcode _
  | .setKey _ | .removeKey | .setPayload _ | .removePayload => false
  | .getFin | .getRsv1 | .getRsv2 | .getRsv3 | .getOpcode | .getMask | .getLen7 | .getExtw | .getKeyoff
  | .getPayoff | .getResident | .getPaylen | .getKey | .getPayload | .isComplete | .isValid | .xform _ _
  | .hdrL7U _ _ | .hdrL7M _ _ | .hdrL16U _ | .hdrL16M _ | .hdrL64U _ | .hdrL64M _ => true

end Sys2Proof

namespace Sys2Proof.Machine

/-! ### The invariant -/

/-- A response the rules allow: an error carries nothing but its code (R76, R195), a null result nothing but
its bit (R9), and `WrongType` is never raised (R188). -/
def Response.wf (r : Response) : Bool :=
  (r.err == .ok || r == errorResponse r.err) && (!r.null || r == nullResponse) && r.err != .wrongType

/-- The header sizes of R61, by extended-length width and mask bit: what the parser makes of a header is one row. -/
def Layout.wf (l : Layout) : Bool :=
  (l.extw == 0 || l.extw == 2 || l.extw == 8) && l.keyoff == 2 + l.extw &&
    l.payoff == l.keyoff + 4 * l.mask.toNat

/-- What stands on the port is legal. -/
def Port.wf : Port → Bool
  | .idle       => true
  | .response r => r.wf

/-- The invariant: the buffer in its canonical form and within `BUFMAX` (R20, R28), the port legal, the
parameters legal (R4). -/
structure State.Inv (s : State) : Prop where
  /-- The offsets are `0 .. LEN-1` (R28). -/
  mem_wf  : s.mem.wf = true
  /-- `0 <= LEN <= BUFMAX` (R20). -/
  fits    : fitsBuffer s.cfg s.len = true
  port_wf : s.port.wf = true
  cfg_wf  : s.cfg.wf = true

/-! ### How an instruction ends -/

/-- `i` completes in `s` with the response `r` and changes nothing else: not a byte of `BUF`, not `LEN`. -/
def Answers (i : Instr) (s : State) (r : Response) : Prop :=
  exec i s = .next { s with port := .response r }

/-- `i` ends in the error `e`: the response is `(e, 0, 0, [])`, and nothing else changes (R195). -/
def Raises (i : Instr) (s : State) (e : ErrorCode) : Prop :=
  Answers i s { err := e, null := false, val := 0, out := [] }

/-- `i` completes in `s` with the response `r`, `BUF` being afterwards exactly the sequence `b`, byte `k` of it
at offset `k` and no other offset present; nothing else changes. -/
def Rewrites (i : Instr) (s : State) (b : Bytes) (r : Response) : Prop :=
  exec i s = .next { s with mem := Memory.ofBytes b, port := .response r }

/-- The outcome is no next state. -/
def Stops : Out → Prop
  | .next _    => False
  | .fault _   => True
  | .refused _ => True

/-! ### The error table -/

/-- Some supplied flag of the descriptor is neither 0 nor 1, or its opcode is above 15. -/
def descriptorOutOfRange (d : Descriptor) : Prop :=
  (∃ v, (d.fin = some v ∨ d.rsv1 = some v ∨ d.rsv2 = some v ∨ d.rsv3 = some v) ∧ 1 < v.toNat) ∨
    ∃ v, d.opcode = some v ∧ 15 < v.toNat

/-- The table of R199: the condition under which a command can raise an error; `False` for a dot. -/
def mayRaise (s : State) : Instr → ErrorCode → Prop
  | .load data, .invalidArgumentShape => data.length < 2
  | .load data, .overflow => fitsBuffer s.cfg data.length = false
  | .append data, .overflow => fitsBuffer s.cfg (s.len + data.length) = false
  | .build d, .outOfRange => descriptorOutOfRange d
  | .build d, .wrongLength => ∃ k, d.maskingKey = some k ∧ k.length ≠ 4
  | .build d, .overflow => fitsBuffer s.cfg (buildFrame d).length = false
  | .build d, .illegalCommand => d.presBit7 = true
  | .getFin, .headerIncomplete | .getRsv1, .headerIncomplete | .getRsv2, .headerIncomplete
  | .getRsv3, .headerIncomplete | .getOpcode, .headerIncomplete | .getMask, .headerIncomplete
  | .getLen7, .headerIncomplete | .getExtw, .headerIncomplete | .getKeyoff, .headerIncomplete
  | .getPayoff, .headerIncomplete => s.len < 2
  | .getPaylen, .headerIncomplete => lenFieldResident s.buf = false
  | .getResident, .headerIncomplete => headerResident s.buf = false
  | .getKey, .headerIncomplete | .removeKey, .headerIncomplete =>
      s.len < 2 ∨ (maskBit s.buf = true ∧ headerResident s.buf = false)
  | .getPayload, .headerIncomplete | .setPayload _, .headerIncomplete
  | .removePayload, .headerIncomplete | .setKey _, .headerIncomplete => headerResident s.buf = false
  | .setFin arg, .outOfRange | .setRsv1 arg, .outOfRange | .setRsv2 arg, .outOfRange
  | .setRsv3 arg, .outOfRange => 1 < arg.toNat
  | .setOpcode arg, .outOfRange => 15 < arg.toNat
  | .setFin _, .headerIncomplete | .setRsv1 _, .headerIncomplete | .setRsv2 _, .headerIncomplete
  | .setRsv3 _, .headerIncomplete | .setOpcode _, .headerIncomplete => s.len < 2
  | .setKey key, .wrongLength | .xform key _, .wrongLength => key.length ≠ 4
  | .setKey _, .overflow => maskBit s.buf = false ∧ fitsBuffer s.cfg (s.len + 4) = false
  | .setPayload data, .overflow => fitsBuffer s.cfg (repayloadedFrame s.buf data).length = false
  | _, _ => False

/-- The order of R198, smaller first: the undefined command, the operand errors (`BUILD`: the flags and the
opcode, then the key), the state precondition, the capacity. -/
def errorRank : ErrorCode → Nat
  | .illegalCommand       => 1
  | .invalidArgumentShape => 2
  | .outOfRange           => 2
  | .wrongType            => 2
  | .wrongLength          => 3
  | .headerIncomplete     => 4
  | .overflow             => 5
  | .ok                   => 6

end Sys2Proof.Machine
end

