-- ==== Sys2Proof/Certificates/Slice0/Obligations.lean ====
section
/-! DEFINITION. The statements for the provers, from the numbered rules of spec/. `Answers i s r`, `Raises i s e`
and `Rewrites i s b r` (Sys2Proof/Safety.lean) each say that `exec i s` answers the one next state with that
response, so each gives the result, the whole frame and the completion. -/

open Sys2Proof Sys2Proof.Machine

/-! ### Reset and start-up -/

/-- R34: after reset the buffer is empty, and in any state with fewer than two bytes every accessor raises
`HeaderIncomplete` (the setters and `SET_KEY` on operands they accept). -/
def Obligations.ResetLeavesNoFrame : Prop :=
  State.reset.buf = [] ∧ State.reset.len = 0 ∧
  ∀ (s : State) (arg : Byte) (key data : Bytes), s.len < 2 → arg.toNat ≤ 1 → key.length = 4 →
    ∀ i ∈ [Instr.getFin, .getRsv1, .getRsv2, .getRsv3, .getOpcode, .getMask, .getLen7, .getExtw, .getKeyoff,
      .getPayoff, .getResident, .getPaylen, .getKey, .getPayload, .setFin arg, .setRsv1 arg, .setRsv2 arg,
      .setRsv3 arg, .setOpcode arg, .setKey key, .removeKey, .setPayload data, .removePayload],
      Raises i s .headerIncomplete

/-- Reset as an event (70_reset_and_hazards.md section 1). That it takes one step, drops every byte issued before
it and leaves the input low is the model's choice (log 8). -/
def Obligations.ResetInputEmptiesTheUnit : Prop :=
  ∀ s : State, s.rst = true → ∃ t, step s = .next t ∧ t.buf = [] ∧ t.len = 0 ∧ t.cmdIn = [] ∧
    t.port = .idle ∧ t.rst = false ∧ t.cfg = s.cfg ∧
    Answers .isComplete t { err := .ok, null := false, val := 0, out := [] } ∧
    Answers .isValid t { err := .ok, null := false, val := 0, out := [] }

/-! ### Encodings -/

/-- Decoding the packet of a well-formed command gives it back, with every operand, and leaves the bytes after
it. -/
def Obligations.EncodedCommandDecodes : Prop :=
  ∀ (i : Instr) (rest : Bytes), i.wf = true → i.isHeader = false →
    decodePacket (encode i ++ rest) = .command i rest

/-- Decoding bytes 0 and 1 of a well-formed header form gives it back, with every field. -/
def Obligations.EncodedHeaderDecodes : Prop :=
  ∀ i : Instr, i.wf = true → i.isHeader = true →
    ∃ b0 b1, encode i = [b0, b1] ∧ decodeHeader b0 b1 = i

/-- Every pair of header bytes decodes to a well-formed header form whose encoding is that pair. -/
def Obligations.EveryHeaderDecodesAndReencodes : Prop :=
  ∀ b0 b1 : Byte, (decodeHeader b0 b1).wf = true ∧ (decodeHeader b0 b1).isHeader = true ∧
    encode (decodeHeader b0 b1) = [b0, b1]

/-- What decodes as a command is its packet: no bit is dropped, and the command is well-formed. -/
def Obligations.DecodedPacketReencodes : Prop :=
  ∀ (bs rest : Bytes) (i : Instr), decodePacket bs = .command i rest →
    i.wf = true ∧ i.isHeader = false ∧ bs = encode i ++ rest

/-- R73: a command code outside the table raises `IllegalCommand`, changes nothing and consumes no operands. -/
def Obligations.UndefinedCodeRaisesIllegalCommand : Prop :=
  ∀ (s : State) (c : Byte) (rest : Bytes), s.rst = false → s.cmdIn = c :: rest →
    (c.toNat = 0 ∨ (4 ≤ c.toNat ∧ c.toNat ≤ 15) ∨ (41 ≤ c.toNat ∧ c.toNat ≤ 47) ∨ 49 ≤ c.toNat) →
    step s = .next { s with cmdIn := rest,
                            port := .response { err := .illegalCommand, null := false, val := 0, out := [] } }

/-- R61: the header form is selected by byte 1 alone, by the six tests on `W`, and fixes the width of the extended
length, where the key would start and the header size `H`. -/
def Obligations.HeaderFormIsSelectedByByteOne : Prop :=
  ∀ (b0 b1 : Byte) (rest : Bytes),
    let w : BitVec 16 := b0 ++ b1
    let h := decodeByte0 b0
    let lit := b1.extractLsb' 0 7
    let special := w &&& 0x00FF = 0x007E ∨ w &&& 0x00FF = 0x00FE ∨ w &&& 0x00FF = 0x007F ∨ w &&& 0x00FF = 0x00FF
    let form (i : Instr) (extWidth keyAt size : Nat) : Prop :=
      decodeHeader b0 b1 = i ∧ extw (b0 :: b1 :: rest) = extWidth ∧ keyoff (b0 :: b1 :: rest) = keyAt ∧
        payoff (b0 :: b1 :: rest) = size
    (w &&& 0x00FF = 0x007E → form (.hdrL16U h) 2 4 4) ∧
    (w &&& 0x00FF = 0x00FE → form (.hdrL16M h) 2 4 8) ∧
    (w &&& 0x00FF = 0x007F → form (.hdrL64U h) 8 10 10) ∧
    (w &&& 0x00FF = 0x00FF → form (.hdrL64M h) 8 10 14) ∧
    (w &&& 0x0080 = 0 → ¬ special → form (.hdrL7U h lit) 0 2 2 ∧ lit.toNat ≤ 125) ∧
    (w &&& 0x0080 = 0x0080 → ¬ special → form (.hdrL7M h lit) 0 2 6 ∧ lit.toNat ≤ 125)

/-- A sanity check on words written out from the spec's encodings (30_encoding.md R72, R76; 95_test_vectors.md
2.10): one command of each family, with operands, and two header forms. -/
def Obligations.WrittenOutWordsDecode : Prop :=
  decodePacket [0x01#8, 0, 0, 0, 0, 0, 0, 0, 5, 0x81, 3, 0x61, 0x62, 0x63] =
    .command (.load [0x81#8, 3, 0x61, 0x62, 0x63]) [] ∧
  decodePacket [0x02#8, 0x10, 0x10] =
    .command (.build ⟨false, none, none, none, none, some 0x10#8, none, none⟩) [] ∧
  decodePacket [0x24#8, 0x09, 0x1B] = .command (.setOpcode 9#8) [0x1B#8] ∧
  decodePacket [0x25#8, 0x04, 0x37, 0xFA, 0x21, 0x3D] = .command (.setKey [0x37#8, 0xFA, 0x21, 0x3D]) [] ∧
  decodePacket [0x30#8, 0x01, 0x37, 0, 0, 0, 0, 0, 0, 0, 1, 0x48] = .command (.xform [0x37#8] [0x48#8]) [] ∧
  decodePacket [0x1B#8] = .command .getPaylen [] ∧ decodePacket [0x1E#8] = .command .isComplete [] ∧
  decodeHeader 0x81 0x85 = .hdrL7M ⟨1, 0, 0, 0, 1⟩ 5 ∧ decodeHeader 0x02 0x7F = .hdrL64U ⟨0, 0, 0, 0, 2⟩

/-! ### The step -/

/-- A step runs the decoded command: the packet's bytes are taken from the channel and `exec` runs it. -/
def Obligations.StepRunsTheDecodedCommand : Prop :=
  ∀ (s : State) (i : Instr) (rest : Bytes), s.rst = false → decodePacket s.cmdIn = .command i rest →
    step s = exec i { s with cmdIn := rest }

/-- With no command pending a step runs the header form of bytes 0 and 1 of `BUF` (the model's choice, log 3). -/
def Obligations.StepParsesTheHeaderInTheBuffer : Prop :=
  ∀ (s : State) (b0 b1 : Byte) (rest : Bytes), s.rst = false → s.cmdIn = [] → s.buf = b0 :: b1 :: rest →
    step s = exec (decodeHeader b0 b1) s

/-- A step stops exactly when there is nothing whole to run: no reset, and either a packet that ends before its
operands are complete (R76) or no packet and no header. No instruction ends in a stop. What a step does with no
command pending is the model's choice in both halves (log 3): that it stops below two bytes in `BUF`, and that it
does not stop with a header there. -/
def Obligations.StepStopsOnlyWithNothingToRun : Prop :=
  (∀ (i : Instr) (s : State), ∃ t, exec i s = .next t) ∧
  ∀ s : State, Stops (step s) ↔
    s.rst = false ∧ ((s.cmdIn = [] ∧ s.len < 2) ∨ (s.cmdIn ≠ [] ∧ decodePacket s.cmdIn = .truncated))

/-- Every step keeps the invariant: `BUF` canonical and within `BUFMAX`, the port legal, the parameters legal. -/
def Obligations.StepKeepsInvariant : Prop :=
  ∀ s t : State, s.Inv → step s = .next t → t.Inv

/-- The invariant holds at reset. -/
def Obligations.ResetMeetsInvariant : Prop := State.reset.Inv

/-- R46: no read command changes `BUF` (nor anything else but the port), and it returns the same response however
often it is issued, whatever the reads between put out. -/
def Obligations.ReadsChangeNothing : Prop :=
  ∀ (i : Instr) (s : State), i.readOnly = true → i.isHeader = false →
    ∃ r, ∀ p, exec i { s with port := p } = .next { s with port := .response r }

/-- R200: everything the unit reports stands in the response to the command that caused it. A step that takes no
command changes nothing and puts nothing out; what a step puts out is the response to the one command, or undefined
code, it took; and each of these does respond. -/
def Obligations.ReportsStandInResponsesAlone : Prop :=
  (∀ s t : State, s.rst = false → s.cmdIn = [] → step s = .next t → t = { s with port := .idle }) ∧
  (∀ (s t : State) (r : Response), step s = .next t → t.port = .response r →
    s.rst = false ∧
      ((∃ i, decodePacket s.cmdIn = .command i t.cmdIn) ∨ decodePacket s.cmdIn = .undefinedCode t.cmdIn)) ∧
  (∀ (s : State) (i : Instr) (rest : Bytes), s.rst = false → decodePacket s.cmdIn = .command i rest →
    ∃ t r, step s = .next t ∧ t.port = .response r) ∧
  ∀ (s : State) (rest : Bytes), s.rst = false → decodePacket s.cmdIn = .undefinedCode rest →
    ∃ t r, step s = .next t ∧ t.port = .response r

/-- R195: whatever instruction ends in whatever error, the state is unchanged and the response carries the code
alone; so too for a step, undefined codes included, but for the command bytes it took. -/
def Obligations.ErrorsLeaveTheStateUnchanged : Prop :=
  (∀ (i : Instr) (s t : State) (r : Response), exec i s = .next t → t.port = .response r → r.err ≠ .ok →
    Raises i s r.err) ∧
  ∀ (s t : State) (r : Response), step s = .next t → t.port = .response r → r.err ≠ .ok →
    t = { s with cmdIn := t.cmdIn, port := .response { err := r.err, null := false, val := 0, out := [] } }

/-- R188: no command raises `WrongType`. -/
def Obligations.WrongTypeIsNeverRaised : Prop :=
  ∀ (s t : State) (r : Response), step s = .next t → t.port = .response r → r.err ≠ .wrongType

/-- No step depends on what the last one put out: there is no error latch and no record of the last command. -/
def Obligations.NoStepReadsThePort : Prop :=
  (∀ (i : Instr) (s : State) (p : Port), exec i { s with port := p } = exec i s) ∧
  ∀ (s : State) (p : Port), step { s with port := p } = step s

/-- No instruction changes the command channel, the reset input or the parameters. -/
def Obligations.InstructionsTouchOnlyBufferAndPort : Prop :=
  ∀ (i : Instr) (s t : State), exec i s = .next t →
    t.cmdIn = s.cmdIn ∧ t.rst = s.rst ∧ t.cfg = s.cfg

/-- R199: a command raises only errors its row of the table allows, and does end in an error where some entry of
its row applies; an undefined code always raises `IllegalCommand`. -/
def Obligations.ErrorsAreThoseOfTheTable : Prop :=
  (∀ (i : Instr) (s t : State) (r : Response), i.isHeader = false → exec i s = .next t →
    t.port = .response r →
      (r.err ≠ .ok → mayRaise s i r.err) ∧ (∀ e, mayRaise s i e → r.err ≠ .ok)) ∧
  ∀ (s : State) (rest : Bytes), s.rst = false → decodePacket s.cmdIn = .undefinedCode rest →
    ∃ t r, step s = .next t ∧ t.port = .response r ∧ r.err = .illegalCommand

/-- R198: when several errors could apply, the command reports one of them, the first in the order. -/
def Obligations.FirstErrorInOrderWins : Prop :=
  ∀ (i : Instr) (s t : State) (r : Response) (e : ErrorCode), i.isHeader = false → exec i s = .next t →
    t.port = .response r → mayRaise s i e → mayRaise s i r.err ∧ errorRank r.err ≤ errorRank e

/-! ### The header parser -/

/-- R97-R100 with R91-R94: the four reads of byte 1, in every state. -/
def Obligations.ParserReadsOfByteOne : Prop :=
  (∀ rest, decodePacket (0x16#8 :: rest) = .command .getLen7 rest ∧
    decodePacket (0x17#8 :: rest) = .command .getExtw rest ∧
    decodePacket (0x18#8 :: rest) = .command .getKeyoff rest ∧
    decodePacket (0x19#8 :: rest) = .command .getPayoff rest) ∧
  ∀ s : State,
    (s.len < 2 → ∀ i ∈ [Instr.getLen7, .getExtw, .getKeyoff, .getPayoff], Raises i s .headerIncomplete) ∧
    ∀ (b0 b1 : Byte) (rest : Bytes), s.buf = b0 :: b1 :: rest →
      let l := (b1 &&& 0x7F#8).toNat
      let e := if l ≤ 125 then 0 else if l = 126 then 2 else 8
      let ko := 2 + e
      let po := if b1 >>> 7 = 1#8 then ko + 4 else ko
      Answers .getLen7 s { err := .ok, null := false, val := BitVec.ofNat 64 l, out := [] } ∧
      Answers .getExtw s { err := .ok, null := false, val := BitVec.ofNat 64 e, out := [] } ∧
      Answers .getKeyoff s { err := .ok, null := false, val := BitVec.ofNat 64 ko, out := [] } ∧
      Answers .getPayoff s { err := .ok, null := false, val := BitVec.ofNat 64 po, out := [] }

/-- R101: `GET_RESIDENT`, wherever `zext_64` of the count is defined (R8). -/
def Obligations.ResidentCountIsRead : Prop :=
  (∀ rest, decodePacket (0x1A#8 :: rest) = .command .getResident rest) ∧
  ∀ s : State,
    ((s.len < 2 ∨ s.len < payoff s.buf) → Raises .getResident s .headerIncomplete) ∧
    (2 ≤ s.len → payoff s.buf ≤ s.len → s.len - payoff s.buf < 2 ^ 64 →
      Answers .getResident s
        { err := .ok, null := false, val := BitVec.ofNat 64 (s.len - payoff s.buf), out := [] })

/-- A count of 2^64 or more, for which the spec gives `val` no value: `GET_RESIDENT` completes all the same, with
some `val` (the model's choice, log 10). -/
def Obligations.WideResidentCountCompletes : Prop :=
  ∀ s : State, 2 ≤ s.len → payoff s.buf + 2 ^ 64 ≤ s.len →
    ∃ v, Answers .getResident s { err := .ok, null := false, val := v, out := [] }

/-- R102 with R96: `GET_PAYLEN` by length form, each byte of the extended length at its place. -/
def Obligations.DeclaredLengthIsRead : Prop :=
  (∀ rest, decodePacket (0x1B#8 :: rest) = .command .getPaylen rest) ∧
  ∀ s : State,
    ((s.len < 2 ∨ s.len < 2 + extw s.buf) → Raises .getPaylen s .headerIncomplete) ∧
    (∀ b0 b1 rest, s.buf = b0 :: b1 :: rest → (b1 &&& 0x7F#8).toNat ≤ 125 →
      Answers .getPaylen s { err := .ok, null := false, val := (b1 &&& 0x7F#8).setWidth 64, out := [] }) ∧
    (∀ b0 b1 x y rest, s.buf = b0 :: b1 :: x :: y :: rest → b1 &&& 0x7F#8 = 126#8 →
      Answers .getPaylen s { err := .ok, null := false, val := (x ++ y).setWidth 64, out := [] }) ∧
    (∀ b0 b1 a b c d e f g h rest, s.buf = b0 :: b1 :: a :: b :: c :: d :: e :: f :: g :: h :: rest →
      b1 &&& 0x7F#8 = 127#8 →
      Answers .getPaylen s
        { err := .ok, null := false, val := a ++ b ++ c ++ d ++ e ++ f ++ g ++ h, out := [] })

/-- The six header forms complete in every state and change and report nothing; the parser's outputs by each are
its row of R61, the declared length and the resident count as far as they have arrived. That running a form is a
step, and what a form gives below two bytes, are the model's choices (log 3, log 4). -/
def Obligations.HeaderFormsGiveTheLayout : Prop :=
  ∀ (s : State) (h : HdrByte0) (lit : BitVec 7),
    let res (size : Nat) : Option Nat := if size ≤ s.len then some (s.len - size) else none
    let ext (w : Nat) : Option Nat := if 2 + w ≤ s.len then some (memRead s.buf 2 w) else none
    let gives (i : Instr) (l : Layout) : Prop :=
      exec i s = .next { s with port := .idle } ∧ headerLayout i s.buf = some l
    gives (.hdrL7U h lit) ⟨h, 0, lit, 0, 2, 2, some lit.toNat, res 2⟩ ∧
    gives (.hdrL7M h lit) ⟨h, 1, lit, 0, 2, 6, some lit.toNat, res 6⟩ ∧
    gives (.hdrL16U h) ⟨h, 0, 126, 2, 4, 4, ext 2, res 4⟩ ∧
    gives (.hdrL16M h) ⟨h, 1, 126, 2, 4, 8, ext 2, res 8⟩ ∧
    gives (.hdrL64U h) ⟨h, 0, 127, 8, 10, 10, ext 8, res 10⟩ ∧
    gives (.hdrL64M h) ⟨h, 1, 127, 8, 10, 14, ext 8, res 14⟩

/-- The two descriptions of the parser agree: its outputs for the header in the buffer, by its form (R61), are
what the parser functions of the buffer (R91-R96) say; below two bytes there are none (R90). -/
def Obligations.HeaderFormsAgreeWithTheParserFunctions : Prop :=
  ∀ b : Bytes, (b.length < 2 → parserOutputs b = none) ∧
    (2 ≤ b.length → ∃ l : Layout, parserOutputs b = some l ∧ l.wf = true ∧
      encodeByte0 l.byte0 = byteAt b 0 ∧ encodeByte1 l.mask l.len7 = byteAt b 1 ∧
      l.len7.toNat = len7 b ∧ l.extw = extw b ∧ l.keyoff = keyoff b ∧
      l.payoff = payoff b ∧ (l.mask = 1#1 ↔ maskBit b = true) ∧
      l.paylen = (if lenFieldResident b then some (payloadLength b) else none) ∧
      l.resident = (if headerResident b then some (resident b) else none))

/-- What the parser makes of the header in `BUF` is what the read commands answer, each its own output; an output
that has not arrived is `HeaderIncomplete`. -/
def Obligations.CommandsReportTheParsersOutputs : Prop :=
  ∀ (s : State) (l : Layout), parserOutputs s.buf = some l →
    let tells (i : Instr) (v : Val) : Prop := Answers i s { err := .ok, null := false, val := v, out := [] }
    tells .getFin (l.byte0.fin.setWidth 64) ∧ tells .getRsv1 (l.byte0.rsv1.setWidth 64) ∧
    tells .getRsv2 (l.byte0.rsv2.setWidth 64) ∧ tells .getRsv3 (l.byte0.rsv3.setWidth 64) ∧
    tells .getOpcode (l.byte0.opcode.setWidth 64) ∧ tells .getMask (l.mask.setWidth 64) ∧
    tells .getLen7 (l.len7.setWidth 64) ∧ tells .getExtw (BitVec.ofNat 64 l.extw) ∧
    tells .getKeyoff (BitVec.ofNat 64 l.keyoff) ∧ tells .getPayoff (BitVec.ofNat 64 l.payoff) ∧
    (∀ n, l.paylen = some n → tells .getPaylen (BitVec.ofNat 64 n)) ∧
    (l.paylen = none → Raises .getPaylen s .headerIncomplete) ∧
    (∀ n, l.resident = some n → n < 2 ^ 64 → tells .getResident (BitVec.ofNat 64 n)) ∧
    (l.resident = none → Raises .getResident s .headerIncomplete)

/-! ### The cipher -/

/-- R110: `transform(s, k)` has the length of `s`, and its byte `i` is `s[i] XOR k[i mod 4]`. -/
def Obligations.TransformXorsByPosition : Prop :=
  ∀ s k : Bytes, k.length = 4 → (transform s k).length = s.length ∧
    ∀ (i : Nat) (x y : Byte), s[i]? = some x → k[i % 4]? = some y → (transform s k)[i]? = some (x ^^^ y)

/-- R111: masking is an involution. -/
def Obligations.MaskingIsAnInvolution : Prop :=
  ∀ s k : Bytes, k.length = 4 → transform (transform s k) k = s

/-- R113 (a)-(e): length, the empty sequence, the zero key, composition of keys, splitting under a rotated key. -/
def Obligations.TransformLaws : Prop :=
  ∀ s k k' : Bytes, k.length = 4 → k'.length = 4 →
    (transform s k).length = s.length ∧
    transform [] k = [] ∧
    transform s [0, 0, 0, 0] = s ∧
    transform (transform s k) k' = transform s (List.zipWith (· ^^^ ·) k k') ∧
    ∀ a, a ≤ s.length →
      transform s k = transform (s.take a) k ++ transform (s.drop a) (k.rotate (a % 4))

/-- R114: `XFORM` in any state. -/
def Obligations.XformTransformsItsData : Prop :=
  (∀ rest, decodePacket (0x30#8 :: rest) = withOperands (fun kd => .xform kd.1 kd.2) (takeKeyData rest)) ∧
  ∀ (s : State) (key data : Bytes),
    (key.length ≠ 4 → Raises (.xform key data) s .wrongLength) ∧
    (key.length = 4 →
      Answers (.xform key data) s { err := .ok, null := false, val := 0, out := transform data key })

/-! ### Construction -/

/-- R120: `LOAD`. -/
def Obligations.LoadAdoptsItsBytes : Prop :=
  (∀ rest, decodePacket (0x01#8 :: rest) = withOperands .load (takeData rest)) ∧
  ∀ (s : State) (data : Bytes),
    (data.length < 2 → Raises (.load data) s .invalidArgumentShape) ∧
    (∀ m, 2 ≤ data.length → s.cfg.bufMax = some m → m < data.length → Raises (.load data) s .overflow) ∧
    (2 ≤ data.length → (∀ m, s.cfg.bufMax = some m → data.length ≤ m) →
      Rewrites (.load data) s data { err := .ok, null := false, val := 0, out := [] })

/-- R121: `APPEND`, with what appending keeps: once the length field is resident the declared length, once the
header is resident the payload offset and the key; the resident count grows by `DLEN`. -/
def Obligations.AppendExtendsTheBuffer : Prop :=
  (∀ rest, decodePacket (0x03#8 :: rest) = withOperands .append (takeData rest)) ∧
  ∀ (s : State) (data : Bytes),
    (∀ m, s.cfg.bufMax = some m → m < s.len + data.length → Raises (.append data) s .overflow) ∧
    ((∀ m, s.cfg.bufMax = some m → s.len + data.length ≤ m) →
      Rewrites (.append data) s (s.buf ++ data) { err := .ok, null := false, val := 0, out := [] }) ∧
    (lenFieldResident s.buf = true → lenFieldResident (s.buf ++ data) = true ∧
      payloadLength (s.buf ++ data) = payloadLength s.buf) ∧
    (headerResident s.buf = true → headerResident (s.buf ++ data) = true ∧
      payoff (s.buf ++ data) = payoff s.buf ∧
      (maskBit s.buf = true → keyBytes (s.buf ++ data) = keyBytes s.buf) ∧
      resident (s.buf ++ data) = resident s.buf + data.length)

/-- R122: `BUILD`: `PRES` bit 7, then the flags and the opcode, then the key length, then the frame and its size. -/
def Obligations.BuildWritesTheFrame : Prop :=
  (∀ rest, decodePacket (0x02#8 :: rest) = withOperands .build (takeDescriptor rest)) ∧
  ∀ (s : State) (d : Descriptor),
    (d.presBit7 = true → Raises (.build d) s .illegalCommand) ∧
    (d.presBit7 = false → descriptorOutOfRange d → Raises (.build d) s .outOfRange) ∧
    (d.presBit7 = false → ¬ descriptorOutOfRange d → (∃ k, d.maskingKey = some k ∧ k.length ≠ 4) →
      Raises (.build d) s .wrongLength) ∧
    (d.presBit7 = false → ¬ descriptorOutOfRange d → (∀ k, d.maskingKey = some k → k.length = 4) →
      let v (x : Option Byte) : Byte := x.getD 0
      let b0 := (v d.fin <<< 7) ||| (v d.rsv1 <<< 6) ||| (v d.rsv2 <<< 5) ||| (v d.rsv3 <<< 4) ||| v d.opcode
      let p := d.payload.getD []
      let l := encodeLength p.length
      let new := match d.maskingKey with
        | none   => [b0, l.1] ++ l.2 ++ p
        | some k => [b0, 0x80#8 ||| l.1] ++ l.2 ++ k ++ transform p k
      (∀ m, s.cfg.bufMax = some m → m < new.length → Raises (.build d) s .overflow) ∧
      ((∀ m, s.cfg.bufMax = some m → new.length ≤ m) →
        Rewrites (.build d) s new { err := .ok, null := false, val := 0, out := [] }))

/-- R123: what a successful `BUILD` guarantees. -/
def Obligations.BuiltFrameIsCompleteAndMinimal : Prop :=
  ∀ (s t : State) (d : Descriptor) (r : Response), (d.payload.getD []).length < 2 ^ 64 →
    exec (.build d) s = .next t → t.port = .response r → r.err = .ok →
    let p := d.payload.getD []
    headerResident t.buf = true ∧ payloadLength t.buf = p.length ∧ resident t.buf = p.length ∧
    Answers .isComplete t { err := .ok, null := false, val := 1, out := [] } ∧
    (t.cfg.rejects = [] → Answers .isValid t { err := .ok, null := false, val := 1, out := [] }) ∧
    Answers .getFin t { err := .ok, null := false, val := (d.fin.getD 0).setWidth 64, out := [] } ∧
    Answers .getRsv1 t { err := .ok, null := false, val := (d.rsv1.getD 0).setWidth 64, out := [] } ∧
    Answers .getRsv2 t { err := .ok, null := false, val := (d.rsv2.getD 0).setWidth 64, out := [] } ∧
    Answers .getRsv3 t { err := .ok, null := false, val := (d.rsv3.getD 0).setWidth 64, out := [] } ∧
    Answers .getOpcode t { err := .ok, null := false, val := (d.opcode.getD 0).setWidth 64, out := [] } ∧
    Answers .getMask t
      { err := .ok, null := false, val := if d.maskingKey.isSome then 1 else 0, out := [] } ∧
    (d.maskingKey = none → Answers .getKey t { err := .ok, null := true, val := 0, out := [] }) ∧
    (∀ k, d.maskingKey = some k → Answers .getKey t { err := .ok, null := false, val := 0, out := k }) ∧
    extw t.buf = (if p.length ≤ 125 then 0 else if p.length ≤ 65535 then 2 else 8)

/-- R124: the payload read back from a built frame is the descriptor's, with a key or without; an empty or
absent one reads back as null. -/
def Obligations.BuiltPayloadReadsBack : Prop :=
  ∀ (s t : State) (d : Descriptor) (r : Response), (d.payload.getD []).length < 2 ^ 64 →
    exec (.build d) s = .next t → t.port = .response r → r.err = .ok →
    (d.payload.getD [] = [] → Answers .getPayload t { err := .ok, null := true, val := 0, out := [] }) ∧
    (∀ p, d.payload = some p → p ≠ [] →
      Answers .getPayload t { err := .ok, null := false, val := 0, out := p })

/-- R70: `EncodeLength`, by magnitude, and that decoding its result gives the length back. -/
def Obligations.EncodeLengthIsMinimalAndDecodes : Prop :=
  (∀ n, n ≤ 125 → encodeLength n = (BitVec.ofNat 8 n, [])) ∧
  (∀ n, 126 ≤ n → n ≤ 65535 → encodeLength n = (126#8, be 2 n)) ∧
  (∀ n, 65536 ≤ n → n < 2 ^ 64 → encodeLength n = (127#8, be 8 n)) ∧
  ∀ (n : Nat) (b0 m : Byte) (rest : Bytes), n < 2 ^ 64 → (m = 0x00#8 ∨ m = 0x80#8) →
    let b := b0 :: (m ||| (encodeLength n).1) :: ((encodeLength n).2 ++ rest)
    lenFieldResident b = true ∧ payloadLength b = n ∧ extw b = (encodeLength n).2.length

/-! ### The field accessors -/

/-- R136-R141: the six field getters, in every state. -/
def Obligations.FieldGettersReadTheirBits : Prop :=
  (∀ rest, decodePacket (0x10#8 :: rest) = .command .getFin rest ∧
    decodePacket (0x11#8 :: rest) = .command .getRsv1 rest ∧
    decodePacket (0x12#8 :: rest) = .command .getRsv2 rest ∧
    decodePacket (0x13#8 :: rest) = .command .getRsv3 rest ∧
    decodePacket (0x14#8 :: rest) = .command .getOpcode rest ∧
    decodePacket (0x15#8 :: rest) = .command .getMask rest) ∧
  ∀ s : State,
    (s.len < 2 → ∀ i ∈ [Instr.getFin, .getRsv1, .getRsv2, .getRsv3, .getOpcode, .getMask],
      Raises i s .headerIncomplete) ∧
    ∀ b0 b1 rest, s.buf = b0 :: b1 :: rest →
      let val (i : Instr) (v : Byte) : Prop :=
        Answers i s { err := .ok, null := false, val := v.setWidth 64, out := [] }
      val .getFin (b0 >>> 7) ∧ val .getRsv1 ((b0 >>> 6) &&& 1) ∧ val .getRsv2 ((b0 >>> 5) &&& 1) ∧
      val .getRsv3 ((b0 >>> 4) &&& 1) ∧ val .getOpcode (b0 &&& 0x0F) ∧ val .getMask (b1 >>> 7)

/-- R142-R146: the five setters, in every state whose buffer is in canonical form: the operand check, then the
header check, then the named bits of byte 0 alone rewritten. -/
def Obligations.FieldSettersRewriteTheirBits : Prop :=
  (∀ arg rest, decodePacket (0x20#8 :: arg :: rest) = .command (.setFin arg) rest ∧
    decodePacket (0x21#8 :: arg :: rest) = .command (.setRsv1 arg) rest ∧
    decodePacket (0x22#8 :: arg :: rest) = .command (.setRsv2 arg) rest ∧
    decodePacket (0x23#8 :: arg :: rest) = .command (.setRsv3 arg) rest ∧
    decodePacket (0x24#8 :: arg :: rest) = .command (.setOpcode arg) rest) ∧
  ∀ (s : State) (arg : Byte),
    (1 < arg.toNat → ∀ i ∈ [Instr.setFin arg, .setRsv1 arg, .setRsv2 arg, .setRsv3 arg],
      Raises i s .outOfRange) ∧
    (15 < arg.toNat → Raises (.setOpcode arg) s .outOfRange) ∧
    (s.len < 2 → arg.toNat ≤ 1 → ∀ i ∈ [Instr.setFin arg, .setRsv1 arg, .setRsv2 arg, .setRsv3 arg],
      Raises i s .headerIncomplete) ∧
    (s.len < 2 → arg.toNat ≤ 15 → Raises (.setOpcode arg) s .headerIncomplete) ∧
    ∀ b0 b1 rest, s.mem.wf = true → s.buf = b0 :: b1 :: rest →
      let sets (i : Instr) (v : Byte) : Prop :=
        Rewrites i s (v :: b1 :: rest) { err := .ok, null := false, val := 0, out := [] }
      (arg.toNat ≤ 1 →
        sets (.setFin arg) ((b0 &&& 0x7F) ||| (arg <<< 7)) ∧
        sets (.setRsv1 arg) ((b0 &&& 0xBF) ||| (arg <<< 6)) ∧
        sets (.setRsv2 arg) ((b0 &&& 0xDF) ||| (arg <<< 5)) ∧
        sets (.setRsv3 arg) ((b0 &&& 0xEF) ||| (arg <<< 4))) ∧
      (arg.toNat ≤ 15 → sets (.setOpcode arg) ((b0 &&& 0xF0) ||| arg))

/-- The setters' frame: they store to offset 0 alone, and change neither `LEN` nor any parser function's value
(R135); so they do not change completeness, nor validity under the default strictness (R180). -/
def Obligations.FieldSettersTouchByteZeroOnly : Prop :=
  ∀ (s t : State) (arg : Byte), s.mem.wf = true →
    ∀ i ∈ [Instr.setFin arg, .setRsv1 arg, .setRsv2 arg, .setRsv3 arg, .setOpcode arg],
      exec i s = .next t →
      t.len = s.len ∧ (∀ a, a ≠ 0 → t.mem.read a = s.mem.read a) ∧
      len7 t.buf = len7 s.buf ∧ extw t.buf = extw s.buf ∧ keyoff t.buf = keyoff s.buf ∧
      payoff t.buf = payoff s.buf ∧ maskBit t.buf = maskBit s.buf ∧ resident t.buf = resident s.buf ∧
      payloadLength t.buf = payloadLength s.buf ∧ frameComplete t.buf = frameComplete s.buf ∧
      (s.cfg.rejects = [] → frameValid t.cfg t.buf = frameValid s.cfg s.buf)

/-- A field just set reads back, and the four other fields of byte 0 and the mask read as before. -/
def Obligations.SetFieldReadsBack : Prop :=
  ∀ (s : State) (arg : Byte), s.mem.wf = true → 2 ≤ s.len →
    let getters := [Instr.getFin, .getRsv1, .getRsv2, .getRsv3, .getOpcode, .getMask]
    ∀ p ∈ [(Instr.setFin arg, Instr.getFin), (.setRsv1 arg, .getRsv1), (.setRsv2 arg, .getRsv2),
        (.setRsv3 arg, .getRsv3), (.setOpcode arg, .getOpcode)],
      (if p.2 = .getOpcode then arg.toNat ≤ 15 else arg.toNat ≤ 1) →
      ∃ t, exec p.1 s = .next t ∧
        Answers p.2 t { err := .ok, null := false, val := arg.setWidth 64, out := [] } ∧
        ∀ g ∈ getters, g ≠ p.2 → ∀ r, Answers g s r → Answers g t r

/-- R53: the read and write primitives. -/
def Obligations.ReadAfterWriteOfTheBuffer : Prop :=
  ∀ (s : State) (off n v : Nat), s.mem.wf = true → off + n ≤ s.len → v < 2 ^ (8 * n) →
    let t := s.memWrite off n v
    t.mem.wf = true ∧ t.len = s.len ∧ memRead t.buf off n = v ∧
    t.buf = s.buf.take off ++ be n v ++ s.buf.drop (off + n) ∧
    ∀ a, a < off ∨ off + n ≤ a → t.mem.read a = s.mem.read a

/-! ### Key and payload -/

/-- R155: `GET_KEY`, in every state. -/
def Obligations.KeyIsReadOrNull : Prop :=
  (∀ rest, decodePacket (0x1C#8 :: rest) = .command .getKey rest) ∧
  ∀ s : State,
    ((s.len < 2 ∨ (maskBit s.buf = true ∧ s.len < keyoff s.buf + 4)) → Raises .getKey s .headerIncomplete) ∧
    (2 ≤ s.len → maskBit s.buf = false →
      Answers .getKey s { err := .ok, null := true, val := 0, out := [] }) ∧
    (∀ front key rest, 2 ≤ s.len → maskBit s.buf = true → s.buf = front ++ key ++ rest →
      front.length = keyoff s.buf → key.length = 4 →
      Answers .getKey s { err := .ok, null := false, val := 0, out := key })

/-- R156: `SET_KEY`, in every state: a key in place is replaced and the payload re-masked; with no key one is
inserted before the payload, which is masked as the mask bit is set. -/
def Obligations.SetKeyRemasksThePayload : Prop :=
  (∀ rest, decodePacket (0x25#8 :: rest) = withOperands .setKey (takeKey rest)) ∧
  ∀ (s : State) (key : Bytes),
    (key.length ≠ 4 → Raises (.setKey key) s .wrongLength) ∧
    (key.length = 4 → headerResident s.buf = false → Raises (.setKey key) s .headerIncomplete) ∧
    (∀ b0 b1 ext old w, key.length = 4 → s.buf = b0 :: b1 :: (ext ++ old ++ w) → maskBit s.buf = true →
      ext.length = extw s.buf → old.length = 4 →
      Rewrites (.setKey key) s (b0 :: b1 :: (ext ++ key ++ transform (transform w old) key))
        { err := .ok, null := false, val := 0, out := [] }) ∧
    (∀ b0 b1 ext w, key.length = 4 → s.buf = b0 :: b1 :: (ext ++ w) → maskBit s.buf = false →
      ext.length = extw s.buf →
      (∀ m, s.cfg.bufMax = some m → m < s.len + 4 → Raises (.setKey key) s .overflow) ∧
      ((∀ m, s.cfg.bufMax = some m → s.len + 4 ≤ m) →
        Rewrites (.setKey key) s (b0 :: (b1 ||| 0x80#8) :: (ext ++ key ++ transform w key))
          { err := .ok, null := false, val := 0, out := [] }))

/-- R157: `REMOVE_KEY`, in every state. -/
def Obligations.RemoveKeyUnmasksThePayload : Prop :=
  (∀ rest, decodePacket (0x26#8 :: rest) = .command .removeKey rest) ∧
  ∀ s : State,
    ((s.len < 2 ∨ (maskBit s.buf = true ∧ headerResident s.buf = false)) →
      Raises .removeKey s .headerIncomplete) ∧
    (2 ≤ s.len → maskBit s.buf = false →
      Answers .removeKey s { err := .ok, null := true, val := 0, out := [] }) ∧
    (∀ b0 b1 ext old w, s.buf = b0 :: b1 :: (ext ++ old ++ w) → maskBit s.buf = true →
      ext.length = extw s.buf → old.length = 4 →
      Rewrites .removeKey s (b0 :: (b1 &&& 0x7F#8) :: (ext ++ transform w old))
        { err := .ok, null := false, val := 0, out := old })

/-- R158: `GET_PAYLOAD`, in every state: all resident bytes, unmasked in a copy. -/
def Obligations.PayloadIsReadUnmasked : Prop :=
  (∀ rest, decodePacket (0x1D#8 :: rest) = .command .getPayload rest) ∧
  ∀ s : State,
    (headerResident s.buf = false → Raises .getPayload s .headerIncomplete) ∧
    (headerResident s.buf = true → payloadLength s.buf = 0 →
      Answers .getPayload s { err := .ok, null := true, val := 0, out := [] }) ∧
    (∀ front w, s.buf = front ++ w → 2 ≤ s.len → front.length = payoff s.buf → maskBit s.buf = false →
      payloadLength s.buf ≠ 0 →
      Answers .getPayload s { err := .ok, null := false, val := 0, out := w }) ∧
    (∀ front key w, s.buf = front ++ key ++ w → 2 ≤ s.len → front.length = keyoff s.buf →
      key.length = 4 → maskBit s.buf = true → payloadLength s.buf ≠ 0 →
      Answers .getPayload s { err := .ok, null := false, val := 0, out := transform w key })

/-- R159: `SET_PAYLOAD`, in every state: the length form chosen afresh, byte 0, the mask bit and the key kept. -/
def Obligations.SetPayloadRebuildsTheFrame : Prop :=
  (∀ rest, decodePacket (0x27#8 :: rest) = withOperands .setPayload (takeData rest)) ∧
  ∀ (s : State) (data : Bytes),
    (headerResident s.buf = false → Raises (.setPayload data) s .headerIncomplete) ∧
    (∀ b0 b1 rest, s.buf = b0 :: b1 :: rest → headerResident s.buf = true →
      let l := encodeLength data.length
      let key := if b1 >>> 7 = 1#8 then (s.buf.drop (keyoff s.buf)).take 4 else []
      let body := if b1 >>> 7 = 1#8 then transform data key else data
      let new := b0 :: (((b1 >>> 7) <<< 7) ||| l.1) :: (l.2 ++ key ++ body)
      (∀ m, s.cfg.bufMax = some m → m < new.length → Raises (.setPayload data) s .overflow) ∧
      ((∀ m, s.cfg.bufMax = some m → new.length ≤ m) →
        Rewrites (.setPayload data) s new { err := .ok, null := false, val := 0, out := [] }))

/-- R160: `REMOVE_PAYLOAD`, in every state: a 0-byte literal length, the mask bit and the key kept, and the
result what `GET_PAYLOAD` would have returned just before. -/
def Obligations.RemovePayloadKeepsTheKey : Prop :=
  (∀ rest, decodePacket (0x28#8 :: rest) = .command .removePayload rest) ∧
  ∀ s : State,
    (headerResident s.buf = false → Raises .removePayload s .headerIncomplete) ∧
    (headerResident s.buf = true → payloadLength s.buf = 0 →
      Answers .removePayload s { err := .ok, null := true, val := 0, out := [] }) ∧
    (∀ b0 b1 rest, s.buf = b0 :: b1 :: rest → headerResident s.buf = true → payloadLength s.buf ≠ 0 →
      ∃ plain, Answers .getPayload s { err := .ok, null := false, val := 0, out := plain } ∧
        Rewrites .removePayload s
          (b0 :: (b1 &&& 0x80#8) :: (if b1 >>> 7 = 1#8 then (s.buf.drop (keyoff s.buf)).take 4 else []))
          { err := .ok, null := false, val := 0, out := plain })

/-- R161: `SET_KEY`, `REMOVE_KEY` and the byte 0 setters leave the plaintext unchanged; `SET_PAYLOAD` makes it
`DATA`, `BUILD` the descriptor's payload. -/
def Obligations.PlaintextIsPreserved : Prop :=
  ∀ (s t : State) (r : Response), t.port = .response r →
    (∀ key, exec (.setKey key) s = .next t → plainPayload t.buf = plainPayload s.buf) ∧
    (exec .removeKey s = .next t → plainPayload t.buf = plainPayload s.buf) ∧
    (∀ data, exec (.setPayload data) s = .next t → r.err = .ok → plainPayload t.buf = data) ∧
    (∀ d, exec (.build d) s = .next t → r.err = .ok → plainPayload t.buf = d.payload.getD []) ∧
    (∀ arg, ∀ i ∈ [Instr.setFin arg, .setRsv1 arg, .setRsv2 arg, .setRsv3 arg, .setOpcode arg],
      s.mem.wf = true → exec i s = .next t → plainPayload t.buf = plainPayload s.buf)

/-- R162: none of the six commands changes byte 0; `GET_KEY` and `GET_PAYLOAD` change nothing; `SET_KEY` and
`REMOVE_KEY` keep `len7`, the extended length, the declared length and the resident count, so the queries answer
as before; `SET_PAYLOAD` and a non-null `REMOVE_PAYLOAD` leave a frame with as many resident bytes as it
declares, which is complete, and valid if `ProtocolLegal` allows its byte 0. -/
def Obligations.HeaderIsPreserved : Prop :=
  ∀ (s t : State) (r : Response) (key data : Bytes), t.port = .response r → data.length < 2 ^ 64 →
    (∀ i ∈ [Instr.getKey, .setKey key, .removeKey, .getPayload, .setPayload data, .removePayload],
      exec i s = .next t → byteAt t.buf 0 = byteAt s.buf 0) ∧
    (∀ i ∈ [Instr.getKey, .getPayload], exec i s = .next t → t.mem = s.mem) ∧
    (∀ i ∈ [Instr.setKey key, .removeKey], exec i s = .next t →
      len7 t.buf = len7 s.buf ∧ slice t.buf 2 (keyoff t.buf) = slice s.buf 2 (keyoff s.buf) ∧
      payloadLength t.buf = payloadLength s.buf ∧ resident t.buf = resident s.buf ∧
      ∀ q ∈ [Instr.isComplete, .isValid], ∀ a, Answers q s a → Answers q t a) ∧
    (∀ i ∈ [Instr.setPayload data, .removePayload], exec i s = .next t → r.err = .ok → r.null = false →
      resident t.buf = payloadLength t.buf ∧
      Answers .isComplete t { err := .ok, null := false, val := 1, out := [] } ∧
      Answers .isValid t
        { err := .ok, null := false, val := if byteAt s.buf 0 ∈ s.cfg.rejects then 0 else 1, out := [] })

/-- What writes which header field (10_state.md R23-R25): byte 0 changes only by the setters and the commands that
write the whole buffer, the mask bit only by `SET_KEY` and `REMOVE_KEY` beside those, `len7` only by
`SET_PAYLOAD` and `REMOVE_PAYLOAD` beside those. `APPEND` writes no byte of a header already held. -/
def Obligations.OnlyTheNamedCommandsWriteTheHeader : Prop :=
  ∀ (i : Instr) (s t : State), s.mem.wf = true → 2 ≤ s.len → exec i s = .next t →
    (∀ data, i ≠ .load data) → (∀ d, i ≠ .build d) →
    ((∀ arg, i ∉ [Instr.setFin arg, .setRsv1 arg, .setRsv2 arg, .setRsv3 arg, .setOpcode arg]) →
      byteAt t.buf 0 = byteAt s.buf 0) ∧
    ((∀ key, i ≠ .setKey key) → i ≠ .removeKey → maskBit t.buf = maskBit s.buf) ∧
    ((∀ data, i ≠ .setPayload data) → i ≠ .removePayload → len7 t.buf = len7 s.buf)

/-! ### Queries -/

/-- R175: `IS_COMPLETE`, in every state. -/
def Obligations.CompletenessIsAnswered : Prop :=
  (∀ rest, decodePacket (0x1E#8 :: rest) = .command .isComplete rest) ∧
  ∀ s : State,
    (headerResident s.buf = true ∧ payloadLength s.buf ≤ s.len - payoff s.buf →
      Answers .isComplete s { err := .ok, null := false, val := 1, out := [] }) ∧
    (headerResident s.buf = false ∨ s.len - payoff s.buf < payloadLength s.buf →
      Answers .isComplete s { err := .ok, null := false, val := 0, out := [] })

/-- R176: `IS_VALID`, in every state and at every strictness. -/
def Obligations.ValidityIsAnswered : Prop :=
  (∀ rest, decodePacket (0x1F#8 :: rest) = .command .isValid rest) ∧
  ∀ s : State,
    (headerResident s.buf = true ∧ s.len - payoff s.buf = payloadLength s.buf ∧
        byteAt s.buf 0 ∉ s.cfg.rejects →
      Answers .isValid s { err := .ok, null := false, val := 1, out := [] }) ∧
    (headerResident s.buf = false ∨ s.len - payoff s.buf ≠ payloadLength s.buf ∨
        byteAt s.buf 0 ∈ s.cfg.rejects →
      Answers .isValid s { err := .ok, null := false, val := 0, out := [] })

/-- R179: once complete, a frame stays complete as more bytes are appended; validity goes from 1 to 0 when one byte
too many is appended. -/
def Obligations.CompletenessIsMonotonic : Prop :=
  let tells (q : Instr) (s : State) (v : Val) : Prop := Answers q s { err := .ok, null := false, val := v, out := [] }
  (∀ (s t : State) (data : Bytes), tells .isComplete s 1 → exec (.append data) s = .next t →
    tells .isComplete t 1) ∧
  ∀ (s t : State) (b : Byte), tells .isValid s 1 → exec (.append [b]) s = .next t → t.buf = s.buf ++ [b] →
    tells .isValid t 0

/-- R178: the conditions by the queries and in terms of the buffer, exactly one holding in every state, and what
`APPEND` can do to them. -/
def Obligations.FrameConditionsAndTheirArrows : Prop :=
  let tells (q : Instr) (s : State) (v : Val) : Prop := Answers q s { err := .ok, null := false, val := v, out := [] }
  let has (s : State) (c : FrameCondition) : Prop := frameCondition s.cfg s.buf = c
  (∀ s : State,
    (has s .receiving ↔ tells .isComplete s 0) ∧ (has s .valid ↔ tells .isValid s 1) ∧
    (has s .malformed ↔ tells .isComplete s 1 ∧ tells .isValid s 0) ∧
    (tells .isComplete s 1 ↔ has s .valid ∨ has s .malformed) ∧
    (has s .receiving ↔ s.len < 2 ∨ headerResident s.buf = false ∨ resident s.buf < payloadLength s.buf) ∧
    (has s .valid ↔ headerResident s.buf = true ∧ payloadLength s.buf ≤ resident s.buf ∧
      resident s.buf = payloadLength s.buf ∧ protocolLegal s.cfg (byteAt s.buf 0) = true) ∧
    (has s .malformed ↔ (headerResident s.buf = true ∧ payloadLength s.buf ≤ resident s.buf) ∧
      (payloadLength s.buf < resident s.buf ∨ protocolLegal s.cfg (byteAt s.buf 0) = false))) ∧
  (∀ c : FrameCondition, ∃ (s t : State) (data : Bytes), exec (.append data) s = .next t ∧ data ≠ [] ∧
    has s .receiving ∧ has t c) ∧
  ∀ (s t : State) (data : Bytes), exec (.append data) s = .next t → data ≠ [] → t.buf = s.buf ++ data →
    (has s .valid → has t .malformed) ∧ (has s .malformed → has t .malformed)

/-! ### Responses -/

/-- R185 and R76: the numbers of the error codes and the response packet. -/
def Obligations.ResponsePacketLayout : Prop :=
  [ErrorCode.ok, .invalidArgumentShape, .outOfRange, .wrongType, .wrongLength, .headerIncomplete, .overflow,
    .illegalCommand].map errorNumber = [0, 1, 2, 3, 4, 5, 6, 7] ∧
  ∀ r : Response, r.out.length < 2 ^ 64 → ∃ p, responsePacket r = some p ∧ p.length = 18 + r.out.length ∧
    p.take 2 = [BitVec.ofNat 8 (errorNumber r.err), if r.null then 1 else 0] ∧
    memRead p 2 8 = r.val.toNat ∧ memRead p 10 8 = r.out.length ∧ p.drop 18 = r.out

/-- The next command is executed as if a failed one had never been issued (60_exceptions.md section 4). -/
def Obligations.FailedCommandLeavesNoTrace : Prop :=
  ∀ (i j : Instr) (s t : State) (r : Response), exec i s = .next t → t.port = .response r → r.err ≠ .ok →
    exec j t = exec j s

/-- The host's commands run in the order it issues them: a command issued to a unit with nothing pending is the
next step, and leaves nothing pending. -/
def Obligations.IssuedCommandRunsNext : Prop :=
  ∀ (s : State) (i : Instr), s.rst = false → s.cmdIn = [] → i.wf = true → i.isHeader = false →
    step (s.issue i) = exec i s
end

