-- ==== Sys2Proof/Laws/Bytes.lean ====
section
/-! SUPPORT. The big-endian helpers and slices: each is the other's inverse, and where a slice of a sequence cut
in pieces lies. -/

namespace Sys2Proof

@[simp] theorem be_length (n v : Nat) : (be n v).length = n := by
  induction n with
  | zero => rfl
  | succ n ih => simp [be, ih]

@[simp] theorem ubeFrom_append (acc : Nat) (s t : Bytes) : ubeFrom acc (s ++ t) = ubeFrom (ubeFrom acc s) t := by
  induction s generalizing acc with
  | nil => rfl
  | cons b bs ih => simp [ubeFrom, ih]

theorem ubeFrom_be (n v acc : Nat) : ubeFrom acc (be n v) = acc * 256 ^ n + v % 256 ^ n := by
  induction n generalizing acc with
  | zero => simp [be, ubeFrom, Nat.mod_one]
  | succ n ih =>
    have h : v % 256 ^ (n + 1) = v / 256 ^ n % 256 * 256 ^ n + v % 256 ^ n := by
      rw [pow_succ, Nat.mod_mul]
      ring
    simp only [be, ubeFrom, ih, h, BitVec.toNat_ofNat]
    ring

theorem ube_be {n v : Nat} (h : v < 256 ^ n) : ube (be n v) = v := by
  simp [ube, ubeFrom_be, Nat.mod_eq_of_lt h]

theorem ubeFrom_eq (acc : Nat) (s : Bytes) : ubeFrom acc s = acc * 256 ^ s.length + ube s := by
  induction s generalizing acc with
  | nil => simp [ubeFrom, ube]
  | cons b bs ih =>
    simp only [ube, ubeFrom, List.length_cons, Nat.zero_mul, Nat.zero_add]
    rw [ih, ih b.toNat, pow_succ]
    ring

theorem ube_lt (s : Bytes) : ube s < 256 ^ s.length := by
  induction s with
  | nil => simp [ube, ubeFrom]
  | cons b bs ih =>
    have hb := b.isLt
    simp only [ube, ubeFrom, Nat.zero_mul, Nat.zero_add, List.length_cons, pow_succ]
    rw [ubeFrom_eq]
    nlinarith

/-- The bytes of a value depend on it modulo `256^n` only. -/
theorem be_mod (n v k : Nat) : be n (k * 256 ^ n + v) = be n v := by
  induction n generalizing k with
  | zero => rfl
  | succ n ih =>
    have hpos : 0 < 256 ^ n := by positivity
    have h1 : k * 256 ^ (n + 1) + v = (k * 256) * 256 ^ n + v := by ring
    simp only [be]
    rw [h1, ih, Nat.add_comm, Nat.add_mul_div_right _ _ hpos]
    congr 1
    apply BitVec.eq_of_toNat_eq
    simp [Nat.add_mod]

theorem be_ube (s : Bytes) : be s.length (ube s) = s := by
  induction s with
  | nil => rfl
  | cons b bs ih =>
    have h : ube (b :: bs) = b.toNat * 256 ^ bs.length + ube bs := by
      simp only [ube, ubeFrom, Nat.zero_mul, Nat.zero_add]
      exact ubeFrom_eq _ _
    have hpos : 0 < 256 ^ bs.length := by positivity
    simp only [List.length_cons, be]
    rw [h, be_mod, ih, Nat.add_comm, Nat.add_mul_div_right _ _ hpos, Nat.div_eq_of_lt (ube_lt bs)]
    simp

namespace Machine

@[simp] theorem byteAt_cons_zero (b : Byte) (bs : Bytes) : byteAt (b :: bs) 0 = b := rfl

@[simp] theorem byteAt_cons_succ (b : Byte) (bs : Bytes) (i : Nat) : byteAt (b :: bs) (i + 1) = byteAt bs i := rfl

@[simp] theorem byteAt_cons_one (b c : Byte) (bs : Bytes) : byteAt (b :: c :: bs) 1 = c := rfl

/-- The middle of a sequence cut in three. -/
theorem slice_middle (a m z : Bytes) : slice (a ++ m ++ z) a.length (a.length + m.length) = m := by
  simp [slice]

theorem slice_eq_middle {b a m z : Bytes} {lo hi : Nat} (hb : b = a ++ m ++ z) (hlo : lo = a.length)
    (hhi : hi = a.length + m.length) : slice b lo hi = m := by
  subst hb hlo hhi
  exact slice_middle a m z

theorem slice_length {b : Bytes} {lo hi : Nat} (h : hi ≤ b.length) : (slice b lo hi).length = hi - lo := by
  simp [slice]
  omega

/-- Bytes added at the end do not reach into a slice that lies inside. -/
theorem slice_append {b : Bytes} (c : Bytes) {lo hi : Nat} (h : hi ≤ b.length) (hl : lo ≤ hi) :
    slice (b ++ c) lo hi = slice b lo hi := by
  have h1 : lo ≤ b.length := by omega
  simp only [slice]
  rw [List.drop_append_of_le_length h1, List.take_append_of_le_length (by simp; omega)]

theorem memRead_append {b : Bytes} (c : Bytes) {off n : Nat} (h : off + n ≤ b.length) :
    memRead (b ++ c) off n = memRead b off n := by
  simp only [memRead, slice_append c h (Nat.le_add_right _ _)]

end Machine
end Sys2Proof
end

