-- ==== Sys2Proof/Laws/Cipher.lean ====
section
/-! SUPPORT. The masking cipher from any starting index; the laws of R111 and R113 are statements. -/

namespace Sys2Proof.Machine

@[simp] theorem transformFrom_length (i : Nat) (k s : Bytes) : (transformFrom i k s).length = s.length := by
  induction s generalizing i with
  | nil => rfl
  | cons b bs ih => simp [transformFrom, ih]

@[simp] theorem transform_length (s k : Bytes) : (transform s k).length = s.length :=
  transformFrom_length 0 k s

@[simp] theorem transform_nil (k : Bytes) : transform [] k = [] := rfl

/-- Byte `j` of a piece that starts at index `i`. -/
theorem transformFrom_getElem? (i : Nat) (k s : Bytes) (j : Nat) :
    (transformFrom i k s)[j]? = s[j]?.map fun b => b ^^^ byteAt k ((i + j) % 4) := by
  induction s generalizing i j with
  | nil => simp [transformFrom]
  | cons b bs ih =>
    cases j with
    | zero => simp [transformFrom]
    | succ j => simp [transformFrom, ih, Nat.add_comm, Nat.add_left_comm]

theorem transformFrom_append (i : Nat) (k s t : Bytes) :
    transformFrom i k (s ++ t) = transformFrom i k s ++ transformFrom (i + s.length) k t := by
  induction s generalizing i with
  | nil => simp [transformFrom]
  | cons b bs ih =>
    have h : i + 1 + bs.length = i + (bs.length + 1) := by omega
    simp [transformFrom, ih, h]

/-- Applied twice from the same index, the cipher undoes itself. -/
theorem transformFrom_transformFrom (i : Nat) (k s : Bytes) : transformFrom i k (transformFrom i k s) = s := by
  induction s generalizing i with
  | nil => rfl
  | cons b bs ih => simp [transformFrom, ih]

end Sys2Proof.Machine
end

