-- ==== Sys2Proof/Laws/Decode.lean ====
section
/-! SUPPORT. Each operand parser against its encoder, both ways (R76). -/

namespace Sys2Proof

theorem takeBytes_append (x rest : Bytes) : takeBytes x.length (x ++ rest) = some (x, rest) := by
  simp [takeBytes]

theorem takeBytes_eq_some {n : Nat} {bs x rest : Bytes} (h : takeBytes n bs = some (x, rest)) :
    bs = x ++ rest ∧ x.length = n := by
  simp only [takeBytes] at h
  split at h
  · rename_i hn
    obtain ⟨rfl, rfl⟩ := Prod.mk.inj (Option.some.inj h)
    exact ⟨(List.take_append_drop n bs).symm, by simpa using hn⟩
  · cases h

theorem takeKey_encodeKey {key : Bytes} (h : key.length ≤ 255) (rest : Bytes) :
    takeKey (encodeKey key ++ rest) = some (key, rest) := by
  have hl : (BitVec.ofNat 8 key.length).toNat = key.length := by
    simp only [BitVec.toNat_ofNat]
    omega
  simp only [encodeKey, List.cons_append, takeKey, hl]
  exact takeBytes_append key rest

theorem takeKey_eq_some {bs key rest : Bytes} (h : takeKey bs = some (key, rest)) :
    bs = encodeKey key ++ rest ∧ key.length ≤ 255 := by
  cases bs with
  | nil => cases h
  | cons k bs =>
    obtain ⟨rfl, hl⟩ := takeBytes_eq_some h
    have hk := k.isLt
    refine ⟨?_, by omega⟩
    simp [encodeKey, hl]

theorem takeData_encodeData {data : Bytes} (h : data.length < 2 ^ 64) (rest : Bytes) :
    takeData (encodeData data ++ rest) = some (data, rest) := by
  have h8 : takeBytes 8 (be 8 data.length ++ (data ++ rest)) = some (be 8 data.length, data ++ rest) := by
    simpa using takeBytes_append (be 8 data.length) (data ++ rest)
  simp only [encodeData, List.append_assoc, takeData, h8]
  rw [ube_be (by simpa using h)]
  exact takeBytes_append data rest

theorem takeData_eq_some {bs data rest : Bytes} (h : takeData bs = some (data, rest)) :
    bs = encodeData data ++ rest ∧ data.length < 2 ^ 64 := by
  simp only [takeData] at h
  split at h
  · cases h
  · rename_i dlen r h8
    obtain ⟨rfl, hl⟩ := takeBytes_eq_some h8
    obtain ⟨rfl, hd⟩ := takeBytes_eq_some h
    have hlt := ube_lt dlen
    have hbe := be_ube dlen
    rw [hl] at hlt hbe
    refine ⟨?_, by rw [hd]; simpa using hlt⟩
    simp [encodeData, hd, hbe]

theorem takeArg_eq_some {bs : Bytes} {b : Byte} {rest : Bytes} (h : takeArg bs = some (b, rest)) :
    bs = b :: rest := by
  cases bs with
  | nil => cases h
  | cons c cs =>
    obtain ⟨rfl, rfl⟩ := Prod.mk.inj (Option.some.inj h)
    rfl

/-- A descriptor operand comes back, present or not. -/
theorem takeOpt_encodeOpt {α : Type} {take : Bytes → Option (α × Bytes)} {enc : α → Bytes} (o : Option α)
    (rest : Bytes) (h : ∀ x, o = some x → take (enc x ++ rest) = some (x, rest)) :
    takeOpt o.isSome take (encodeOpt enc o ++ rest) = some (o, rest) := by
  cases o with
  | none => rfl
  | some x => simp [takeOpt, encodeOpt, h x rfl]

theorem takeOpt_eq_some {α : Type} {take : Bytes → Option (α × Bytes)} {enc : α → Bytes} {p : Bool} {bs : Bytes}
    {o : Option α} {rest : Bytes} (h : takeOpt p take bs = some (o, rest))
    (hinv : ∀ x, take bs = some (x, rest) → bs = enc x ++ rest) :
    bs = encodeOpt enc o ++ rest ∧ o.isSome = p ∧ ∀ x, o = some x → take bs = some (x, rest) := by
  cases p with
  | false =>
    obtain ⟨rfl, rfl⟩ := Prod.mk.inj (Option.some.inj h)
    exact ⟨rfl, rfl, fun x hx => by cases hx⟩
  | true =>
    simp only [takeOpt, if_true] at h
    split at h
    · cases h
    · rename_i x r ht
      obtain ⟨rfl, rfl⟩ := Prod.mk.inj (Option.some.inj h)
      refine ⟨hinv x ht, rfl, fun y hy => ?_⟩
      cases hy
      exact ht

theorem takeKeyData_encode {key data : Bytes} (hk : key.length ≤ 255) (hd : data.length < 2 ^ 64) (rest : Bytes) :
    takeKeyData (encodeKey key ++ encodeData data ++ rest) = some ((key, data), rest) := by
  simp [takeKeyData, List.append_assoc, takeKey_encodeKey hk, takeData_encodeData hd]

theorem takeKeyData_eq_some {bs key data rest : Bytes} (h : takeKeyData bs = some ((key, data), rest)) :
    bs = encodeKey key ++ encodeData data ++ rest ∧ key.length ≤ 255 ∧ data.length < 2 ^ 64 := by
  simp only [takeKeyData] at h
  split at h
  · cases h
  · rename_i k r hk
    split at h
    · cases h
    · rename_i d r' hd
      obtain ⟨h1, rfl⟩ := Prod.mk.inj (Option.some.inj h)
      obtain ⟨rfl, rfl⟩ := Prod.mk.inj h1
      obtain ⟨rfl, hkl⟩ := takeKey_eq_some hk
      obtain ⟨rfl, hdl⟩ := takeData_eq_some hd
      exact ⟨by simp, hkl, hdl⟩

/-- The bits of `PRES` are which fields the descriptor supplies, and its bit 7 (R75). -/
theorem presByte_bits (d : Descriptor) :
    (presByte d).getLsbD 0 = d.fin.isSome ∧ (presByte d).getLsbD 1 = d.rsv1.isSome ∧
    (presByte d).getLsbD 2 = d.rsv2.isSome ∧ (presByte d).getLsbD 3 = d.rsv3.isSome ∧
    (presByte d).getLsbD 4 = d.opcode.isSome ∧ (presByte d).getLsbD 5 = d.maskingKey.isSome ∧
    (presByte d).getLsbD 6 = d.payload.isSome ∧ (presByte d).getLsbD 7 = d.presBit7 := by
  simp only [presByte]
  generalize d.fin.isSome = a
  generalize d.rsv1.isSome = b
  generalize d.rsv2.isSome = c
  generalize d.rsv3.isSome = e
  generalize d.opcode.isSome = f
  generalize d.maskingKey.isSome = g
  generalize d.payload.isSome = h
  generalize d.presBit7 = i
  revert a b c e f g h i
  decide

/-- A byte is determined by its eight bits. -/
theorem byte_eq_of_bits {x y : Byte} (h0 : x.getLsbD 0 = y.getLsbD 0) (h1 : x.getLsbD 1 = y.getLsbD 1)
    (h2 : x.getLsbD 2 = y.getLsbD 2) (h3 : x.getLsbD 3 = y.getLsbD 3) (h4 : x.getLsbD 4 = y.getLsbD 4)
    (h5 : x.getLsbD 5 = y.getLsbD 5) (h6 : x.getLsbD 6 = y.getLsbD 6) (h7 : x.getLsbD 7 = y.getLsbD 7) :
    x = y := by
  apply BitVec.eq_of_getLsbD_eq
  intro i hi
  match i, hi with
  | 0, _ => exact h0
  | 1, _ => exact h1
  | 2, _ => exact h2
  | 3, _ => exact h3
  | 4, _ => exact h4
  | 5, _ => exact h5
  | 6, _ => exact h6
  | 7, _ => exact h7

theorem takeDescriptor_encode {d : Descriptor} (hk : ∀ k, d.maskingKey = some k → k.length ≤ 255)
    (hp : ∀ p, d.payload = some p → p.length < 2 ^ 64) (rest : Bytes) :
    takeDescriptor (encodeDescriptor d ++ rest) = some (d, rest) := by
  obtain ⟨h0, h1, h2, h3, h4, h5, h6, h7⟩ := presByte_bits d
  have arg : ∀ (o : Option Byte) (r : Bytes),
      takeOpt o.isSome takeArg (encodeOpt (fun b => [b]) o ++ r) = some (o, r) :=
    fun o r => takeOpt_encodeOpt o r fun x _ => rfl
  simp only [encodeDescriptor, List.cons_append, List.append_assoc, takeDescriptor, h0, h1, h2, h3, h4, h5, h6,
    h7, arg]
  rw [takeOpt_encodeOpt d.maskingKey _ fun x hx => takeKey_encodeKey (hk x hx) _]
  simp only
  rw [takeOpt_encodeOpt d.payload _ fun x hx => takeData_encodeData (hp x hx) _]

theorem takeDescriptor_eq_some {bs rest : Bytes} {d : Descriptor} (h : takeDescriptor bs = some (d, rest)) :
    bs = encodeDescriptor d ++ rest ∧ (∀ k, d.maskingKey = some k → k.length ≤ 255) ∧
      ∀ p, d.payload = some p → p.length < 2 ^ 64 := by
  cases bs with
  | nil => cases h
  | cons pres bs =>
    simp only [takeDescriptor] at h
    split at h; · cases h
    rename_i fin r0 e0
    split at h; · cases h
    rename_i rsv1 r1 e1
    split at h; · cases h
    rename_i rsv2 r2 e2
    split at h; · cases h
    rename_i rsv3 r3 e3
    split at h; · cases h
    rename_i opcode r4 e4
    split at h; · cases h
    rename_i key r5 e5
    split at h; · cases h
    rename_i payload r6 e6
    obtain ⟨rfl, rfl⟩ := Prod.mk.inj (Option.some.inj h)
    obtain ⟨b0, p0, -⟩ := takeOpt_eq_some (enc := fun b => [b]) e0 fun x hx => takeArg_eq_some hx
    obtain ⟨b1, p1, -⟩ := takeOpt_eq_some (enc := fun b => [b]) e1 fun x hx => takeArg_eq_some hx
    obtain ⟨b2, p2, -⟩ := takeOpt_eq_some (enc := fun b => [b]) e2 fun x hx => takeArg_eq_some hx
    obtain ⟨b3, p3, -⟩ := takeOpt_eq_some (enc := fun b => [b]) e3 fun x hx => takeArg_eq_some hx
    obtain ⟨b4, p4, -⟩ := takeOpt_eq_some (enc := fun b => [b]) e4 fun x hx => takeArg_eq_some hx
    obtain ⟨b5, p5, k5⟩ := takeOpt_eq_some (enc := encodeKey) e5 fun x hx => (takeKey_eq_some hx).1
    obtain ⟨b6, p6, k6⟩ := takeOpt_eq_some (enc := encodeData) e6 fun x hx => (takeData_eq_some hx).1
    refine ⟨?_, fun k hk => (takeKey_eq_some (k5 k hk)).2, fun p hp => (takeData_eq_some (k6 p hp)).2⟩
    have hp : pres = presByte ⟨pres.getLsbD 7, fin, rsv1, rsv2, rsv3, opcode, key, payload⟩ := by
      obtain ⟨q0, q1, q2, q3, q4, q5, q6, q7⟩ :=
        presByte_bits ⟨pres.getLsbD 7, fin, rsv1, rsv2, rsv3, opcode, key, payload⟩
      exact byte_eq_of_bits (by rw [q0, p0]) (by rw [q1, p1]) (by rw [q2, p2]) (by rw [q3, p3]) (by rw [q4, p4])
        (by rw [q5, p5]) (by rw [q6, p6]) q7.symm
    simp only [encodeDescriptor, ← hp]
    rw [b0, b1, b2, b3, b4, b5, b6]
    simp

/-- The fields of byte 0 come back (R60). -/
theorem decodeByte0_encodeByte0 (h : HdrByte0) : decodeByte0 (encodeByte0 h) = h := by
  obtain ⟨a, b, c, d, e⟩ := h
  revert a b c d e
  decide

theorem encodeByte0_decodeByte0 (b : Byte) : encodeByte0 (decodeByte0 b) = b := by
  revert b
  decide

end Sys2Proof
end

