-- ==== Sys2Proof/Laws/Memory.lean ====
section
/-! SUPPORT. The frame buffer: every operation keeps the canonical form, a canonical buffer is its sequence of
bytes, a read after a write, and what a write leaves alone. -/

namespace Sys2Proof.Machine

@[simp] theorem Memory.bytes_ofBytesFrom (a : Nat) (bs : Bytes) : Memory.bytes (Memory.ofBytesFrom a bs) = bs := by
  induction bs generalizing a with
  | nil => rfl
  | cons b bs ih => simpa [Memory.ofBytesFrom, Memory.bytes] using ih (a + 1)

@[simp] theorem Memory.bytes_ofBytes (bs : Bytes) : Memory.bytes (Memory.ofBytes bs) = bs :=
  Memory.bytes_ofBytesFrom 0 bs

theorem Memory.fst_ofBytesFrom (a : Nat) (bs : Bytes) :
    (Memory.ofBytesFrom a bs).map Prod.fst = List.range' a bs.length := by
  induction bs generalizing a with
  | nil => rfl
  | cons b bs ih => simp [Memory.ofBytesFrom, ih, List.range'_succ]

theorem Memory.length_bytes (m : Memory) : m.bytes.length = m.length := by simp [Memory.bytes]

@[simp] theorem Memory.length_ofBytes (bs : Bytes) : (Memory.ofBytes bs).length = bs.length := by
  rw [← Memory.length_bytes, Memory.bytes_ofBytes]

/-- Replacing the buffer gives the canonical form. -/
@[simp] theorem Memory.wf_ofBytes (bs : Bytes) : (Memory.ofBytes bs).wf = true := by
  have h := Memory.fst_ofBytesFrom 0 bs
  have hl := Memory.length_ofBytes bs
  simp only [Memory.wf, Memory.ofBytes] at *
  rw [h, hl, List.range_eq_range', beq_self_eq_true]

theorem Memory.eq_ofBytesFrom_of_fst (m : Memory) (a : Nat)
    (h : m.map Prod.fst = List.range' a m.length) : m = Memory.ofBytesFrom a m.bytes := by
  induction m generalizing a with
  | nil => rfl
  | cons c m ih =>
    rw [List.map_cons, List.length_cons, List.range'_succ, List.cons.injEq] at h
    have := ih (a + 1) h.2
    obtain ⟨k, v⟩ := c
    simp only at h
    simp only [Memory.bytes, List.map_cons, Memory.ofBytesFrom] at *
    rw [h.1, ← this]

/-- A canonical buffer is the buffer of its own bytes: equal sequences are equal data. -/
theorem Memory.eq_ofBytes_of_wf {m : Memory} (h : m.wf = true) : m = Memory.ofBytes m.bytes := by
  apply Memory.eq_ofBytesFrom_of_fst
  rw [← List.range_eq_range']
  exact beq_iff_eq.mp h

theorem Memory.write_ofBytesFrom (a i : Nat) (v : Byte) (bs : Bytes) (h : a ≤ i) :
    (Memory.ofBytesFrom a bs).write i v = Memory.ofBytesFrom a (bs.set (i - a) v) := by
  induction bs generalizing a with
  | nil => rfl
  | cons b bs ih =>
    by_cases hai : a = i
    · subst hai
      have : ∀ (bs : Bytes) (k : Nat), a < k →
          (Memory.ofBytesFrom k bs).map (fun c => if c.1 = a then (a, v) else c) = Memory.ofBytesFrom k bs := by
        intro bs
        induction bs with
        | nil => intros; rfl
        | cons c cs ih' =>
          intro k hk
          simp only [Memory.ofBytesFrom, List.map_cons]
          rw [ih' (k + 1) (by omega), if_neg (by omega)]
      simp only [Memory.write, Memory.ofBytesFrom, List.map_cons, this bs (a + 1) (by omega)]
      simp [Memory.ofBytesFrom]
    · have hlt : a < i := by omega
      have hs : i - a = (i - (a + 1)) + 1 := by omega
      have := ih (a + 1) (by omega)
      simp only [Memory.write] at this
      simp only [Memory.write, Memory.ofBytesFrom, List.map_cons, this, hs, List.set_cons_succ]
      rw [if_neg hai]

theorem Memory.write_ofBytes (i : Nat) (v : Byte) (bs : Bytes) :
    (Memory.ofBytes bs).write i v = Memory.ofBytes (bs.set i v) :=
  Memory.write_ofBytesFrom 0 i v bs (Nat.zero_le _)

@[simp] theorem Memory.length_write (m : Memory) (a : Nat) (v : Byte) : (m.write a v).length = m.length := by
  simp [Memory.write]

theorem Memory.fst_write (m : Memory) (a : Nat) (v : Byte) :
    (m.write a v).map Prod.fst = m.map Prod.fst := by
  simp only [Memory.write, List.map_map]
  apply List.map_congr_left
  intro c _
  by_cases h : c.1 = a <;> simp [h]

/-- A write keeps the canonical form. -/
theorem Memory.wf_write (m : Memory) (a : Nat) (v : Byte) : (m.write a v).wf = m.wf := by
  simp [Memory.wf, Memory.fst_write]

/-- A write leaves every other offset alone. -/
theorem Memory.read_write_ne (m : Memory) {a i : Nat} (v : Byte) (h : i ≠ a) :
    (m.write a v).read i = m.read i := by
  induction m with
  | nil => rfl
  | cons c m ih =>
    simp only [Memory.read, Memory.write] at ih
    simp only [Memory.read, Memory.write, List.map_cons, List.find?_cons]
    by_cases hc : c.1 = a
    · have h1 : (a == i) = false := by simpa using fun e => h e.symm
      rw [if_pos hc, hc, h1]
      exact ih
    · rw [if_neg hc]
      cases c.1 == i
      · exact ih
      · rfl

theorem Memory.read_ofBytesFrom (a i : Nat) (bs : Bytes) (h : a ≤ i) :
    (Memory.ofBytesFrom a bs).read i = bs[i - a]? := by
  induction bs generalizing a with
  | nil => simp [Memory.ofBytesFrom, Memory.read]
  | cons b bs ih =>
    by_cases hai : a = i
    · subst hai
      simp [Memory.ofBytesFrom, Memory.read]
    · have hs : i - a = (i - (a + 1)) + 1 := by omega
      have := ih (a + 1) (by omega)
      simp only [Memory.read] at this
      rw [hs, List.getElem?_cons_succ, ← this]
      have h1 : (a == i) = false := by simp; omega
      simp [Memory.ofBytesFrom, Memory.read, h1]

/-- The byte at an offset of a replaced buffer. -/
theorem Memory.read_ofBytes (i : Nat) (bs : Bytes) : (Memory.ofBytes bs).read i = bs[i]? :=
  Memory.read_ofBytesFrom 0 i bs (Nat.zero_le _)

/-- A read after a write to the same offset, where it exists. -/
theorem Memory.read_write_eq {m : Memory} (hwf : m.wf = true) {a : Nat} (v : Byte) (h : a < m.length) :
    (m.write a v).read a = some v := by
  have hb : a < m.bytes.length := by rw [Memory.length_bytes]; exact h
  rw [Memory.eq_ofBytes_of_wf hwf, Memory.write_ofBytes, Memory.read_ofBytes]
  simp [hb]

theorem Memory.wf_writeBytes (m : Memory) (a : Nat) (bs : Bytes) : (m.writeBytes a bs).wf = m.wf := by
  induction bs generalizing m a with
  | nil => rfl
  | cons b bs ih => simp [Memory.writeBytes, ih, Memory.wf_write]

@[simp] theorem Memory.length_writeBytes (m : Memory) (a : Nat) (bs : Bytes) :
    (m.writeBytes a bs).length = m.length := by
  induction bs generalizing m a with
  | nil => rfl
  | cons b bs ih => simp [Memory.writeBytes, ih]

theorem Memory.read_writeBytes_outside (m : Memory) {a i : Nat} (bs : Bytes) (h : i < a ∨ a + bs.length ≤ i) :
    (m.writeBytes a bs).read i = m.read i := by
  induction bs generalizing m a with
  | nil => rfl
  | cons b bs ih =>
    rw [List.length_cons] at h
    rw [Memory.writeBytes, ih _ (by omega), Memory.read_write_ne _ _ (by omega)]

/-- What a write of several bytes makes of the sequence. -/
theorem Memory.writeBytes_ofBytes (b s : Bytes) (a : Nat) (h : a + s.length ≤ b.length) :
    (Memory.ofBytes b).writeBytes a s = Memory.ofBytes (b.take a ++ s ++ b.drop (a + s.length)) := by
  induction s generalizing b a with
  | nil => simp [Memory.writeBytes]
  | cons x xs ih =>
    rw [List.length_cons] at h
    rw [Memory.writeBytes, Memory.write_ofBytes, ih _ _ (by simp; omega)]
    have hset : b.set a x = b.take a ++ x :: b.drop (a + 1) := by
      rw [List.set_eq_take_append_cons_drop, if_pos (by omega)]
    have hlen : (b.take a).length = a := by simp; omega
    have htake : (b.set a x).take (a + 1) = b.take a ++ [x] := by
      rw [hset, List.take_append, hlen, List.take_of_length_le (by omega)]
      simp
    have hdrop : (b.set a x).drop (a + 1 + xs.length) = b.drop (a + (xs.length + 1)) := by
      rw [List.drop_set_of_lt (by omega)]
      congr 1
      omega
    rw [htake, hdrop]
    simp

@[simp] theorem State.buf_setBuf (s : State) (bs : Bytes) : (s.setBuf bs).buf = bs := by
  simp [State.buf, State.setBuf]

@[simp] theorem State.len_setBuf (s : State) (bs : Bytes) : (s.setBuf bs).len = bs.length := by
  simp [State.len, State.setBuf]

theorem State.length_buf (s : State) : s.buf.length = s.len := Memory.length_bytes s.mem

/-- `MemWrite` on a canonical buffer (R53). -/
theorem State.memWrite_eq {s : State} (hwf : s.mem.wf = true) {off n : Nat} (v : Nat) (h : off + n ≤ s.len) :
    s.memWrite off n v = s.setBuf (s.buf.take off ++ be n v ++ s.buf.drop (off + n)) := by
  have hl : (be n v).length = n := by
    clear h
    induction n with
    | zero => rfl
    | succ n ih => simp [be, ih]
  simp only [State.memWrite, State.setBuf]
  congr 1
  conv_lhs => rw [Memory.eq_ofBytes_of_wf hwf]
  rw [Memory.writeBytes_ofBytes _ _ _ (by rw [hl, Memory.length_bytes]; exact h), hl]
  rfl

end Sys2Proof.Machine
end

