-- ==== Sys2Proof/Laws/Parser.lean ====
section
/-! SUPPORT. The parser functions: their ranges, that they read byte 1 alone, and where the header ends. -/

namespace Sys2Proof.Machine

/-- `len7` is a 7-bit number (R91). -/
theorem len7_lt (b : Bytes) : len7 b < 128 := by
  have h : (byteAt b 1).toNat &&& 127 ≤ 127 := Nat.and_le_right
  simp only [len7, BitVec.toNat_and, BitVec.toNat_ofNat, Nat.reducePow, Nat.reduceMod]
  omega

/-- The three widths (R92). -/
theorem extw_cases (b : Bytes) :
    (len7 b ≤ 125 ∧ extw b = 0) ∨ (len7 b = 126 ∧ extw b = 2) ∨ (len7 b = 127 ∧ extw b = 8) := by
  have := len7_lt b
  by_cases h1 : len7 b ≤ 125
  · exact .inl ⟨h1, if_pos h1⟩
  · by_cases h2 : len7 b = 126
    · exact .inr (.inl ⟨h2, by simp [extw, h2]⟩)
    · exact .inr (.inr ⟨by omega, by simp [extw, h1, h2]⟩)

theorem two_le_keyoff (b : Bytes) : 2 ≤ keyoff b := by simp [keyoff]

theorem keyoff_le_payoff (b : Bytes) : keyoff b ≤ payoff b := by
  simp only [payoff, KEYW]
  split <;> omega

theorem payoff_of_mask {b : Bytes} (h : maskBit b = true) : payoff b = keyoff b + 4 := by
  simp [payoff, h, KEYW]

theorem payoff_of_not_mask {b : Bytes} (h : maskBit b = false) : payoff b = keyoff b := by
  simp [payoff, h]

theorem payoff_le (b : Bytes) : payoff b ≤ 14 := by
  have := extw_cases b
  simp only [payoff, keyoff, KEYW]
  split <;> omega

/-- The parser functions of byte 1 depend on it alone (R94: "It depends on byte 1 only"). -/
theorem parser_congr {b c : Bytes} (h : byteAt b 1 = byteAt c 1) :
    len7 b = len7 c ∧ extw b = extw c ∧ keyoff b = keyoff c ∧ maskBit b = maskBit c ∧
      payoff b = payoff c := by
  have h1 : len7 b = len7 c := by simp [len7, h]
  have h2 : extw b = extw c := by simp [extw, h1]
  have h3 : keyoff b = keyoff c := by simp [keyoff, h2]
  have h4 : maskBit b = maskBit c := by simp [maskBit, h]
  exact ⟨h1, h2, h3, h4, by simp [payoff, h3, h4]⟩

@[simp] theorem have2_iff (b : Bytes) : have2 b = true ↔ 2 ≤ b.length := by simp [have2, MINFRAME]

/-- `HeaderResident()` is `LEN >= payoff()`, the offset being at least 2. -/
theorem headerResident_iff (b : Bytes) : headerResident b = true ↔ 2 ≤ b.length ∧ payoff b ≤ b.length := by
  simp [headerResident]

theorem lenFieldResident_iff (b : Bytes) : lenFieldResident b = true ↔ 2 ≤ b.length ∧ 2 + extw b ≤ b.length := by
  simp [lenFieldResident]

theorem headerResident_iff_payoff (b : Bytes) : headerResident b = true ↔ payoff b ≤ b.length := by
  have h1 := two_le_keyoff b
  have h2 := keyoff_le_payoff b
  rw [headerResident_iff]
  omega

theorem headerResident_lenField {b : Bytes} (h : headerResident b = true) : lenFieldResident b = true := by
  have h1 := keyoff_le_payoff b
  rw [headerResident_iff] at h
  rw [lenFieldResident_iff]
  simp only [keyoff] at h1
  omega

/-- A buffer of at least two bytes starts with bytes 0 and 1. -/
theorem cons_cons_of_two_le {b : Bytes} (h : 2 ≤ b.length) :
    b = byteAt b 0 :: byteAt b 1 :: b.drop 2 := by
  match b, h with
  | x :: y :: bs, _ => rfl

/-- The bytes of the extended length alone give the declared length, once `len7` is an escape (R96). -/
theorem payloadLength_congr {b c : Bytes} (h1 : byteAt b 1 = byteAt c 1)
    (hext : slice b 2 (keyoff b) = slice c 2 (keyoff c)) : payloadLength b = payloadLength c := by
  obtain ⟨hl, -, hk, -⟩ := parser_congr h1
  rcases extw_cases b with ⟨h, -⟩ | ⟨h, he⟩ | ⟨h, he⟩
  · simp [payloadLength, ← hl, h, LIT_MAX]
  · have hkb : keyoff b = 4 := by simp [keyoff, he]
    rw [← hk, hkb] at hext
    simp [payloadLength, ← hl, h, LIT_MAX, ESC16, memRead, hext]
  · have hkb : keyoff b = 10 := by simp [keyoff, he]
    rw [← hk, hkb] at hext
    simp [payloadLength, ← hl, h, LIT_MAX, ESC16, memRead, hext]

/-- A buffer whose length field is resident is bytes 0 and 1, the extended length, and the rest. -/
theorem eq_header_append {b : Bytes} (h : 2 + extw b ≤ b.length) :
    b = byteAt b 0 :: byteAt b 1 :: (slice b 2 (keyoff b) ++ b.drop (keyoff b)) := by
  have h2 := cons_cons_of_two_le (b := b) (by omega)
  conv_lhs => rw [h2]
  congr 2
  simp only [slice, keyoff]
  conv_lhs => rw [← List.take_append_drop (extw b) (b.drop 2)]
  simp

/-- With the header resident and a key present: the key region and the wire payload end the buffer. -/
theorem drop_keyoff_eq {b : Bytes} (hm : maskBit b = true) : b.drop (keyoff b) = keyBytes b ++ wirePayload b := by
  simp only [keyBytes, slice, wirePayload, payoff_of_mask hm, KEYW, Nat.add_sub_cancel_left]
  conv_lhs => rw [← List.take_append_drop 4 (b.drop (keyoff b))]
  simp

theorem keyBytes_length {b : Bytes} (hr : headerResident b = true) (hm : maskBit b = true) :
    (keyBytes b).length = 4 := by
  rw [headerResident_iff_payoff, payoff_of_mask hm] at hr
  rw [keyBytes, slice_length (by simpa using hr)]
  simp

theorem extBytes_length {b : Bytes} (h : 2 + extw b ≤ b.length) : (slice b 2 (keyoff b)).length = extw b := by
  rw [slice_length (by simpa [keyoff] using h)]
  simp [keyoff]

/-- The declared length of a frame given in pieces. -/
theorem payloadLength_cons (b0 b1 : Byte) (e z : Bytes) (he : e.length = extw (b0 :: b1 :: (e ++ z))) :
    payloadLength (b0 :: b1 :: (e ++ z)) =
      if len7 (b0 :: b1 :: (e ++ z)) ≤ 125 then len7 (b0 :: b1 :: (e ++ z)) else ube e := by
  have hs : ∀ n, n = e.length → slice (b0 :: b1 :: (e ++ z)) 2 (2 + n) = e := by
    intro n hn
    subst hn
    simp [slice]
  rcases extw_cases (b0 :: b1 :: (e ++ z)) with ⟨h, h'⟩ | ⟨h, h'⟩ | ⟨h, h'⟩
  · simp [payloadLength, h, LIT_MAX]
  · simp only [payloadLength, h, LIT_MAX, ESC16, memRead]
    rw [hs 2 (by omega)]
    simp
  · simp only [payloadLength, h, LIT_MAX, ESC16, memRead]
    rw [hs 8 (by omega)]
    simp

end Sys2Proof.Machine
end

