-- ==== Sys2Proof/Laws/State.lean ====
section
/-! SUPPORT. One lemma per field per update of the state. -/

namespace Sys2Proof.Machine

@[simp] theorem State.respond_mem (s : State) (r : Response) : (s.respond r).mem = s.mem := rfl
@[simp] theorem State.respond_cmdIn (s : State) (r : Response) : (s.respond r).cmdIn = s.cmdIn := rfl
@[simp] theorem State.respond_rst (s : State) (r : Response) : (s.respond r).rst = s.rst := rfl
@[simp] theorem State.respond_port (s : State) (r : Response) : (s.respond r).port = .response r := rfl
@[simp] theorem State.respond_cfg (s : State) (r : Response) : (s.respond r).cfg = s.cfg := rfl
@[simp] theorem State.respond_buf (s : State) (r : Response) : (s.respond r).buf = s.buf := rfl
@[simp] theorem State.respond_len (s : State) (r : Response) : (s.respond r).len = s.len := rfl

@[simp] theorem State.silent_mem (s : State) : s.silent.mem = s.mem := rfl
@[simp] theorem State.silent_cmdIn (s : State) : s.silent.cmdIn = s.cmdIn := rfl
@[simp] theorem State.silent_rst (s : State) : s.silent.rst = s.rst := rfl
@[simp] theorem State.silent_port (s : State) : s.silent.port = .idle := rfl
@[simp] theorem State.silent_cfg (s : State) : s.silent.cfg = s.cfg := rfl
@[simp] theorem State.silent_buf (s : State) : s.silent.buf = s.buf := rfl
@[simp] theorem State.silent_len (s : State) : s.silent.len = s.len := rfl

@[simp] theorem State.setBuf_mem (s : State) (b : Bytes) : (s.setBuf b).mem = Memory.ofBytes b := rfl
@[simp] theorem State.setBuf_cmdIn (s : State) (b : Bytes) : (s.setBuf b).cmdIn = s.cmdIn := rfl
@[simp] theorem State.setBuf_rst (s : State) (b : Bytes) : (s.setBuf b).rst = s.rst := rfl
@[simp] theorem State.setBuf_port (s : State) (b : Bytes) : (s.setBuf b).port = s.port := rfl
@[simp] theorem State.setBuf_cfg (s : State) (b : Bytes) : (s.setBuf b).cfg = s.cfg := rfl

@[simp] theorem State.memWrite_cmdIn (s : State) (o n v : Nat) : (s.memWrite o n v).cmdIn = s.cmdIn := rfl
@[simp] theorem State.memWrite_rst (s : State) (o n v : Nat) : (s.memWrite o n v).rst = s.rst := rfl
@[simp] theorem State.memWrite_port (s : State) (o n v : Nat) : (s.memWrite o n v).port = s.port := rfl
@[simp] theorem State.memWrite_cfg (s : State) (o n v : Nat) : (s.memWrite o n v).cfg = s.cfg := rfl

@[simp] theorem State.withCmdIn_mem (s : State) (bs : Bytes) : (s.withCmdIn bs).mem = s.mem := rfl
@[simp] theorem State.withCmdIn_cmdIn (s : State) (bs : Bytes) : (s.withCmdIn bs).cmdIn = bs := rfl
@[simp] theorem State.withCmdIn_rst (s : State) (bs : Bytes) : (s.withCmdIn bs).rst = s.rst := rfl
@[simp] theorem State.withCmdIn_port (s : State) (bs : Bytes) : (s.withCmdIn bs).port = s.port := rfl
@[simp] theorem State.withCmdIn_cfg (s : State) (bs : Bytes) : (s.withCmdIn bs).cfg = s.cfg := rfl
@[simp] theorem State.withCmdIn_buf (s : State) (bs : Bytes) : (s.withCmdIn bs).buf = s.buf := rfl
@[simp] theorem State.withCmdIn_len (s : State) (bs : Bytes) : (s.withCmdIn bs).len = s.len := rfl

@[simp] theorem State.send_cmdIn (s : State) (bs : Bytes) : (s.send bs).cmdIn = s.cmdIn ++ bs := rfl
@[simp] theorem State.send_rst (s : State) (bs : Bytes) : (s.send bs).rst = s.rst := rfl

@[simp] theorem State.takeReset_mem (s : State) : s.takeReset.mem = [] := rfl
@[simp] theorem State.takeReset_cmdIn (s : State) : s.takeReset.cmdIn = [] := rfl
@[simp] theorem State.takeReset_rst (s : State) : s.takeReset.rst = false := rfl
@[simp] theorem State.takeReset_port (s : State) : s.takeReset.port = .idle := rfl
@[simp] theorem State.takeReset_cfg (s : State) : s.takeReset.cfg = s.cfg := rfl

end Sys2Proof.Machine
end

