-- ==== Sys2Proof/Laws/Exec.lean ====
section
/-! SUPPORT. What each shared operation can do, said once: how a command ends, the field operations, the
capacity test. Proofs about instructions cite these and do not unfold the operations. -/

namespace Sys2Proof.Machine

/-! ### How a command ends -/

/-- The outcome is a next state that differs from `s` in its buffer and its port alone. -/
def OnlyBufferAndPort (s : State) (o : Out) : Prop := ∃ m p, o = .next { s with mem := m, port := p }

theorem raise_eq (s : State) (e : ErrorCode) :
    raise s e = .next { s with port := .response (errorResponse e) } := rfl

theorem answer_eq (s : State) (r : Response) : answer s r = .next { s with port := .response r } := rfl

theorem answer_setBuf_eq (s : State) (b : Bytes) (r : Response) :
    answer (s.setBuf b) r = .next { s with mem := Memory.ofBytes b, port := .response r } := rfl

theorem raise_onlyBufferAndPort (s : State) (e : ErrorCode) : OnlyBufferAndPort s (raise s e) := ⟨_, _, rfl⟩

theorem answer_onlyBufferAndPort (s : State) (r : Response) : OnlyBufferAndPort s (answer s r) := ⟨_, _, rfl⟩

theorem answer_setBuf_onlyBufferAndPort (s : State) (b : Bytes) (r : Response) :
    OnlyBufferAndPort s (answer (s.setBuf b) r) := ⟨_, _, rfl⟩

theorem answer_setBits_onlyBufferAndPort (s : State) (o p w : Nat) (v : Byte) (r : Response) :
    OnlyBufferAndPort s (answer (s.setBits o p w v) r) := ⟨_, _, rfl⟩

@[simp] theorem parserOutputs_cons (b0 b1 : Byte) (rest : Bytes) :
    parserOutputs (b0 :: b1 :: rest) = headerLayout (decodeHeader b0 b1) (b0 :: b1 :: rest) := rfl

theorem parserPass_eq (l : Layout) (s : State) : parserPass l s = .next { s with port := .idle } := rfl

theorem parserPass_onlyBufferAndPort (l : Layout) (s : State) : OnlyBufferAndPort s (parserPass l s) :=
  ⟨_, _, rfl⟩

/-- The end every buffer-replacing command shares, either way. -/
theorem replaceBuffer_of_fits {s : State} {b : Bytes} (h : fitsBuffer s.cfg b.length = true) (r : Response) :
    replaceBuffer s b r = .next { s with mem := Memory.ofBytes b, port := .response r } := by
  simp [replaceBuffer, h, answer_setBuf_eq]

theorem replaceBuffer_of_not_fits {s : State} {b : Bytes} (h : fitsBuffer s.cfg b.length = false) (r : Response) :
    replaceBuffer s b r = raise s .overflow := by
  simp [replaceBuffer, h]

theorem replaceBuffer_onlyBufferAndPort (s : State) (b : Bytes) (r : Response) :
    OnlyBufferAndPort s (replaceBuffer s b r) := by
  cases h : fitsBuffer s.cfg b.length
  · rw [replaceBuffer_of_not_fits h]
    exact raise_onlyBufferAndPort s _
  · rw [replaceBuffer_of_fits h]
    exact ⟨_, _, rfl⟩

/-! ### Capacity -/

theorem fitsBuffer_eq_true_iff (c : Config) (n : Nat) :
    fitsBuffer c n = true ↔ ∀ m, c.bufMax = some m → n ≤ m := by
  cases h : c.bufMax <;> simp [fitsBuffer, h]

theorem fitsBuffer_eq_false_iff (c : Config) (n : Nat) :
    fitsBuffer c n = false ↔ ∃ m, c.bufMax = some m ∧ m < n := by
  cases h : c.bufMax <;> simp [fitsBuffer, h]

theorem fitsBuffer_mono {c : Config} {m n : Nat} (h : fitsBuffer c n = true) (hmn : m ≤ n) :
    fitsBuffer c m = true := by
  rw [fitsBuffer_eq_true_iff] at *
  intro k hk
  exact le_trans hmn (h k hk)

/-- Every unit holds the longest header (R4). -/
theorem fitsBuffer_header {c : Config} (h : c.wf = true) {n : Nat} (hn : n ≤ 14) : fitsBuffer c n = true := by
  rw [fitsBuffer_eq_true_iff]
  intro m hm
  simp [Config.wf, hm] at h
  omega

/-! ### The fields of byte 0 -/

/-- A setter on a canonical buffer that holds a frame: byte 0 alone is replaced. -/
theorem setBits_zero_eq {s : State} (hwf : s.mem.wf = true) {b0 b1 : Byte} {rest : Bytes}
    (hb : s.buf = b0 :: b1 :: rest) (pos w : Nat) (v : Byte) :
    s.setBits 0 pos w v = s.setBuf (withField b0 pos w v :: b1 :: rest) := by
  have hl : 0 + 1 ≤ s.len := by rw [← State.length_buf, hb]; simp
  rw [State.setBits, State.memWrite_eq hwf _ hl, hb]
  simp [be]

/-- A setter reaches no offset but 0, whatever the buffer. -/
theorem read_setBits_zero (s : State) (pos w : Nat) (v : Byte) {a : Nat} (h : a ≠ 0) :
    (s.setBits 0 pos w v).mem.read a = s.mem.read a := by
  simp only [State.setBits, State.memWrite]
  exact Memory.read_writeBytes_outside _ _ (by simp; omega)

theorem len_setBits (s : State) (o p w : Nat) (v : Byte) : (s.setBits o p w v).len = s.len := by
  simp [State.setBits, State.memWrite, State.len]

theorem wf_setBits (s : State) (o p w : Nat) (v : Byte) : (s.setBits o p w v).mem.wf = s.mem.wf :=
  Memory.wf_writeBytes _ _ _

/-! ### Buffers with a frame -/

theorem have2_eq_len (s : State) : have2 s.buf = decide (2 ≤ s.len) := by
  rw [← State.length_buf]
  rfl

theorem two_le_len_of_cons {s : State} {b0 b1 : Byte} {rest : Bytes} (h : s.buf = b0 :: b1 :: rest) :
    2 ≤ s.len := by
  rw [← State.length_buf, h]
  simp

theorem buf_cons_of_two_le {s : State} (h : 2 ≤ s.len) : ∃ b0 b1 rest, s.buf = b0 :: b1 :: rest :=
  ⟨_, _, _, cons_cons_of_two_le (by rw [State.length_buf]; exact h)⟩

end Sys2Proof.Machine
end

