-- ==== Sys2Proof/Laws/Frames.lean ====
section
/-! SUPPORT. Frames given in pieces, header byte by header byte: where the parser finds the pieces, what the length
encoder's pieces parse as, and what the frames the key and payload commands write parse as. -/

namespace Sys2Proof.Machine

theorem valOfCount_of_lt {n : Nat} (h : n < 2 ^ 64) : valOfCount n = BitVec.ofNat 64 n := by
  simp only [valOfCount, if_pos h]

theorem maskBit_cons (b0 b1 : Byte) (rest : Bytes) : maskBit (b0 :: b1 :: rest) = decide (b1 >>> 7 = 1#8) := by
  simp only [maskBit, byteAt_cons_one, beq_eq_decide]

theorem len7_cons (b0 b1 : Byte) (rest : Bytes) : len7 (b0 :: b1 :: rest) = (b1 &&& 0x7F#8).toNat := by
  simp only [len7, byteAt_cons_one]

/-- The mask bit does not reach into `len7`. -/
theorem len7_or_mask (b1 : Byte) : (b1 ||| 0x80#8) &&& 0x7F#8 = b1 &&& 0x7F#8 := by
  revert b1
  decide

theorem len7_clear_mask (b1 : Byte) : (b1 &&& 0x7F#8) &&& 0x7F#8 = b1 &&& 0x7F#8 := by
  revert b1
  decide

theorem mask_or_mask (b1 : Byte) : (b1 ||| 0x80#8) >>> 7 = 1#8 := by
  revert b1
  decide

theorem mask_clear_mask (b1 : Byte) : (b1 &&& 0x7F#8) >>> 7 = 0#8 := by
  revert b1
  decide

/-- The extended-length width is a function of byte 1's low seven bits. -/
theorem extw_congr_len7 {b c : Bytes} (h : len7 b = len7 c) : extw b = extw c := by
  simp only [extw, h]

/-- Where the pieces of a frame lie: after the two header bytes and the extended length. -/
theorem pieces_keyoff {b0 b1 : Byte} {e z : Bytes} (he : e.length = extw (b0 :: b1 :: (e ++ z))) :
    keyoff (b0 :: b1 :: (e ++ z)) = 2 + e.length ∧
    slice (b0 :: b1 :: (e ++ z)) 2 (keyoff (b0 :: b1 :: (e ++ z))) = e ∧
    (b0 :: b1 :: (e ++ z)).drop (keyoff (b0 :: b1 :: (e ++ z))) = z ∧
    slice (b0 :: b1 :: (e ++ z)) 0 (keyoff (b0 :: b1 :: (e ++ z))) = b0 :: b1 :: e := by
  have hk : keyoff (b0 :: b1 :: (e ++ z)) = 2 + e.length := by rw [he]; rfl
  rw [hk]
  have h2 : 2 + e.length = e.length + 1 + 1 := by omega
  refine ⟨rfl, by simp [slice], ?_, ?_⟩
  · rw [h2]
    simp
  · rw [slice, h2]
    simp

/-- A masked frame in pieces. -/
theorem pieces_masked {b0 b1 : Byte} {e k w : Bytes} (he : e.length = extw (b0 :: b1 :: (e ++ (k ++ w))))
    (hk : k.length = 4) (hm : b1 >>> 7 = 1#8) :
    maskBit (b0 :: b1 :: (e ++ (k ++ w))) = true ∧
    payoff (b0 :: b1 :: (e ++ (k ++ w))) = 2 + e.length + 4 ∧
    headerResident (b0 :: b1 :: (e ++ (k ++ w))) = true ∧
    keyBytes (b0 :: b1 :: (e ++ (k ++ w))) = k ∧
    wirePayload (b0 :: b1 :: (e ++ (k ++ w))) = w ∧
    plainPayload (b0 :: b1 :: (e ++ (k ++ w))) = transform w k ∧
    resident (b0 :: b1 :: (e ++ (k ++ w))) = w.length := by
  obtain ⟨h1, -, h3, -⟩ := pieces_keyoff he
  have hmb : maskBit (b0 :: b1 :: (e ++ (k ++ w))) = true := by rw [maskBit_cons, hm]; rfl
  have hp : payoff (b0 :: b1 :: (e ++ (k ++ w))) = 2 + e.length + 4 := by rw [payoff_of_mask hmb, h1]
  have hkb : keyBytes (b0 :: b1 :: (e ++ (k ++ w))) = k := by
    rw [keyBytes, slice, h3]
    simp [KEYW, ← hk]
  have hw : wirePayload (b0 :: b1 :: (e ++ (k ++ w))) = w := by
    rw [wirePayload, payoff_of_mask hmb, ← List.drop_drop, h3, ← hk, List.drop_left]
  refine ⟨hmb, hp, ?_, hkb, hw, ?_, ?_⟩
  · rw [headerResident_iff_payoff, hp]
    simp
    omega
  · rw [plainPayload, if_pos hmb, hw, hkb]
  · rw [resident, hp]
    simp
    omega

/-- An unmasked frame in pieces. -/
theorem pieces_unmasked {b0 b1 : Byte} {e w : Bytes} (he : e.length = extw (b0 :: b1 :: (e ++ w)))
    (hm : b1 >>> 7 ≠ 1#8) :
    maskBit (b0 :: b1 :: (e ++ w)) = false ∧ payoff (b0 :: b1 :: (e ++ w)) = 2 + e.length ∧
    headerResident (b0 :: b1 :: (e ++ w)) = true ∧ wirePayload (b0 :: b1 :: (e ++ w)) = w ∧
    plainPayload (b0 :: b1 :: (e ++ w)) = w ∧ resident (b0 :: b1 :: (e ++ w)) = w.length := by
  obtain ⟨h1, -, h3, -⟩ := pieces_keyoff he
  have hmb : maskBit (b0 :: b1 :: (e ++ w)) = false := by rw [maskBit_cons]; simpa using hm
  have hp : payoff (b0 :: b1 :: (e ++ w)) = 2 + e.length := by rw [payoff_of_not_mask hmb, h1]
  have hw : wirePayload (b0 :: b1 :: (e ++ w)) = w := by rw [wirePayload, payoff_of_not_mask hmb, h3]
  refine ⟨hmb, hp, ?_, hw, ?_, ?_⟩
  · rw [headerResident_iff_payoff, hp]
    simp
    omega
  · rw [plainPayload, hmb]
    exact hw
  · rw [resident, hp]
    simp
    omega

/-- A frame with its header resident is its pieces. -/
theorem eq_pieces_masked {b : Bytes} (h : headerResident b = true) (hm : maskBit b = true) :
    b = byteAt b 0 :: byteAt b 1 :: (slice b 2 (keyoff b) ++ (keyBytes b ++ wirePayload b)) := by
  have hl := (headerResident_iff_payoff b).1 h
  have hk := keyoff_le_payoff b
  have he := eq_header_append (b := b) (by simp only [keyoff] at hk; omega)
  rwa [drop_keyoff_eq hm] at he

theorem eq_pieces_unmasked {b : Bytes} (h : headerResident b = true) (hm : maskBit b = false) :
    b = byteAt b 0 :: byteAt b 1 :: (slice b 2 (keyoff b) ++ wirePayload b) := by
  have hl := (headerResident_iff_payoff b).1 h
  have hk := keyoff_le_payoff b
  have he := eq_header_append (b := b) (by simp only [keyoff] at hk; omega)
  rwa [wirePayload, payoff_of_not_mask hm]

theorem ext_length {b : Bytes} (h : headerResident b = true) : (slice b 2 (keyoff b)).length = extw b := by
  have hl := (headerResident_iff_payoff b).1 h
  have hk := keyoff_le_payoff b
  exact extBytes_length (by simp only [keyoff] at hk; omega)

/-! ### The length encoder -/

/-- The three cases of `EncodeLength` (R70). -/
theorem encodeLength_cases (n : Nat) :
    (n ≤ 125 ∧ encodeLength n = (BitVec.ofNat 8 n, [])) ∨
    (126 ≤ n ∧ n ≤ 65535 ∧ encodeLength n = (126#8, be 2 n)) ∨
    (65536 ≤ n ∧ encodeLength n = (127#8, be 8 n)) := by
  simp only [encodeLength, LIT_MAX, L16_MAX]
  by_cases h1 : n ≤ 125
  · simp [h1]
  · by_cases h2 : n ≤ 65535
    · simp [h1, h2]
      omega
    · simp [h1, h2]
      omega

/-- The encoder's initial length fits `len7`: the mask bit and it do not touch. -/
theorem encodeLength_initial (n : Nat) (m : Byte) (hm : m = 0x00#8 ∨ m = 0x80#8) :
    ((m ||| (encodeLength n).1) &&& 0x7F#8) = (encodeLength n).1 ∧
    ((m ||| (encodeLength n).1) >>> 7 = 1#8 ↔ m = 0x80#8) := by
  have key : ∀ x : Byte, x.toNat ≤ 127 → ∀ m : Byte, m = 0x00#8 ∨ m = 0x80#8 →
      ((m ||| x) &&& 0x7F#8) = x ∧ ((m ||| x) >>> 7 = 1#8 ↔ m = 0x80#8) := by
    intro x hx m hm
    have h1 : ∀ x : Byte, x.toNat ≤ 127 → ((0x00#8 ||| x) &&& 0x7F#8) = x ∧ (0x00#8 ||| x) >>> 7 ≠ 1#8 := by
      decide
    have h2 : ∀ x : Byte, x.toNat ≤ 127 → ((0x80#8 ||| x) &&& 0x7F#8) = x ∧ (0x80#8 ||| x) >>> 7 = 1#8 := by
      decide
    rcases hm with rfl | rfl
    · exact ⟨(h1 x hx).1, iff_of_false (h1 x hx).2 (by decide)⟩
    · exact ⟨(h2 x hx).1, iff_of_true (h2 x hx).2 rfl⟩
  apply key _ _ m hm
  rcases encodeLength_cases n with ⟨h, e⟩ | ⟨-, -, e⟩ | ⟨-, e⟩ <;> rw [e]
  · simp only [BitVec.toNat_ofNat]
    omega
  · exact (by decide : (126#8).toNat ≤ 127)
  · exact (by decide : (127#8).toNat ≤ 127)

/-- What the encoder's pieces parse as, whatever follows them. -/
theorem encodeLength_parses (n : Nat) (b0 m : Byte) (rest : Bytes) (hm : m = 0x00#8 ∨ m = 0x80#8) :
    extw (b0 :: (m ||| (encodeLength n).1) :: ((encodeLength n).2 ++ rest)) = (encodeLength n).2.length ∧
    (n < 2 ^ 64 → payloadLength (b0 :: (m ||| (encodeLength n).1) :: ((encodeLength n).2 ++ rest)) = n) := by
  have hl : len7 (b0 :: (m ||| (encodeLength n).1) :: ((encodeLength n).2 ++ rest)) = (encodeLength n).1.toNat := by
    rw [len7_cons, (encodeLength_initial n m hm).1]
  have hx : extw (b0 :: (m ||| (encodeLength n).1) :: ((encodeLength n).2 ++ rest)) = (encodeLength n).2.length := by
    simp only [extw, hl, LIT_MAX, ESC16]
    rcases encodeLength_cases n with ⟨h, e⟩ | ⟨-, -, e⟩ | ⟨-, e⟩ <;> rw [e]
    · have : n % 256 ≤ 125 := by omega
      simp [this]
    · simp
    · simp
  refine ⟨hx, fun hn => ?_⟩
  rw [payloadLength_cons _ _ _ _ hx.symm, hl]
  rcases encodeLength_cases n with ⟨h, e⟩ | ⟨-, h, e⟩ | ⟨-, e⟩ <;> rw [e]
  · have h2 : n % 256 = n := by omega
    simp [h, h2]
  · exact ube_be (by omega)
  · exact ube_be (by omega)

/-! ### The predicates, and what appending and a new byte 0 do to them -/

theorem frameComplete_iff (b : Bytes) :
    frameComplete b = true ↔ headerResident b = true ∧ payloadLength b ≤ resident b := by
  simp only [frameComplete]
  cases headerResident b <;> simp

theorem frameValid_iff (c : Config) (b : Bytes) :
    frameValid c b = true ↔
      headerResident b = true ∧ resident b = payloadLength b ∧ protocolLegal c (byteAt b 0) = true := by
  simp only [frameValid, rawValid, MINFRAME]
  cases h : headerResident b
  · simp
  · have := ((headerResident_iff b).1 h).1
    simp [this]

/-- With the header resident, bytes at the end only add to the resident payload (R65). -/
theorem headerResident_append {b : Bytes} (d : Bytes) (h : headerResident b = true) :
    headerResident (b ++ d) = true ∧ payoff (b ++ d) = payoff b ∧ payloadLength (b ++ d) = payloadLength b ∧
    resident (b ++ d) = resident b + d.length ∧ byteAt (b ++ d) 0 = byteAt b 0 := by
  have h1 := (headerResident_iff b).1 h
  have hb : ∀ i, i < b.length → byteAt (b ++ d) i = byteAt b i := by
    intro i hi
    simp only [byteAt, List.getD_eq_getElem?_getD]
    rw [List.getElem?_append_left hi]
  obtain ⟨-, -, c3, -, c5⟩ := parser_congr (hb 1 (by omega))
  refine ⟨by rw [headerResident_iff, c5, List.length_append]; omega, c5,
    payloadLength_congr (hb 1 (by omega)) ?_, by simp only [resident, c5, List.length_append]; omega,
    hb 0 (by omega)⟩
  rw [c3]
  exact slice_append _ (le_trans (keyoff_le_payoff b) h1.2) (two_le_keyoff _)

/-- Nothing the parser does looks at byte 0. -/
theorem parser_byte_zero (b0 v b1 : Byte) (rest : Bytes) :
    payloadLength (v :: b1 :: rest) = payloadLength (b0 :: b1 :: rest) ∧
    headerResident (v :: b1 :: rest) = headerResident (b0 :: b1 :: rest) ∧
    keyBytes (v :: b1 :: rest) = keyBytes (b0 :: b1 :: rest) ∧
    wirePayload (v :: b1 :: rest) = wirePayload (b0 :: b1 :: rest) := by
  obtain ⟨-, -, c3, -, c5⟩ := parser_congr (b := v :: b1 :: rest) (c := b0 :: b1 :: rest) rfl
  have hd : ∀ n, 2 ≤ n → (v :: b1 :: rest).drop n = (b0 :: b1 :: rest).drop n := by
    intro n hn
    obtain ⟨k, rfl⟩ := Nat.exists_eq_add_of_le' hn
    rfl
  have hk := two_le_keyoff (b0 :: b1 :: rest)
  refine ⟨payloadLength_congr rfl (by rw [c3]; rfl), ?_, ?_, ?_⟩
  · rw [Bool.eq_iff_iff, headerResident_iff, headerResident_iff, c5]
    rfl
  · simp only [keyBytes, c3, slice, hd _ hk]
  · simp only [wirePayload, c5, hd _ (le_trans hk (keyoff_le_payoff _))]

/-! ### What the frames written by the commands parse as -/

theorem mask_part (b1 : Byte) : b1 &&& 0x80#8 = if b1 >>> 7 = 1#8 then 0x80#8 else 0x00#8 := by
  revert b1
  decide

theorem transform_transform (s k : Bytes) : transform (transform s k) k = s := transformFrom_transformFrom 0 k s

/-- A frame of a kept byte 0, an encoded length, a key or none, and the masked or plain payload. -/
theorem encoded_frame_parses (b0 : Byte) (p : Bytes) (key : Option Bytes) {n : Bytes}
    (hn : n = b0 :: ((if key.isSome then 0x80#8 else 0x00#8) ||| (encodeLength p.length).1) ::
      ((encodeLength p.length).2 ++ key.elim p fun k => k ++ transform p k))
    (hk : ∀ k, key = some k → k.length = 4) :
    headerResident n = true ∧ plainPayload n = p ∧ resident n = p.length ∧
    (p.length < 2 ^ 64 → payloadLength n = p.length) ∧ maskBit n = key.isSome ∧
    (∀ k, key = some k → keyBytes n = k) ∧ extw n = (encodeLength p.length).2.length ∧ byteAt n 0 = b0 := by
  subst hn
  cases key with
  | none =>
    obtain ⟨a, c⟩ := encodeLength_parses p.length b0 0x00#8 p (.inl rfl)
    obtain ⟨c1, -, c3, -, c5, c6⟩ :=
      pieces_unmasked a.symm (by rw [Ne, (encodeLength_initial _ _ (.inl rfl)).2]; decide)
    exact ⟨c3, c5, c6, c, c1, by simp, a, rfl⟩
  | some k =>
    obtain ⟨a, c⟩ := encodeLength_parses p.length b0 0x80#8 (k ++ transform p k) (.inr rfl)
    obtain ⟨c1, -, c3, c4, -, c6, c7⟩ :=
      pieces_masked a.symm (hk k rfl) (by rw [(encodeLength_initial _ _ (.inr rfl)).2])
    refine ⟨c3, c6.trans (transform_transform _ _), c7.trans (transform_length _ _), c, c1, ?_, a, rfl⟩
    rintro k' ⟨⟩
    exact c4

/-- The frame encoder's frame (R122). -/
theorem buildFrame_parses (d : Descriptor) (hk : ∀ k, d.maskingKey = some k → k.length = 4) :
    headerResident (buildFrame d) = true ∧ plainPayload (buildFrame d) = d.payload.getD [] ∧
    resident (buildFrame d) = (d.payload.getD []).length ∧
    ((d.payload.getD []).length < 2 ^ 64 → payloadLength (buildFrame d) = (d.payload.getD []).length) ∧
    maskBit (buildFrame d) = d.maskingKey.isSome ∧ (∀ k, d.maskingKey = some k → keyBytes (buildFrame d) = k) ∧
    extw (buildFrame d) = (encodeLength (d.payload.getD []).length).2.length ∧
    byteAt (buildFrame d) 0 = ((d.fin.getD 0#8 <<< 7) ||| (d.rsv1.getD 0#8 <<< 6) ||| (d.rsv2.getD 0#8 <<< 5) |||
      (d.rsv3.getD 0#8 <<< 4) ||| d.opcode.getD 0#8) := by
  refine encoded_frame_parses _ _ _ ?_ hk
  cases h : d.maskingKey <;> simp [buildFrame, h]

/-- The frame `SET_PAYLOAD` writes (R159). -/
theorem repayloadedFrame_parses {b : Bytes} (data : Bytes) (hr : headerResident b = true) :
    headerResident (repayloadedFrame b data) = true ∧ plainPayload (repayloadedFrame b data) = data ∧
    resident (repayloadedFrame b data) = data.length ∧
    (data.length < 2 ^ 64 → payloadLength (repayloadedFrame b data) = data.length) ∧
    byteAt (repayloadedFrame b data) 0 = byteAt b 0 := by
  cases hm : maskBit b
  · have h1 : byteAt b 1 >>> 7 ≠ 1#8 := by simpa [maskBit] using hm
    obtain ⟨h1, h2, h3, h4, -, -, -, h8⟩ := encoded_frame_parses (byteAt b 0) data none
      (n := repayloadedFrame b data) (by simp [repayloadedFrame, hm, mask_part, h1]) (by simp)
    exact ⟨h1, h2, h3, h4, h8⟩
  · have h1 : byteAt b 1 >>> 7 = 1#8 := by simpa [maskBit] using hm
    obtain ⟨h1, h2, h3, h4, -, -, -, h8⟩ := encoded_frame_parses (byteAt b 0) data (some (keyBytes b))
      (n := repayloadedFrame b data) (by simp [repayloadedFrame, hm, mask_part, h1])
      (by rintro k ⟨⟩; exact keyBytes_length hr hm)
    exact ⟨h1, h2, h3, h4, h8⟩

/-- The frame a non-null `REMOVE_PAYLOAD` writes (R160). -/
theorem unpayloadedFrame_parses {b : Bytes} (hr : headerResident b = true) :
    headerResident (unpayloadedFrame b) = true ∧ byteAt (unpayloadedFrame b) 0 = byteAt b 0 ∧
    resident (unpayloadedFrame b) = 0 ∧ payloadLength (unpayloadedFrame b) = 0 := by
  have he : encodeLength ([] : Bytes).length = (0#8, []) := rfl
  cases hm : maskBit b
  · have h1 : byteAt b 1 >>> 7 ≠ 1#8 := by simpa [maskBit] using hm
    obtain ⟨h1, -, h3, h4, -, -, -, h8⟩ := encoded_frame_parses (byteAt b 0) [] none
      (n := unpayloadedFrame b) (by rw [he]; simp [unpayloadedFrame, hm, mask_part, h1]) (by simp)
    exact ⟨h1, h8, h3, h4 (Nat.two_pow_pos 64)⟩
  · have h1 : byteAt b 1 >>> 7 = 1#8 := by simpa [maskBit] using hm
    obtain ⟨h1, -, h3, h4, -, -, -, h8⟩ := encoded_frame_parses (byteAt b 0) [] (some (keyBytes b))
      (n := unpayloadedFrame b) (by rw [he]; simp [unpayloadedFrame, hm, mask_part, h1, transform, transformFrom])
      (by rintro k ⟨⟩; exact keyBytes_length hr hm)
    exact ⟨h1, h8, h3, h4 (Nat.two_pow_pos 64)⟩

/-! ### Frames whose key changes -/

/-- What a change of the key alone keeps: byte 0, `len7`, the extended length, the plaintext, the counts (R161, R162). -/
structure SameButKey (b n : Bytes) : Prop where
  header : headerResident n = true
  plain  : plainPayload n = plainPayload b
  byte0  : byteAt n 0 = byteAt b 0
  len7   : len7 n = len7 b
  ext    : slice n 2 (keyoff n) = slice b 2 (keyoff b)
  paylen : payloadLength n = payloadLength b
  count  : resident n = resident b

theorem SameButKey.complete {b n : Bytes} (h : SameButKey b n) (hr : headerResident b = true) :
    frameComplete n = frameComplete b := by
  rw [Bool.eq_iff_iff, frameComplete_iff, frameComplete_iff, h.header, hr, h.paylen, h.count]

theorem SameButKey.valid {b n : Bytes} (h : SameButKey b n) (hr : headerResident b = true) (c : Config) :
    frameValid c n = frameValid c b := by
  rw [Bool.eq_iff_iff, frameValid_iff, frameValid_iff, h.header, hr, h.paylen, h.count, h.byte0]

/-- The frame of `b`'s header with byte 1's mask bit set, the key `k` and the wire payload `w`. -/
theorem sameButKey_masked {b k w : Bytes} (b1 : Byte) (hr : headerResident b = true)
    (h7 : b1 &&& 0x7F#8 = byteAt b 1 &&& 0x7F#8) (hm : b1 >>> 7 = 1#8) (hk : k.length = 4)
    (hp : transform w k = plainPayload b) {n : Bytes}
    (hn : n = byteAt b 0 :: b1 :: (slice b 2 (keyoff b) ++ (k ++ w))) : SameButKey b n := by
  subst hn
  have hl : len7 (byteAt b 0 :: b1 :: (slice b 2 (keyoff b) ++ (k ++ w))) = len7 b := by rw [len7_cons, h7]; rfl
  have he : (slice b 2 (keyoff b)).length = extw (byteAt b 0 :: b1 :: (slice b 2 (keyoff b) ++ (k ++ w))) := by
    rw [extw_congr_len7 hl]
    exact ext_length hr
  obtain ⟨-, -, c3, -, -, c6, c7⟩ := pieces_masked he hk hm
  have hpl : w.length = resident b := by
    have := congrArg List.length hp
    simp only [transform_length, plainPayload, wirePayload] at this
    rw [this, resident]
    cases maskBit b <;> simp
  refine ⟨c3, c6.trans hp, rfl, hl, (pieces_keyoff he).2.1, ?_, c7.trans hpl⟩
  have h2 := cons_cons_of_two_le ((headerResident_iff b).1 hr).1
  have hx := eq_header_append (b := b) (by
    have := ((headerResident_iff b).1 hr).2
    have := keyoff_le_payoff b
    simp only [keyoff] at this
    omega)
  have hb : payloadLength b = if len7 b ≤ 125 then len7 b else ube (slice b 2 (keyoff b)) := by
    have := payloadLength_cons (byteAt b 0) (byteAt b 1) (slice b 2 (keyoff b)) (b.drop (keyoff b))
      (by rw [← hx]; exact ext_length hr)
    rwa [← hx] at this
  rw [payloadLength_cons _ _ _ _ he, hl, hb]

/-- The frame of `b`'s header with byte 1's mask bit clear and the wire payload `w`. -/
theorem sameButKey_unmasked {b w : Bytes} (b1 : Byte) (hr : headerResident b = true)
    (h7 : b1 &&& 0x7F#8 = byteAt b 1 &&& 0x7F#8) (hm : b1 >>> 7 ≠ 1#8) (hp : w = plainPayload b) {n : Bytes}
    (hn : n = byteAt b 0 :: b1 :: (slice b 2 (keyoff b) ++ w)) : SameButKey b n := by
  subst hn
  have hl : len7 (byteAt b 0 :: b1 :: (slice b 2 (keyoff b) ++ w)) = len7 b := by rw [len7_cons, h7]; rfl
  have he : (slice b 2 (keyoff b)).length = extw (byteAt b 0 :: b1 :: (slice b 2 (keyoff b) ++ w)) := by
    rw [extw_congr_len7 hl]
    exact ext_length hr
  obtain ⟨-, -, c3, -, c5, c6⟩ := pieces_unmasked he hm
  have hpl : w.length = resident b := by
    have := congrArg List.length hp
    simp only [plainPayload, wirePayload] at this
    rw [this, resident]
    cases maskBit b <;> simp
  refine ⟨c3, c5.trans hp, rfl, hl, (pieces_keyoff he).2.1, ?_, c6.trans hpl⟩
  have hx := eq_header_append (b := b) (by
    have := ((headerResident_iff b).1 hr).2
    have := keyoff_le_payoff b
    simp only [keyoff] at this
    omega)
  have hb : payloadLength b = if len7 b ≤ 125 then len7 b else ube (slice b 2 (keyoff b)) := by
    have := payloadLength_cons (byteAt b 0) (byteAt b 1) (slice b 2 (keyoff b)) (b.drop (keyoff b))
      (by rw [← hx]; exact ext_length hr)
    rwa [← hx] at this
  rw [payloadLength_cons _ _ _ _ he, hl, hb]

/-- The frame `SET_KEY` writes over a key in place (R156). -/
theorem rekeyedFrame_sameButKey {b key : Bytes} (hr : headerResident b = true) (hm : maskBit b = true)
    (hk : key.length = 4) : SameButKey b (rekeyedFrame b key) := by
  refine sameButKey_masked (byteAt b 1) hr rfl (by simpa [maskBit] using hm) hk (w := transform (plainPayload b) key)
    (transform_transform _ _) ?_
  have h0 : slice b 0 (keyoff b) = byteAt b 0 :: byteAt b 1 :: slice b 2 (keyoff b) := by
    have hx := eq_pieces_masked hr hm
    have h := (pieces_keyoff (b0 := byteAt b 0) (b1 := byteAt b 1) (e := slice b 2 (keyoff b))
      (z := keyBytes b ++ wirePayload b) (by rw [← hx]; exact ext_length hr)).2.2.2
    rwa [← hx] at h
  simp [rekeyedFrame, h0, plainPayload, hm]

/-- The frame `SET_KEY` writes where there is no key (R156). -/
theorem keyedFrame_sameButKey {b key : Bytes} (hr : headerResident b = true) (hm : maskBit b = false)
    (hk : key.length = 4) : SameButKey b (keyedFrame b key) := by
  refine sameButKey_masked (byteAt b 1 ||| 0x80#8) hr (len7_or_mask _) (mask_or_mask _) hk
    (w := transform (plainPayload b) key) (transform_transform _ _) ?_
  simp [keyedFrame, plainPayload, hm]

/-- The frame `REMOVE_KEY` writes (R157). -/
theorem unkeyedFrame_sameButKey {b : Bytes} (hr : headerResident b = true) (hm : maskBit b = true) :
    SameButKey b (unkeyedFrame b) := by
  refine sameButKey_unmasked (byteAt b 1 &&& 0x7F#8) hr (len7_clear_mask _) (by rw [mask_clear_mask]; decide) rfl ?_
  simp [unkeyedFrame, plainPayload, hm]

end Sys2Proof.Machine
end

