-- ==== Sys2Proof/Laws/PerInstr.lean ====
section
/-! SUPPORT. The one statement made for every instruction as syntax: its encoding lies in the group of
30_encoding.md R71 that says whether it may change the buffer. -/

/-- The first byte of a command has group 0 or 2 exactly if the command may change the buffer, and 1 or 3
exactly if it may not; a header form is two bytes. -/
def Sys2Proof.Laws.CommandGroup.Statement (i : Sys2Proof.Instr) : Prop :=
  (i.isHeader = false → ∃ c operands, Sys2Proof.encode i = c :: operands ∧ c >>> 4 < 4#8 ∧
    (i.readOnly = true ↔ c >>> 4 = 1#8 ∨ c >>> 4 = 3#8)) ∧
  (i.isHeader = true → i.readOnly = true ∧ ∃ b0 b1, Sys2Proof.encode i = [b0, b1])

theorem Sys2Proof.Laws.commandGroup (i : Sys2Proof.Instr) : Sys2Proof.Laws.CommandGroup.Statement i := by
  cases i <;> first
    | exact ⟨fun _ => ⟨_, _, rfl, by decide, by simp [Sys2Proof.Instr.readOnly]⟩, nofun⟩
    | exact ⟨nofun, fun _ => ⟨rfl, _, _, rfl⟩⟩

theorem Sys2Proof.Laws.CommandGroup.load (data : Sys2Proof.Bytes) :
    Sys2Proof.Laws.CommandGroup.Statement (.load data) :=
  Sys2Proof.Laws.commandGroup _

theorem Sys2Proof.Laws.CommandGroup.build (d : Sys2Proof.Descriptor) :
    Sys2Proof.Laws.CommandGroup.Statement (.build d) :=
  Sys2Proof.Laws.commandGroup _

theorem Sys2Proof.Laws.CommandGroup.append (data : Sys2Proof.Bytes) :
    Sys2Proof.Laws.CommandGroup.Statement (.append data) :=
  Sys2Proof.Laws.commandGroup _

theorem Sys2Proof.Laws.CommandGroup.getFin :
    Sys2Proof.Laws.CommandGroup.Statement .getFin :=
  Sys2Proof.Laws.commandGroup _

theorem Sys2Proof.Laws.CommandGroup.getRsv1 :
    Sys2Proof.Laws.CommandGroup.Statement .getRsv1 :=
  Sys2Proof.Laws.commandGroup _

theorem Sys2Proof.Laws.CommandGroup.getRsv2 :
    Sys2Proof.Laws.CommandGroup.Statement .getRsv2 :=
  Sys2Proof.Laws.commandGroup _

theorem Sys2Proof.Laws.CommandGroup.getRsv3 :
    Sys2Proof.Laws.CommandGroup.Statement .getRsv3 :=
  Sys2Proof.Laws.commandGroup _

theorem Sys2Proof.Laws.CommandGroup.getOpcode :
    Sys2Proof.Laws.CommandGroup.Statement .getOpcode :=
  Sys2Proof.Laws.commandGroup _

theorem Sys2Proof.Laws.CommandGroup.getMask :
    Sys2Proof.Laws.CommandGroup.Statement .getMask :=
  Sys2Proof.Laws.commandGroup _

theorem Sys2Proof.Laws.CommandGroup.getLen7 :
    Sys2Proof.Laws.CommandGroup.Statement .getLen7 :=
  Sys2Proof.Laws.commandGroup _

theorem Sys2Proof.Laws.CommandGroup.getExtw :
    Sys2Proof.Laws.CommandGroup.Statement .getExtw :=
  Sys2Proof.Laws.commandGroup _

theorem Sys2Proof.Laws.CommandGroup.getKeyoff :
    Sys2Proof.Laws.CommandGroup.Statement .getKeyoff :=
  Sys2Proof.Laws.commandGroup _

theorem Sys2Proof.Laws.CommandGroup.getPayoff :
    Sys2Proof.Laws.CommandGroup.Statement .getPayoff :=
  Sys2Proof.Laws.commandGroup _

theorem Sys2Proof.Laws.CommandGroup.getResident :
    Sys2Proof.Laws.CommandGroup.Statement .getResident :=
  Sys2Proof.Laws.commandGroup _

theorem Sys2Proof.Laws.CommandGroup.getPaylen :
    Sys2Proof.Laws.CommandGroup.Statement .getPaylen :=
  Sys2Proof.Laws.commandGroup _

theorem Sys2Proof.Laws.CommandGroup.getKey :
    Sys2Proof.Laws.CommandGroup.Statement .getKey :=
  Sys2Proof.Laws.commandGroup _

theorem Sys2Proof.Laws.CommandGroup.getPayload :
    Sys2Proof.Laws.CommandGroup.Statement .getPayload :=
  Sys2Proof.Laws.commandGroup _

theorem Sys2Proof.Laws.CommandGroup.isComplete :
    Sys2Proof.Laws.CommandGroup.Statement .isComplete :=
  Sys2Proof.Laws.commandGroup _

theorem Sys2Proof.Laws.CommandGroup.isValid :
    Sys2Proof.Laws.CommandGroup.Statement .isValid :=
  Sys2Proof.Laws.commandGroup _

theorem Sys2Proof.Laws.CommandGroup.setFin (arg : Sys2Proof.Byte) :
    Sys2Proof.Laws.CommandGroup.Statement (.setFin arg) :=
  Sys2Proof.Laws.commandGroup _

theorem Sys2Proof.Laws.CommandGroup.setRsv1 (arg : Sys2Proof.Byte) :
    Sys2Proof.Laws.CommandGroup.Statement (.setRsv1 arg) :=
  Sys2Proof.Laws.commandGroup _

theorem Sys2Proof.Laws.CommandGroup.setRsv2 (arg : Sys2Proof.Byte) :
    Sys2Proof.Laws.CommandGroup.Statement (.setRsv2 arg) :=
  Sys2Proof.Laws.commandGroup _

theorem Sys2Proof.Laws.CommandGroup.setRsv3 (arg : Sys2Proof.Byte) :
    Sys2Proof.Laws.CommandGroup.Statement (.setRsv3 arg) :=
  Sys2Proof.Laws.commandGroup _

theorem Sys2Proof.Laws.CommandGroup.setOpcode (arg : Sys2Proof.Byte) :
    Sys2Proof.Laws.CommandGroup.Statement (.setOpcode arg) :=
  Sys2Proof.Laws.commandGroup _

theorem Sys2Proof.Laws.CommandGroup.setKey (key : Sys2Proof.Bytes) :
    Sys2Proof.Laws.CommandGroup.Statement (.setKey key) :=
  Sys2Proof.Laws.commandGroup _

theorem Sys2Proof.Laws.CommandGroup.removeKey :
    Sys2Proof.Laws.CommandGroup.Statement .removeKey :=
  Sys2Proof.Laws.commandGroup _

theorem Sys2Proof.Laws.CommandGroup.setPayload (data : Sys2Proof.Bytes) :
    Sys2Proof.Laws.CommandGroup.Statement (.setPayload data) :=
  Sys2Proof.Laws.commandGroup _

theorem Sys2Proof.Laws.CommandGroup.removePayload :
    Sys2Proof.Laws.CommandGroup.Statement .removePayload :=
  Sys2Proof.Laws.commandGroup _

theorem Sys2Proof.Laws.CommandGroup.xform (key : Sys2Proof.Bytes) (data : Sys2Proof.Bytes) :
    Sys2Proof.Laws.CommandGroup.Statement (.xform key data) :=
  Sys2Proof.Laws.commandGroup _

theorem Sys2Proof.Laws.CommandGroup.hdrL7U (h : Sys2Proof.HdrByte0) (len7 : BitVec 7) :
    Sys2Proof.Laws.CommandGroup.Statement (.hdrL7U h len7) :=
  Sys2Proof.Laws.commandGroup _

theorem Sys2Proof.Laws.CommandGroup.hdrL7M (h : Sys2Proof.HdrByte0) (len7 : BitVec 7) :
    Sys2Proof.Laws.CommandGroup.Statement (.hdrL7M h len7) :=
  Sys2Proof.Laws.commandGroup _

theorem Sys2Proof.Laws.CommandGroup.hdrL16U (h : Sys2Proof.HdrByte0) :
    Sys2Proof.Laws.CommandGroup.Statement (.hdrL16U h) :=
  Sys2Proof.Laws.commandGroup _

theorem Sys2Proof.Laws.CommandGroup.hdrL16M (h : Sys2Proof.HdrByte0) :
    Sys2Proof.Laws.CommandGroup.Statement (.hdrL16M h) :=
  Sys2Proof.Laws.commandGroup _

theorem Sys2Proof.Laws.CommandGroup.hdrL64U (h : Sys2Proof.HdrByte0) :
    Sys2Proof.Laws.CommandGroup.Statement (.hdrL64U h) :=
  Sys2Proof.Laws.commandGroup _

theorem Sys2Proof.Laws.CommandGroup.hdrL64M (h : Sys2Proof.HdrByte0) :
    Sys2Proof.Laws.CommandGroup.Statement (.hdrL64M h) :=
  Sys2Proof.Laws.commandGroup _
end

