-- ==== Sys2Proof/Tests/Slice0.lean ====
section
/-! SUPPORT. The model's own tests. Expected results are the spec's: 95_test_vectors.md (section named at each
test), else hand calculation from the rule named. Each runs one step or one decoding. -/

namespace Sys2Proof.Tests

open Sys2Proof Sys2Proof.Machine

/-- A unit of capacity `max` whose buffer holds `b`. -/
def unit (max : Option Nat) (b : Bytes) : State :=
  { mem := Memory.ofBytes b, cmdIn := [], rst := false, port := .idle, cfg := { bufMax := max, rejects := [] } }

/-- A unit with the default parameters whose buffer holds `b`. -/
def frame (b : Bytes) : State := unit none b

def rOk : Response := { err := .ok, null := false, val := 0, out := [] }
def rNull : Response := { err := .ok, null := true, val := 0, out := [] }
def rVal (v : Val) : Response := { err := .ok, null := false, val := v, out := [] }
def rOut (o : Bytes) : Response := { err := .ok, null := false, val := 0, out := o }
def rErr (e : ErrorCode) : Response := { err := e, null := false, val := 0, out := [] }

/-- `o` is the next state that differs from `s` in holding `after` and having put out `r`. -/
def ends (o : Out) (s : State) (r : Response) (after : Bytes) : Bool :=
  match o with
  | .next t => t == { s with mem := Memory.ofBytes after, port := .response r }
  | _       => false

/-- The command `i` on a unit whose buffer holds `b`. -/
def does (b : Bytes) (i : Instr) (r : Response) (after : Bytes) : Bool := ends (exec i (frame b)) (frame b) r after

/-- A read: the buffer as before. -/
def reads (b : Bytes) (i : Instr) (r : Response) : Bool := does b i r b

/-- What a step puts on the port. -/
def puts (o : Out) (p : Port) : Bool :=
  match o with
  | .next t => t.port == p
  | _       => false

def hello : Bytes := [0x48, 0x65, 0x6C, 0x6C, 0x6F]
def frameA : Bytes := [0x81, 0x03, 0x61, 0x62, 0x63]
def plainHello : Bytes := [0x81, 0x05, 0x48, 0x65, 0x6C, 0x6C, 0x6F]
def maskedHello : Bytes := [0x81, 0x85, 0x37, 0xFA, 0x21, 0x3D, 0x7F, 0x9F, 0x4D, 0x51, 0x58]
def keyHello : Bytes := [0x37, 0xFA, 0x21, 0x3D]
def key1234 : Bytes := [0x01, 0x02, 0x03, 0x04]
def noFields : Descriptor := ⟨false, none, none, none, none, none, none, none⟩

/-! ### Well-formedness: each check refuses an ill-formed term -/

theorem keyEncodable_zeros (n : Nat) : keyEncodable (List.replicate n 0) = decide (n ≤ 255) := by
  rw [keyEncodable, List.length_replicate]

theorem wf_xform (key data : Bytes) : (Instr.xform key data).wf = (keyEncodable key && dataEncodable data) := rfl

theorem wf_build_key (key : Bytes) :
    (Instr.build { noFields with maskingKey := some key }).wf = (keyEncodable key && true) := rfl

theorem wf_build_payload (p : Bytes) : (Instr.build { noFields with payload := some p }).wf = dataEncodable p := rfl

theorem test_wf_key_too_long : (Instr.setKey (List.replicate 256 0)).wf = false :=
  (keyEncodable_zeros 256).trans (by decide)
theorem test_wf_key_longest : (Instr.setKey (List.replicate 255 0)).wf = true :=
  (keyEncodable_zeros 255).trans (by decide)
theorem test_wf_xform_key_too_long : (Instr.xform (List.replicate 256 0) []).wf = false := by
  rw [wf_xform, keyEncodable_zeros]
  decide
theorem test_wf_build_key_too_long :
    (Instr.build { noFields with maskingKey := some (List.replicate 256 0) }).wf = false := by
  rw [wf_build_key, keyEncodable_zeros]
  decide
theorem test_wf_l7u_escape : (Instr.hdrL7U ⟨0, 0, 0, 0, 0⟩ 126).wf = false := by decide
theorem test_wf_l7m_escape : (Instr.hdrL7M ⟨0, 0, 0, 0, 0⟩ 127).wf = false := by decide

/-- A sequence of 2^64 bytes has no `DLEN`. -/
theorem dataEncodable_too_long : dataEncodable (List.replicate (2 ^ 64) 0) = false := by
  rw [dataEncodable, List.length_replicate]
  decide

theorem test_wf_load_too_long : (Instr.load (List.replicate (2 ^ 64) 0)).wf = false := dataEncodable_too_long
theorem test_wf_append_too_long : (Instr.append (List.replicate (2 ^ 64) 0)).wf = false := dataEncodable_too_long
theorem test_wf_setPayload_too_long : (Instr.setPayload (List.replicate (2 ^ 64) 0)).wf = false :=
  dataEncodable_too_long
theorem test_wf_xform_data_too_long : (Instr.xform [] (List.replicate (2 ^ 64) 0)).wf = false := by
  rw [wf_xform, dataEncodable_too_long]
  rfl
theorem test_wf_build_payload_too_long :
    (Instr.build { noFields with payload := some (List.replicate (2 ^ 64) 0) }).wf = false :=
  (wf_build_payload _).trans dataEncodable_too_long

/-! ### Decoding: every constructor, from words written out (30_encoding.md R72, R74-R76, R61; section 2.10) -/

theorem test_decode_construction :
    decodePacket [0x01#8, 0, 0, 0, 0, 0, 0, 0, 5, 0x81, 0x03, 0x61, 0x62, 0x63] = .command (.load frameA) [] ∧
    decodePacket [0x03#8, 0, 0, 0, 0, 0, 0, 0, 2, 0x7E, 0x01] = .command (.append [0x7E, 0x01]) [] ∧
    decodePacket [0x02#8, 0x00] = .command (.build noFields) [] ∧
    decodePacket [0x02#8, 0x20, 4, 1, 2, 3, 4] = .command (.build { noFields with maskingKey := some key1234 }) [] ∧
    decodePacket [0x02#8, 0x51, 1, 1, 0, 0, 0, 0, 0, 0, 0, 3, 0x61, 0x62, 0x63] =
      .command (.build { noFields with fin := some 1, opcode := some 1, payload := some [0x61, 0x62, 0x63] }) [] := by
  decide

theorem test_decode_build_all_fields :
    decodePacket [0x02#8, 0x7F, 1, 2, 3, 4, 0x0F, 4, 0, 0, 0, 0, 0, 0, 0, 0, 0, 0, 0, 2, 5, 6] =
      .command (.build ⟨false, some 1, some 2, some 3, some 4, some 0x0F, some [0, 0, 0, 0], some [5, 6]⟩) [] ∧
    decodePacket [0x02#8, 0x81, 7, 9] = .command (.build { noFields with presBit7 := true, fin := some 7 }) [9] := by
  decide

theorem test_decode_fields :
    [0x10#8, 0x11, 0x12, 0x13, 0x14, 0x15].map (fun c => decodePacket [c]) =
      [Instr.getFin, .getRsv1, .getRsv2, .getRsv3, .getOpcode, .getMask].map (fun i => Decoded.command i []) ∧
    [0x20#8, 0x21, 0x22, 0x23, 0x24].map (fun c => decodePacket [c, 9]) =
      [Instr.setFin 9, .setRsv1 9, .setRsv2 9, .setRsv3 9, .setOpcode 9].map (fun i => Decoded.command i []) := by
  decide

theorem test_decode_parser :
    [0x16#8, 0x17, 0x18, 0x19, 0x1A, 0x1B].map (fun c => decodePacket [c]) =
      [Instr.getLen7, .getExtw, .getKeyoff, .getPayoff, .getResident, .getPaylen].map
        (fun i => Decoded.command i []) := by
  decide

theorem test_decode_key_and_payload :
    decodePacket [0x1C#8] = .command .getKey [] ∧ decodePacket [0x1D#8] = .command .getPayload [] ∧
    decodePacket [0x25#8, 3, 1, 2, 3] = .command (.setKey [1, 2, 3]) [] ∧
    decodePacket [0x26#8] = .command .removeKey [] ∧
    decodePacket [0x27#8, 0, 0, 0, 0, 0, 0, 0, 3, 0x61, 0x62, 0x63] = .command (.setPayload [0x61, 0x62, 0x63]) [] ∧
    decodePacket [0x28#8] = .command .removePayload [] := by
  decide

theorem test_decode_queries_and_cipher :
    decodePacket [0x1E#8] = .command .isComplete [] ∧ decodePacket [0x1F#8] = .command .isValid [] ∧
    decodePacket [0x30#8, 4, 0x37, 0xFA, 0x21, 0x3D, 0, 0, 0, 0, 0, 0, 0, 5, 0x48, 0x65, 0x6C, 0x6C, 0x6F] =
      .command (.xform keyHello hello) [] := by
  decide

/-- R73's codes at the edges of its ranges, and packets that end early (R76, U7). -/
theorem test_decode_rejects :
    [0x00#8, 0x04, 0x0F, 0x29, 0x2F, 0x31, 0x40, 0xFF].map (fun c => decodePacket [c, 5]) =
      List.replicate 8 (.undefinedCode [5]) ∧
    [[], [0x20#8], [0x25#8, 2, 1], [0x01#8, 0, 0, 0, 0, 0, 0, 0, 1], [0x02#8], [0x02#8, 0x40, 0]].map decodePacket =
      List.replicate 6 .truncated := by
  decide

/-- R60, R61: 1011 0101 then each of the six forms, `len7` at its bounds. -/
theorem test_decode_headers :
    decodeHeader 0xB5 0x00 = .hdrL7U ⟨1, 0, 1, 1, 5⟩ 0 ∧ decodeHeader 0xB5 0x7D = .hdrL7U ⟨1, 0, 1, 1, 5⟩ 125 ∧
    decodeHeader 0x4A 0x80 = .hdrL7M ⟨0, 1, 0, 0, 10⟩ 0 ∧ decodeHeader 0x4A 0xFD = .hdrL7M ⟨0, 1, 0, 0, 10⟩ 125 ∧
    decodeHeader 0x82 0x7E = .hdrL16U ⟨1, 0, 0, 0, 2⟩ ∧ decodeHeader 0x82 0xFE = .hdrL16M ⟨1, 0, 0, 0, 2⟩ ∧
    decodeHeader 0x82 0x7F = .hdrL64U ⟨1, 0, 0, 0, 2⟩ ∧ decodeHeader 0x82 0xFF = .hdrL64M ⟨1, 0, 0, 0, 2⟩ := by
  decide

/-! ### Every row of the opcode table runs as the first instruction after reset -/

/-- The row's word decodes, and the next step runs it. -/
def runsFirst (nbits w : Nat) : Bool :=
  match decodeTableWord nbits w with
  | none   => false
  | some i =>
    match step (State.reset.withFetchWord nbits w), exec i { State.reset.withFetchWord nbits w with cmdIn := [] } with
    | .next a, .next b => a == b
    | _, _             => false

theorem test_rows_run_commands :
    [0x01, 0x02, 0x03, 0x10, 0x11, 0x12, 0x13, 0x14, 0x15, 0x16, 0x17, 0x18, 0x19, 0x1A, 0x1B, 0x1C, 0x1D, 0x1E,
      0x1F, 0x20, 0x21, 0x22, 0x23, 0x24, 0x25, 0x26, 0x27, 0x28, 0x30].all (runsFirst 8) = true := by
  decide

theorem test_rows_run_headers :
    [0x0000, 0x0080, 0x007E, 0x00FE, 0x007F, 0x00FF, 0x8105].all (runsFirst 16) = true := by decide

theorem test_row_decodes :
    decodeTableWord 8 0x24 = some (.setOpcode 0) ∧ decodeTableWord 8 0x04 = none ∧
    decodeTableWord 16 0x8105 = some (.hdrL7U ⟨1, 0, 0, 0, 1⟩ 5) := by
  decide

/-! ### The step -/

/-- Section 2.2, first line: after reset there is nothing to run, and every accessor fails. -/
theorem test_step_idle : step State.reset = .fault .idle := rfl

theorem test_step_incomplete : step (State.reset.send [0x20]) = .refused .incompletePacket := rfl

/-- Section 2.9: an undefined code takes `IllegalCommand`, and the byte after it is the next command. -/
theorem test_step_undefined :
    ends (step ((frame frameA).send [0x31, 0x1B])) ((frame frameA).send [0x1B]) (rErr .illegalCommand) frameA =
      true := by
  decide

/-- Program P1, step 2: the packet `1B`. -/
theorem test_step_command :
    ends (step ((frame plainHello).send [0x1B, 0x19])) ((frame plainHello).send [0x19]) (rVal 5) plainHello =
      true := by
  decide

/-- R215: reset abandons what was issued. -/
theorem test_step_reset :
    step { frame frameA with rst := true, cmdIn := [0x1B], port := .response rOk } = .next State.reset := rfl

/-! ### Construction (section 2.6, 2.9) -/

theorem test_load : does plainHello (.load frameA) rOk frameA = true := by decide

theorem test_load_short : does frameA (.load [0x81]) (rErr .invalidArgumentShape) frameA = true := by decide

theorem test_append : does [0x81, 0x7E] (.append [0x01]) rOk [0x81, 0x7E, 0x01] = true := by decide

theorem test_append_overflow :
    ends (exec (.append [0, 0, 0, 0]) (unit (some 14) [0x81, 9, 0, 0, 0, 0, 0, 0, 0, 0, 0]))
      (unit (some 14) [0x81, 9, 0, 0, 0, 0, 0, 0, 0, 0, 0]) (rErr .overflow) [0x81, 9, 0, 0, 0, 0, 0, 0, 0, 0, 0] =
      true := by
  decide

theorem test_build_masked :
    does [] (.build ⟨false, some 1, none, none, none, some 2, some [0xAA, 0xBB, 0xCC, 0xDD],
        some [0, 1, 2, 3, 4, 5]⟩) rOk [0x82, 0x86, 0xAA, 0xBB, 0xCC, 0xDD, 0xAA, 0xBA, 0xCE, 0xDE, 0xAE, 0xBE] =
      true := by
  decide

theorem test_build_flag_before_key :
    does frameA (.build { noFields with fin := some 2, maskingKey := some [0x31] }) (rErr .outOfRange) frameA =
      true := by
  decide

/-! ### Field accessors (sections 2.2, 2.7) -/

/-- FIN 1, RSV 0 1 0, opcode 10, MASK 1. -/
theorem test_getters :
    reads [0xAA, 0x80] .getFin (rVal 1) = true ∧ reads [0xAA, 0x80] .getRsv1 (rVal 0) = true ∧
    reads [0xAA, 0x80] .getRsv2 (rVal 1) = true ∧ reads [0xAA, 0x80] .getRsv3 (rVal 0) = true ∧
    reads [0xAA, 0x80] .getOpcode (rVal 10) = true ∧ reads [0xAA, 0x80] .getMask (rVal 1) = true := by
  decide

theorem test_getters_incomplete :
    [Instr.getFin, .getRsv1, .getRsv2, .getRsv3, .getOpcode, .getMask].all
      (fun i => reads [0x81] i (rErr .headerIncomplete)) = true := by
  decide

theorem test_setFin : does [0x50, 0x00] (.setFin 1) rOk [0xD0, 0x00] = true := by decide
theorem test_setRsv1 : does [0x80, 0x00] (.setRsv1 1) rOk [0xC0, 0x00] = true := by decide
theorem test_setRsv2 : does [0xF0, 0x00] (.setRsv2 0) rOk [0xD0, 0x00] = true := by decide
theorem test_setRsv3 : does [0xE0, 0x00] (.setRsv3 1) rOk [0xF0, 0x00] = true := by decide
theorem test_setOpcode : does [0xD0, 0x00] (.setOpcode 10) rOk [0xDA, 0x00] = true := by decide

/-- The operand check comes first, then the header check. -/
theorem test_setters_errors :
    [Instr.setFin 2, .setRsv1 2, .setRsv2 7, .setRsv3 255, .setOpcode 16].all
      (fun i => does [] i (rErr .outOfRange) []) = true ∧
    [Instr.setFin 1, .setRsv1 1, .setRsv2 1, .setRsv3 1, .setOpcode 15].all
      (fun i => does [0x81] i (rErr .headerIncomplete) [0x81]) = true := by
  decide

/-! ### Parser reads (sections 2.1, 2.2) -/

theorem test_parser_l7m :
    reads [0x81, 0x83, 1, 2, 3, 4, 0x60, 0x60, 0x60] .getLen7 (rVal 3) = true ∧
    reads [0x81, 0x83, 1, 2, 3, 4, 0x60, 0x60, 0x60] .getExtw (rVal 0) = true ∧
    reads [0x81, 0x83, 1, 2, 3, 4, 0x60, 0x60, 0x60] .getKeyoff (rVal 2) = true ∧
    reads [0x81, 0x83, 1, 2, 3, 4, 0x60, 0x60, 0x60] .getPayoff (rVal 6) = true ∧
    reads [0x81, 0x83, 1, 2, 3, 4, 0x60, 0x60, 0x60] .getPaylen (rVal 3) = true ∧
    reads [0x81, 0x83, 1, 2, 3, 4, 0x60, 0x60, 0x60] .getResident (rVal 3) = true := by
  decide

/-- The largest length and a partial header. -/
theorem test_parser_l64 :
    reads ([0x81, 0x7F] ++ List.replicate 8 0xFF) .getPaylen (rVal 18446744073709551615) = true ∧
    reads [0x81, 0xFF, 0, 0, 0, 0, 0, 0, 0, 5] .getPaylen (rVal 5) = true ∧
    reads [0x81, 0xFF, 0, 0, 0, 0, 0, 0, 0, 5] .getResident (rErr .headerIncomplete) = true ∧
    reads [0x81, 0xFF] .getLen7 (rVal 127) = true ∧ reads [0x81, 0xFF] .getExtw (rVal 8) = true ∧
    reads [0x81, 0xFF] .getKeyoff (rVal 10) = true ∧ reads [0x81, 0xFF] .getPayoff (rVal 14) = true := by
  decide

/-- Section 2.4: the payload lengths where the form changes. -/
theorem test_encodeLength :
    encodeLength 125 = (125, []) ∧ encodeLength 126 = (126, [0x00, 0x7E]) ∧ encodeLength 256 = (126, [0x01, 0x00]) ∧
    encodeLength 65535 = (126, [0xFF, 0xFF]) ∧ encodeLength 65536 = (127, [0, 0, 0, 0, 0, 1, 0, 0]) ∧
    encodeLength 70000 = (127, [0, 0, 0, 0, 0, 0x01, 0x11, 0x70]) ∧
    encodeLength 18446744073709551615 = (127, List.replicate 8 0xFF) := by
  decide

/-! ### Key and payload (section 2.8) -/

theorem test_getKey : reads maskedHello .getKey (rOut keyHello) = true := by decide
theorem test_getKey_null : reads [0x81, 0x7E] .getKey rNull = true := by decide
theorem test_setKey_insert : does plainHello (.setKey keyHello) rOk maskedHello = true := by decide
theorem test_setKey_replace :
    does maskedHello (.setKey key1234) rOk [0x81, 0x85, 0x01, 0x02, 0x03, 0x04, 0x49, 0x67, 0x6F, 0x68, 0x6E] =
      true := by
  decide
theorem test_removeKey : does maskedHello .removeKey (rOut keyHello) plainHello = true := by decide
theorem test_removeKey_incomplete : does [0x81, 0x80] .removeKey (rErr .headerIncomplete) [0x81, 0x80] = true := by
  decide
theorem test_getPayload : reads maskedHello .getPayload (rOut hello) = true := by decide
theorem test_getPayload_surplus :
    reads [0x81, 0x03, 0x61, 0x62, 0x63, 0x64] .getPayload (rOut [0x61, 0x62, 0x63, 0x64]) = true ∧
    reads [0x81, 0x00, 0xFF] .getPayload rNull = true := by
  decide
theorem test_setPayload_minimal :
    does [0x81, 0x7E, 0x00, 0x03, 0x61, 0x62, 0x63] (.setPayload [0x61, 0x62, 0x63]) rOk frameA = true := by decide

/-- Program P4, step 18. -/
theorem test_setPayload_keeps_key :
    does [0x81, 0x83, 0xAA, 0xBB, 0xCC, 0xDD, 0xCB, 0xD9, 0xAF] (.setPayload []) rOk
      [0x81, 0x80, 0xAA, 0xBB, 0xCC, 0xDD] = true := by
  decide
theorem test_removePayload :
    does [0x82, 0x86, 0xAA, 0xBB, 0xCC, 0xDD, 0xAA, 0xBA, 0xCE, 0xDE, 0xAE, 0xBE] .removePayload
      (rOut [0, 1, 2, 3, 4, 5]) [0x82, 0x80, 0xAA, 0xBB, 0xCC, 0xDD] = true := by
  decide
theorem test_removePayload_null : does [0x81, 0x00, 0xFF] .removePayload rNull [0x81, 0x00, 0xFF] = true := by decide

/-! ### Queries (section 2.3) -/

theorem test_isComplete :
    reads [0x81, 0x05, 0x61, 0x62] .isComplete (rVal 0) = true ∧ reads plainHello .isComplete (rVal 1) = true ∧
    reads [0x81, 0x00, 0xFF] .isComplete (rVal 1) = true ∧ reads [] .isComplete (rVal 0) = true := by
  decide

theorem test_isValid :
    reads [0x81, 0x05, 0x61, 0x62] .isValid (rVal 0) = true ∧ reads plainHello .isValid (rVal 1) = true ∧
    reads [0x81, 0x00, 0xFF] .isValid (rVal 0) = true ∧
    puts (exec .isValid { frame frameA with cfg := { bufMax := none, rejects := [0x81] } }) (.response (rVal 0)) =
      true := by
  decide

/-! ### The cipher (section 2.5) -/

theorem test_xform :
    reads frameA (.xform keyHello hello) (rOut [0x7F, 0x9F, 0x4D, 0x51, 0x58]) = true ∧
    reads [] (.xform key1234 (List.replicate 9 0)) (rOut [1, 2, 3, 4, 1, 2, 3, 4, 1]) = true := by
  decide

theorem test_xform_wrong_length :
    reads [] (.xform [] [0]) (rErr .wrongLength) = true ∧
    reads [] (.xform [1, 2, 3, 4, 5] [0]) (rErr .wrongLength) = true := by
  decide

/-! ### The header forms (section 2.1) -/

/-- The parser's outputs for the frame `b`, which a step with no command pending leaves unreported. -/
def parses (b : Bytes) (l : Layout) : Bool := parserOutputs b == some l && puts (step (frame b)) .idle

theorem test_header_masked :
    parses maskedHello ⟨⟨1, 0, 0, 0, 1⟩, 1, 5, 0, 2, 6, some 5, some 5⟩ = true := by decide

theorem test_header_l16 :
    parses [0x81, 0x7E, 0x00, 0x03, 0x61, 0x62, 0x63] ⟨⟨1, 0, 0, 0, 1⟩, 0, 126, 2, 4, 4, some 3, some 3⟩ = true ∧
    parses [0x82, 0xFE, 0x01] ⟨⟨1, 0, 0, 0, 2⟩, 1, 126, 2, 4, 8, none, none⟩ = true := by
  decide

theorem test_header_l64 :
    parses [0x82, 0xFF, 0, 0, 0, 0, 0, 0, 0, 1, 0x0A, 0x0B, 0x0C, 0x0D, 0x0B]
      ⟨⟨1, 0, 0, 0, 2⟩, 1, 127, 8, 10, 14, some 1, some 1⟩ = true ∧
    parses [0x81, 0x7F] ⟨⟨1, 0, 0, 0, 1⟩, 0, 127, 8, 10, 10, none, none⟩ = true := by
  decide

/-- R200: a step that takes no command reports nothing, even just after a response. -/
theorem test_idle_step_reports_nothing :
    step { frame frameA with port := .response (rVal 1) } = .next (frame frameA) := rfl

/-! ### Responses (section 2.10) -/

theorem test_response_packets :
    responsePacket (rVal 70000) = some [0, 0, 0, 0, 0, 0, 0, 0x01, 0x11, 0x70, 0, 0, 0, 0, 0, 0, 0, 0] ∧
    responsePacket rNull = some (0 :: 1 :: List.replicate 16 0) ∧
    responsePacket (rOut hello) =
      some [0, 0, 0, 0, 0, 0, 0, 0, 0, 0, 0, 0, 0, 0, 0, 0, 0, 5, 0x48, 0x65, 0x6C, 0x6C, 0x6F] ∧
    responsePacket (rErr .overflow) = some (6 :: List.replicate 17 0) := by
  decide

/-! ### Witnesses: for each statement with hypotheses, a state and operands that meet them, clause by clause -/

/-- The smallest unit the spec allows. -/
def small (b : Bytes) : State := unit (some 14) b

/-- A frame with the longest header, the header just resident. -/
def longHeader : Bytes := [0x82, 0xFF, 0, 0, 0, 0, 0, 0, 0, 1, 0x0A, 0x0B, 0x0C, 0x0D]

theorem test_witness_ResetLeavesNoFrame :
    (frame [0x81]).len < 2 ∧ (1 : Byte).toNat ≤ 1 ∧ key1234.length = 4 := by decide

theorem test_witness_ResetInputEmptiesTheUnit : { frame frameA with rst := true }.rst = true := rfl

theorem test_witness_EncodedCommandDecodes :
    (Instr.build ⟨true, some 255, none, some 2, none, some 16, some [], some []⟩).wf = true ∧
    (Instr.build noFields).isHeader = false ∧ (Instr.setKey (List.replicate 255 0)).wf = true ∧
    (Instr.xform [] hello).wf = true ∧ (Instr.load []).wf = true :=
  ⟨by decide, rfl, test_wf_key_longest, by decide, by decide⟩

theorem test_witness_EncodedHeaderDecodes :
    (Instr.hdrL7U ⟨1, 1, 1, 1, 15⟩ 125).wf = true ∧ (Instr.hdrL7M ⟨0, 0, 0, 0, 0⟩ 0).wf = true ∧
    (Instr.hdrL64M ⟨1, 0, 0, 0, 2⟩).wf = true ∧ (Instr.hdrL64M ⟨1, 0, 0, 0, 2⟩).isHeader = true := by decide

theorem test_witness_DecodedPacketReencodes :
    decodePacket [0x25#8, 0, 0x1B] = .command (.setKey []) [0x1B] := by decide

theorem test_witness_UndefinedCodeRaisesIllegalCommand :
    ((frame []).send [0x31, 0x1B]).rst = false ∧ ((frame []).send [0x31, 0x1B]).cmdIn = 0x31#8 :: [0x1B] ∧
    [0x00#8, 0x04, 0x0F, 0x29, 0x2F, 0x31, 0xFF].all (fun c => decide
      (c.toNat = 0 ∨ (4 ≤ c.toNat ∧ c.toNat ≤ 15) ∨ (41 ≤ c.toNat ∧ c.toNat ≤ 47) ∨ 49 ≤ c.toNat)) = true := by
  decide

/-- The six clauses exclude each other: one `W` for each, at the ends of the literal range for the last two. -/
theorem test_witness_HeaderFormIsSelectedByByteOne :
    ((0x82#8 ++ 0x7E#8 : BitVec 16) &&& 0x00FF = 0x007E) ∧ ((0x82#8 ++ 0xFE#8 : BitVec 16) &&& 0x00FF = 0x00FE) ∧
    ((0x82#8 ++ 0x7F#8 : BitVec 16) &&& 0x00FF = 0x007F) ∧ ((0x82#8 ++ 0xFF#8 : BitVec 16) &&& 0x00FF = 0x00FF) ∧
    [0x00#8, 0x7D].all (fun b1 => decide ((0x82#8 ++ b1 : BitVec 16) &&& 0x0080 = 0 ∧
      ¬ ((0x82#8 ++ b1 : BitVec 16) &&& 0x00FF = 0x007E ∨ (0x82#8 ++ b1 : BitVec 16) &&& 0x00FF = 0x00FE ∨
        (0x82#8 ++ b1 : BitVec 16) &&& 0x00FF = 0x007F ∨ (0x82#8 ++ b1 : BitVec 16) &&& 0x00FF = 0x00FF))) = true ∧
    [0x80#8, 0xFD].all (fun b1 => decide ((0x82#8 ++ b1 : BitVec 16) &&& 0x0080 = 0x0080 ∧
      ¬ ((0x82#8 ++ b1 : BitVec 16) &&& 0x00FF = 0x007E ∨ (0x82#8 ++ b1 : BitVec 16) &&& 0x00FF = 0x00FE ∨
        (0x82#8 ++ b1 : BitVec 16) &&& 0x00FF = 0x007F ∨ (0x82#8 ++ b1 : BitVec 16) &&& 0x00FF = 0x00FF))) =
      true := by
  decide

theorem test_witness_StepRunsTheDecodedCommand :
    ((frame frameA).send [0x26, 0x1B]).rst = false ∧
    decodePacket ((frame frameA).send [0x26, 0x1B]).cmdIn = .command .removeKey [0x1B] := by decide

theorem test_witness_StepParsesTheHeaderInTheBuffer :
    (frame [0x81, 0x00]).rst = false ∧ (frame [0x81, 0x00]).cmdIn = [] ∧
    (frame [0x81, 0x00]).buf = 0x81#8 :: 0x00#8 :: [] := by decide

/-- The invariant is met by a full buffer, and a step goes on from it. -/
theorem test_witness_StepKeepsInvariant :
    State.Inv ((small longHeader).issue .getKey) ∧
    ∃ t, step ((small longHeader).issue .getKey) = .next t ∧ t.port = .response (rOut [0x0A, 0x0B, 0x0C, 0x0D]) :=
  ⟨⟨by decide, by decide, by decide, by decide⟩, _, rfl, rfl⟩

theorem test_witness_ReadsChangeNothing :
    Instr.readOnly .getPayload = true ∧ Instr.isHeader .getPayload = false ∧ Instr.readOnly (.xform [] []) = true ∧
    Instr.isHeader (.xform [] []) = false :=
  ⟨rfl, rfl, rfl, rfl⟩

/-- A step without a command, one that takes a command and one that takes an undefined code. -/
theorem test_witness_ReportsStandInResponsesAlone :
    ((frame frameA).rst = false ∧ (frame frameA).cmdIn = [] ∧ ∃ t, step (frame frameA) = .next t) ∧
    ((frame []).send [0x1F, 0xFF]).rst = false ∧
    decodePacket ((frame []).send [0x1F, 0xFF]).cmdIn = .command .isValid [0xFF] ∧
    (∃ t r, step ((frame []).send [0x1F, 0xFF]) = .next t ∧ t.port = .response r) ∧
    ((frame []).send [0xFF]).rst = false ∧ decodePacket ((frame []).send [0xFF]).cmdIn = .undefinedCode [] :=
  ⟨⟨rfl, rfl, _, rfl⟩, rfl, rfl, ⟨_, _, rfl, rfl⟩, rfl, rfl⟩

theorem test_witness_ErrorsLeaveTheStateUnchanged :
    (∃ t r, exec (.load [0x81]) (frame frameA) = .next t ∧ t.port = .response r ∧ r.err ≠ .ok) ∧
    ∃ t r, step ((frame frameA).send [0xFF]) = .next t ∧ t.port = .response r ∧ r.err ≠ .ok :=
  ⟨⟨_, _, rfl, rfl, by decide⟩, _, _, rfl, rfl, by decide⟩

theorem test_witness_WrongTypeIsNeverRaised :
    ∃ t r, step ((frame frameA).issue .isValid) = .next t ∧ t.port = .response r := ⟨_, _, rfl, rfl⟩

theorem test_witness_InstructionsTouchOnlyBufferAndPort :
    ∃ t, exec (.setKey keyHello) (frame plainHello) = .next t ∧ t.buf = maskedHello := ⟨_, rfl, by decide⟩

/-- A command that ends in an error, a row of the table that applies, an undefined code. -/
theorem test_witness_ErrorsAreThoseOfTheTable :
    ((frame []).send [0x2F, 1]).rst = false ∧ decodePacket ((frame []).send [0x2F, 1]).cmdIn = .undefinedCode [1] ∧
    Instr.isHeader (.append [0]) = false ∧ mayRaise (small longHeader) (.append [0]) .overflow ∧
    ∃ t r, exec (.append [0]) (small longHeader) = .next t ∧ t.port = .response r ∧ r.err ≠ .ok :=
  ⟨rfl, rfl, rfl, by simp only [mayRaise]; decide, _, _, rfl, rfl, by decide⟩

/-- Two rows apply: the operand check and the header check. -/
theorem test_witness_FirstErrorInOrderWins :
    mayRaise (frame []) (.setFin 2) .outOfRange ∧ mayRaise (frame []) (.setFin 2) .headerIncomplete ∧
    ∃ t r, exec (.setFin 2) (frame []) = .next t ∧ t.port = .response r ∧ r.err = .outOfRange :=
  ⟨by simp only [mayRaise]; decide, by simp only [mayRaise]; decide, _, _, rfl, rfl, rfl⟩

theorem test_witness_ParserReadsOfByteOne :
    (frame [0x81]).len < 2 ∧ (frame [0x81, 0x7D]).buf = 0x81#8 :: 0x7D#8 :: [] ∧
    (frame [0x81, 0xFE, 0]).buf = 0x81#8 :: 0xFE#8 :: [0] ∧ (frame longHeader).buf = 0x82#8 :: 0xFF#8 ::
      [0, 0, 0, 0, 0, 0, 0, 1, 0x0A, 0x0B, 0x0C, 0x0D] := by decide

theorem test_witness_ResidentCountIsRead :
    (frame [0x81]).len < 2 ∧ (frame [0x81, 0x7E, 1]).len < payoff (frame [0x81, 0x7E, 1]).buf ∧
    2 ≤ (frame longHeader).len ∧ payoff (frame longHeader).buf ≤ (frame longHeader).len ∧
    (frame longHeader).len - payoff (frame longHeader).buf < 2 ^ 64 := by decide

theorem payoff_short_unmasked (w : Bytes) : payoff (0x81#8 :: 0x00#8 :: w) = 2 := by
  simp [payoff, keyoff, extw, len7, maskBit, byteAt]

/-- A buffer of 2^64 + 2 bytes, in a unit whose capacity is unbounded. -/
theorem test_witness_WideResidentCountCompletes :
    2 ≤ (frame (0x81#8 :: 0x00#8 :: List.replicate (2 ^ 64) 0)).len ∧
    payoff (frame (0x81#8 :: 0x00#8 :: List.replicate (2 ^ 64) 0)).buf + 2 ^ 64 ≤
      (frame (0x81#8 :: 0x00#8 :: List.replicate (2 ^ 64) 0)).len := by
  have hl : ∀ b : Bytes, (frame b).len = b.length := Memory.length_ofBytes
  have hb : ∀ b : Bytes, (frame b).buf = b := Memory.bytes_ofBytes
  rw [hl, hb, payoff_short_unmasked, List.length_cons, List.length_cons, List.length_replicate]
  decide

theorem test_witness_DeclaredLengthIsRead :
    (frame [0x81]).len < 2 ∧ (frame [0x81, 0x7E, 1]).len < 2 + extw (frame [0x81, 0x7E, 1]).buf ∧
    (0x7D#8 &&& 0x7F#8).toNat ≤ 125 ∧ 0xFE#8 &&& 0x7F#8 = 126#8 ∧ 0xFF#8 &&& 0x7F#8 = 127#8 ∧
    (frame [0x81, 0xFD]).buf = 0x81#8 :: 0xFD#8 :: [] ∧
    (frame [0x81, 0xFE, 1, 2]).buf = 0x81#8 :: 0xFE#8 :: 1#8 :: 2#8 :: [] ∧
    (frame longHeader).buf = 0x82#8 :: 0xFF#8 :: 0#8 :: 0#8 :: 0#8 :: 0#8 :: 0#8 :: 0#8 :: 0#8 :: 1#8 ::
      [0x0A, 0x0B, 0x0C, 0x0D] := by decide

theorem test_witness_HeaderFormsAgreeWithTheParserFunctions :
    ([0x81] : Bytes).length < 2 ∧ 2 ≤ ([0x81, 0x00] : Bytes).length := by decide

/-- Every output there, and none behind byte 1. -/
theorem test_witness_CommandsReportTheParsersOutputs :
    (∃ l, parserOutputs (frame maskedHello).buf = some l ∧ l.paylen = some 5 ∧ l.resident = some 5) ∧
    ∃ l, parserOutputs (frame [0x81, 0x7F]).buf = some l ∧ l.paylen = none ∧ l.resident = none :=
  ⟨⟨_, rfl, by decide, by decide⟩, _, rfl, by decide, by decide⟩

theorem test_witness_TransformXorsByPosition :
    keyHello.length = 4 ∧ hello[4]? = some 0x6F ∧ keyHello[4 % 4]? = some 0x37 := by decide

theorem test_witness_MaskingIsAnInvolution : keyHello.length = 4 := by decide

theorem test_witness_TransformLaws :
    keyHello.length = 4 ∧ key1234.length = 4 ∧ 5 ≤ hello.length ∧ 0 ≤ hello.length := by decide

theorem test_witness_XformTransformsItsData :
    ([1, 2, 3] : Bytes).length ≠ 4 ∧ ([1, 2, 3, 4, 5] : Bytes).length ≠ 4 ∧ key1234.length = 4 := by decide

theorem test_witness_LoadAdoptsItsBytes :
    ([0x81] : Bytes).length < 2 ∧
    (2 ≤ (longHeader ++ [0]).length ∧ (small []).cfg.bufMax = some 14 ∧ 14 < (longHeader ++ [0]).length) ∧
    (2 ≤ longHeader.length ∧ ∀ m, (small []).cfg.bufMax = some m → longHeader.length ≤ m) :=
  ⟨by decide, by decide, by decide, by rintro m ⟨⟩; decide⟩

theorem test_witness_AppendExtendsTheBuffer :
    ((small longHeader).cfg.bufMax = some 14 ∧ 14 < (small longHeader).len + [0].length) ∧
    (∀ m, (small [0x81]).cfg.bufMax = some m → (small [0x81]).len + 13 ≤ m) ∧
    lenFieldResident (frame [0x81, 0x7E, 0, 5]).buf = true ∧ headerResident (frame longHeader).buf = true ∧
    maskBit (frame longHeader).buf = true :=
  ⟨by decide, by rintro m ⟨⟩; decide, by decide, by decide, by decide⟩

/-- Descriptors for the four clauses; the last at the ends of the ranges, `payload=zeros(8)` under a key in 14 bytes
fitting and one byte more not (section 2.9). -/
theorem test_witness_BuildWritesTheFrame :
    { noFields with presBit7 := true }.presBit7 = true ∧ noFields.presBit7 = false ∧
    descriptorOutOfRange { noFields with rsv3 := some 2 } ∧ descriptorOutOfRange { noFields with opcode := some 16 } ∧
    (¬ descriptorOutOfRange { noFields with fin := some 1, opcode := some 15, maskingKey := some [] }) ∧
    ([] : Bytes).length ≠ 4 ∧ key1234.length = 4 ∧
    (∀ m, (small []).cfg.bufMax = some m →
      ([0x8F#8, 0x80#8 ||| (encodeLength 8).1] ++ (encodeLength 8).2 ++ key1234 ++
        transform (List.replicate 8 0) key1234).length ≤ m) ∧
    ((small []).cfg.bufMax = some 14 ∧
      14 < ([0x8F#8, 0x80#8 ||| (encodeLength 9).1] ++ (encodeLength 9).2 ++ key1234 ++
        transform (List.replicate 9 0) key1234).length) :=
  ⟨rfl, rfl, .inl ⟨2, by simp, by decide⟩, .inr ⟨16, rfl, by decide⟩, by
    rintro (⟨v, h, hv⟩ | ⟨v, h, hv⟩)
    · have h1 : v = 1 := by simpa [noFields, eq_comm] using h
      subst h1
      exact absurd hv (by decide)
    · have h1 : v = 15 := by simpa [eq_comm] using h
      subst h1
      exact absurd hv (by decide), by decide, by decide, by rintro m ⟨⟩; decide, by decide⟩

/-- A frame with a key and one without, each with a payload. -/
theorem test_witness_BuiltFrameIsCompleteAndMinimal :
    (∃ t r, exec (.build ⟨false, some 1, none, none, none, some 1, some keyHello, some hello⟩) (frame []) = .next t ∧
      t.port = .response r ∧ r.err = .ok ∧ t.cfg.rejects = []) ∧
    ∃ t r, exec (.build ⟨false, some 1, none, none, none, some 1, none, some hello⟩) (frame []) = .next t ∧
      t.port = .response r ∧ r.err = .ok ∧ t.cfg.rejects = [] :=
  ⟨⟨_, _, rfl, rfl, rfl, rfl⟩, _, _, rfl, rfl, rfl, rfl⟩

theorem test_witness_BuiltPayloadReadsBack :
    (∃ t r, exec (.build { noFields with payload := some [] }) (frame []) = .next t ∧ t.port = .response r ∧
      r.err = .ok) ∧
    (∃ t r, exec (.build { noFields with payload := some hello }) (frame []) = .next t ∧ t.port = .response r ∧
      r.err = .ok) ∧ hello ≠ [] ∧ hello.length < 2 ^ 64 :=
  ⟨⟨_, _, rfl, rfl, rfl⟩, ⟨_, _, rfl, rfl, rfl⟩, by decide, by decide⟩

theorem test_witness_EncodeLengthIsMinimalAndDecodes :
    (0 ≤ 125 ∧ 125 ≤ 125) ∧ (126 ≤ 126 ∧ 126 ≤ 65535) ∧ (126 ≤ 65535 ∧ 65535 ≤ 65535) ∧
    (65536 ≤ 65536 ∧ 65536 < 2 ^ 64) ∧ (65536 ≤ 2 ^ 64 - 1 ∧ 2 ^ 64 - 1 < 2 ^ 64) ∧
    (0x80#8 = 0x00#8 ∨ 0x80#8 = 0x80#8) := by decide

theorem test_witness_FieldGettersReadTheirBits :
    (frame [0x81]).len < 2 ∧ (frame [0xFF, 0x80]).buf = 0xFF#8 :: 0x80#8 :: [] := by decide

theorem test_witness_FieldSettersRewriteTheirBits :
    1 < (2 : Byte).toNat ∧ 15 < (16 : Byte).toNat ∧ ((frame [0x81]).len < 2 ∧ (1 : Byte).toNat ≤ 1) ∧
    (15 : Byte).toNat ≤ 15 ∧ (frame [0x50, 0x00]).mem.wf = true ∧
    (frame [0x50, 0x00]).buf = 0x50#8 :: 0x00#8 :: [] := by decide

theorem test_witness_FieldSettersTouchByteZeroOnly :
    (frame maskedHello).mem.wf = true ∧ (frame maskedHello).cfg.rejects = [] ∧
    ∃ t, exec (.setOpcode 9) (frame maskedHello) = .next t ∧ byteAt t.buf 0 = 0x89 :=
  ⟨by decide, rfl, _, rfl, by decide⟩

theorem test_witness_SetFieldReadsBack :
    (frame [0x50, 0x00]).mem.wf = true ∧ 2 ≤ (frame [0x50, 0x00]).len ∧ (15 : Byte).toNat ≤ 15 ∧
    (1 : Byte).toNat ≤ 1 ∧ Instr.getMask ≠ .getOpcode ∧ Answers .getMask (frame [0x50, 0x00]) (rVal 0) :=
  ⟨by decide, by decide, by decide, by decide, by decide, rfl⟩

theorem test_witness_ReadAfterWriteOfTheBuffer :
    (frame frameA).mem.wf = true ∧ 3 + 2 ≤ (frame frameA).len ∧ 65535 < 2 ^ (8 * 2) ∧ (2 < 3 ∨ 3 + 2 ≤ 2) := by
  decide

theorem test_witness_KeyIsReadOrNull :
    (frame [0x81]).len < 2 ∧
    (maskBit (frame [0x81, 0x80, 1, 2, 3]).buf = true ∧
      (frame [0x81, 0x80, 1, 2, 3]).len < keyoff (frame [0x81, 0x80, 1, 2, 3]).buf + 4) ∧
    (2 ≤ (frame [0x81, 0x7E]).len ∧ maskBit (frame [0x81, 0x7E]).buf = false) ∧
    (2 ≤ (frame maskedHello).len ∧ maskBit (frame maskedHello).buf = true ∧
      (frame maskedHello).buf = [0x81#8, 0x85] ++ keyHello ++ [0x7F, 0x9F, 0x4D, 0x51, 0x58] ∧
      [0x81#8, 0x85].length = keyoff (frame maskedHello).buf ∧ keyHello.length = 4) := by decide

theorem test_witness_SetKeyRemasksThePayload :
    ([1, 2, 3] : Bytes).length ≠ 4 ∧ headerResident (frame [0x81, 0x80]).buf = false ∧
    ((frame [0x81, 0xFE, 0, 1, 1, 2, 3, 4, 5]).buf =
        0x81#8 :: 0xFE#8 :: ([0, 1] ++ ([1, 2, 3, 4] : Bytes) ++ [5]) ∧
      maskBit (frame [0x81, 0xFE, 0, 1, 1, 2, 3, 4, 5]).buf = true ∧
      ([0, 1] : Bytes).length = extw (frame [0x81, 0xFE, 0, 1, 1, 2, 3, 4, 5]).buf) ∧
    ((frame [0x81, 0x7E, 0, 1, 5]).buf = 0x81#8 :: 0x7E#8 :: ([0, 1] ++ ([5] : Bytes)) ∧
      maskBit (frame [0x81, 0x7E, 0, 1, 5]).buf = false ∧
      ([0, 1] : Bytes).length = extw (frame [0x81, 0x7E, 0, 1, 5]).buf) ∧
    14 < (small [0x81, 9, 0, 0, 0, 0, 0, 0, 0, 0, 0]).len + 4 ∧
    (small [0x81, 9, 0, 0, 0, 0, 0, 0, 0, 0]).len + 4 ≤ 14 := by decide

theorem test_witness_RemoveKeyUnmasksThePayload :
    (frame [0x81]).len < 2 ∧
    (maskBit (frame [0x81, 0x80, 1, 2, 3]).buf = true ∧ headerResident (frame [0x81, 0x80, 1, 2, 3]).buf = false) ∧
    (2 ≤ (frame frameA).len ∧ maskBit (frame frameA).buf = false) ∧
    ((frame [0x81, 0xFE, 0, 1, 1, 2, 3, 4, 5]).buf =
        0x81#8 :: 0xFE#8 :: ([0, 1] ++ ([1, 2, 3, 4] : Bytes) ++ [5]) ∧
      maskBit (frame [0x81, 0xFE, 0, 1, 1, 2, 3, 4, 5]).buf = true ∧
      ([0, 1] : Bytes).length = extw (frame [0x81, 0xFE, 0, 1, 1, 2, 3, 4, 5]).buf) := by decide

theorem test_witness_PayloadIsReadUnmasked :
    headerResident (frame [0x81, 0x7E, 1]).buf = false ∧
    (headerResident (frame [0x81, 0x00, 0xFF]).buf = true ∧ payloadLength (frame [0x81, 0x00, 0xFF]).buf = 0) ∧
    ((frame [0x81, 0x01]).buf = [0x81, 0x01] ++ [] ∧ 2 ≤ (frame [0x81, 0x01]).len ∧
      [0x81#8, 0x01].length = payoff (frame [0x81, 0x01]).buf ∧ maskBit (frame [0x81, 0x01]).buf = false ∧
      payloadLength (frame [0x81, 0x01]).buf ≠ 0) ∧
    ((frame maskedHello).buf = [0x81#8, 0x85] ++ keyHello ++ [0x7F, 0x9F, 0x4D, 0x51, 0x58] ∧
      [0x81#8, 0x85].length = keyoff (frame maskedHello).buf ∧ payloadLength (frame maskedHello).buf ≠ 0) := by decide

theorem test_witness_SetPayloadRebuildsTheFrame :
    headerResident (frame [0x81, 0x80]).buf = false ∧ headerResident (small frameA).buf = true ∧
    (small frameA).buf = 0x81#8 :: 0x03#8 :: [0x61, 0x62, 0x63] ∧
    14 < (0x81#8 :: (((0x03#8 >>> 7) <<< 7) ||| (encodeLength 13).1) ::
      ((encodeLength 13).2 ++ [] ++ List.replicate 13 0)).length ∧
    (0x81#8 :: (((0x03#8 >>> 7) <<< 7) ||| (encodeLength 12).1) ::
      ((encodeLength 12).2 ++ [] ++ List.replicate 12 0)).length ≤ 14 := by decide

theorem test_witness_RemovePayloadKeepsTheKey :
    headerResident (frame [0x81, 0x80]).buf = false ∧
    (headerResident (frame [0x81, 0x00, 0xFF]).buf = true ∧ payloadLength (frame [0x81, 0x00, 0xFF]).buf = 0) ∧
    ((frame frameA).buf = 0x81#8 :: 0x03#8 :: [0x61, 0x62, 0x63] ∧ headerResident (frame frameA).buf = true ∧
      payloadLength (frame frameA).buf ≠ 0) := by decide

/-- One run for each clause. -/
theorem test_witness_PlaintextIsPreserved :
    (∃ t r, exec (.setKey keyHello) (frame plainHello) = .next t ∧ t.port = .response r) ∧
    (∃ t r, exec .removeKey (frame maskedHello) = .next t ∧ t.port = .response r) ∧
    (∃ t r, exec (.setPayload []) (frame maskedHello) = .next t ∧ t.port = .response r ∧ r.err = .ok) ∧
    (∃ t r, exec (.build noFields) (frame []) = .next t ∧ t.port = .response r ∧ r.err = .ok) ∧
    ∃ t r, exec (.setFin 0) (frame maskedHello) = .next t ∧ t.port = .response r ∧ (frame maskedHello).mem.wf = true :=
  ⟨⟨_, _, rfl, rfl⟩, ⟨_, _, rfl, rfl⟩, ⟨_, _, rfl, rfl, rfl⟩, ⟨_, _, rfl, rfl, rfl⟩, _, _, rfl, rfl, by decide⟩

theorem test_witness_HeaderIsPreserved :
    hello.length < 2 ^ 64 ∧
    (∃ t r, exec .getKey (frame maskedHello) = .next t ∧ t.port = .response r) ∧
    (∃ t r, exec (.setKey key1234) (frame maskedHello) = .next t ∧ t.port = .response r) ∧
    (∃ t r, exec .removeKey (frame maskedHello) = .next t ∧ t.port = .response r) ∧
    (∃ t r, exec (.setPayload hello) (frame frameA) = .next t ∧ t.port = .response r ∧ r.err = .ok ∧
      r.null = false) ∧
    ∃ t r, exec .removePayload (frame frameA) = .next t ∧ t.port = .response r ∧ r.err = .ok ∧ r.null = false :=
  ⟨by decide, ⟨_, _, rfl, rfl⟩, ⟨_, _, rfl, rfl⟩, ⟨_, _, rfl, rfl⟩, ⟨_, _, rfl, rfl, rfl, rfl⟩, _, _, rfl, rfl, rfl,
    rfl⟩

/-- A command of each kind the clauses leave in, each with the clauses' premises met. -/
theorem test_witness_OnlyTheNamedCommandsWriteTheHeader :
    (frame maskedHello).mem.wf = true ∧ 2 ≤ (frame maskedHello).len ∧
    (∃ t, exec (.append [0]) (frame maskedHello) = .next t ∧ t.len = 12) ∧
    (∃ t, exec (.setFin 0) (frame maskedHello) = .next t ∧ t.buf ≠ maskedHello) ∧
    (∃ t, exec .removeKey (frame maskedHello) = .next t ∧ t.buf = plainHello) ∧
    ∃ t, exec .removePayload (frame maskedHello) = .next t ∧ t.len = 6 :=
  ⟨by decide, by decide, ⟨_, rfl, by decide⟩, ⟨_, rfl, by decide⟩, ⟨_, rfl, by decide⟩, _, rfl, by decide⟩

theorem test_witness_CompletenessIsAnswered :
    (headerResident (frame frameA).buf = true ∧
      payloadLength (frame frameA).buf ≤ (frame frameA).len - payoff (frame frameA).buf) ∧
    headerResident (frame []).buf = false ∧
    (frame [0x81, 0x02, 0]).len - payoff (frame [0x81, 0x02, 0]).buf < payloadLength (frame [0x81, 0x02, 0]).buf := by
  decide

theorem test_witness_ValidityIsAnswered :
    (headerResident (frame frameA).buf = true ∧
      (frame frameA).len - payoff (frame frameA).buf = payloadLength (frame frameA).buf ∧
      byteAt (frame frameA).buf 0 ∉ (frame frameA).cfg.rejects) ∧
    headerResident (frame []).buf = false ∧
    (frame [0x81, 0x00, 0]).len - payoff (frame [0x81, 0x00, 0]).buf ≠
      payloadLength (frame [0x81, 0x00, 0]).buf ∧
    byteAt (frame frameA).buf 0 ∈ [0x80#8, 0x81] := by decide

theorem test_witness_CompletenessIsMonotonic :
    Answers .isComplete (frame frameA) (rVal 1) ∧ Answers .isValid (frame frameA) (rVal 1) ∧
    ∃ t, exec (.append [0]) (frame frameA) = .next t ∧ t.buf = (frame frameA).buf ++ [0] :=
  ⟨rfl, rfl, _, rfl, by decide⟩

theorem test_witness_FrameConditionsAndTheirArrows :
    frameCondition (frame frameA).cfg (frame frameA).buf = .valid ∧
    frameCondition (frame frameA).cfg (frame [0x81, 0x00, 0xFF]).buf = .malformed ∧
    frameCondition (frame frameA).cfg (frame [0x81, 0x01]).buf = .receiving ∧ [0#8] ≠ [] ∧
    (∃ t, exec (.append [0]) (frame frameA) = .next t ∧ t.buf = (frame frameA).buf ++ [0]) ∧
    ∃ t, exec (.append [0]) (frame [0x81, 0x00, 0xFF]) = .next t ∧ t.buf = (frame [0x81, 0x00, 0xFF]).buf ++ [0] :=
  ⟨by decide, by decide, by decide, by decide, ⟨_, rfl, by decide⟩, _, rfl, by decide⟩

theorem test_witness_ResponsePacketLayout : (rOut hello).out.length < 2 ^ 64 := by decide

theorem test_witness_FailedCommandLeavesNoTrace :
    ∃ t r, exec (.setKey [1, 2, 3]) (frame maskedHello) = .next t ∧ t.port = .response r ∧ r.err ≠ .ok :=
  ⟨_, _, rfl, rfl, by decide⟩

theorem test_witness_IssuedCommandRunsNext :
    (frame maskedHello).rst = false ∧ (frame maskedHello).cmdIn = [] ∧ (Instr.setPayload hello).wf = true ∧
    (Instr.setPayload hello).isHeader = false := by decide

end Sys2Proof.Tests
end

section
/-! Commands on a buffer whose header has not arrived (10_state.md R34, 60_exceptions.md R192): each
precondition of the header, where it fails, makes the operations that test it raise `HeaderIncomplete`. -/

namespace Sys2Proof.Machine

/-! ### The preconditions with fewer than two bytes -/

theorem have2_eq_false_of_short {s : State} (h : s.len < 2) : have2 s.buf = false := by
  rw [have2_eq_len]
  exact decide_eq_false (by omega)

/-- `LenFieldResident()` requires `Have2()` (R90). -/
theorem lenFieldResident_eq_false_of_not_have2 {b : Bytes} (h : have2 b = false) : lenFieldResident b = false := by
  simp [lenFieldResident, h]

/-- `HeaderResident()` requires `Have2()` (R90). -/
theorem headerResident_eq_false_of_not_have2 {b : Bytes} (h : have2 b = false) : headerResident b = false := by
  simp [headerResident, h]

/-! ### Operands that pass their check -/

theorem flagValid_iff (v : Byte) : flagValid v = true ↔ v.toNat ≤ 1 := decide_eq_true_iff

theorem opcodeValid_iff (v : Byte) : opcodeValid v = true ↔ v.toNat ≤ 15 := decide_eq_true_iff

theorem keyValid_iff (key : Bytes) : keyValid key = true ↔ key.length = 4 := beq_iff_eq

/-! ### The operations, their precondition false -/

theorem raises_iff (i : Instr) (s : State) (e : ErrorCode) : Raises i s e ↔ exec i s = raise s e := Iff.rfl

theorem getField_of_not_have2 {s : State} (h : have2 s.buf = false) (off pos w : Nat) :
    getField off pos w s = raise s .headerIncomplete := by
  simp [getField, h]

theorem setField_of_not_have2 {s : State} (h : have2 s.buf = false) {ok : Byte → Bool} {arg : Byte}
    (hok : ok arg = true) (pos w : Nat) : setField ok pos w arg s = raise s .headerIncomplete := by
  simp [setField, hok, h]

theorem readParser_of_not_ready {s : State} {ready : Bytes → Bool} (h : ready s.buf = false) (f : Bytes → Nat) :
    readParser ready f s = raise s .headerIncomplete := by
  simp [readParser, h]

theorem execGetKey_of_not_have2 {s : State} (h : have2 s.buf = false) :
    execGetKey s = raise s .headerIncomplete := by
  simp [execGetKey, h]

theorem execRemoveKey_of_not_have2 {s : State} (h : have2 s.buf = false) :
    execRemoveKey s = raise s .headerIncomplete := by
  simp [execRemoveKey, h]

theorem execSetKey_of_not_resident {s : State} (h : headerResident s.buf = false) {key : Bytes}
    (hkey : keyValid key = true) : execSetKey key s = raise s .headerIncomplete := by
  simp [execSetKey, hkey, h]

theorem execGetPayload_of_not_resident {s : State} (h : headerResident s.buf = false) :
    execGetPayload s = raise s .headerIncomplete := by
  simp [execGetPayload, h]

theorem execSetPayload_of_not_resident {s : State} (h : headerResident s.buf = false) (data : Bytes) :
    execSetPayload data s = raise s .headerIncomplete := by
  simp [execSetPayload, h]

theorem execRemovePayload_of_not_resident {s : State} (h : headerResident s.buf = false) :
    execRemovePayload s = raise s .headerIncomplete := by
  simp [execRemovePayload, h]

/-! ### O1 -/

/-- Settles O1: fewer than two bytes make all three preconditions of the header false, and every accessor tests
one of them as soon as its operand is accepted. -/
theorem resetLeavesNoFrame : Obligations.ResetLeavesNoFrame := by
  unfold Obligations.ResetLeavesNoFrame
  refine ⟨rfl, rfl, fun s arg key data hlen harg hkey => ?_⟩
  have h2 : have2 s.buf = false := have2_eq_false_of_short hlen
  have hl : lenFieldResident s.buf = false := lenFieldResident_eq_false_of_not_have2 h2
  have hr : headerResident s.buf = false := headerResident_eq_false_of_not_have2 h2
  have hflag : flagValid arg = true := (flagValid_iff arg).2 harg
  have hopcode : opcodeValid arg = true := (opcodeValid_iff arg).2 (by omega)
  have getter := getField_of_not_have2 h2
  have reader := readParser_of_not_ready (s := s) h2
  have flagSetter := setField_of_not_have2 h2 hflag
  simp only [List.forall_mem_cons, raises_iff]
  exact ⟨getter 0 7 1, getter 0 6 1, getter 0 5 1, getter 0 4 1, getter 0 0 4, getter 1 7 1,
    reader len7, reader extw, reader keyoff, reader payoff,
    readParser_of_not_ready hr resident, readParser_of_not_ready hl payloadLength,
    execGetKey_of_not_have2 h2, execGetPayload_of_not_resident hr,
    flagSetter 7 1, flagSetter 6 1, flagSetter 5 1, flagSetter 4 1, setField_of_not_have2 h2 hopcode 0 4,
    execSetKey_of_not_resident hr ((keyValid_iff key).2 hkey), execRemoveKey_of_not_have2 h2,
    execSetPayload_of_not_resident hr data, execRemovePayload_of_not_resident hr, List.forall_mem_nil _⟩

end Sys2Proof.Machine
end

section
/-! The read commands (20_memory.md R46): a response put out is all they do, and no instruction reads what the port
held before (10_state.md R27(e)). -/

namespace Sys2Proof.Machine

/-- The outcome is a next state that differs from `s` in its port alone, where a response stands. -/
def RespondsOnly (s : State) (o : Out) : Prop := ∃ r, o = .next { s with port := .response r }

/-! ### Operations that only respond -/

theorem raise_respondsOnly (s : State) (e : ErrorCode) : RespondsOnly s (raise s e) := ⟨_, raise_eq s e⟩

theorem answer_respondsOnly (s : State) (r : Response) : RespondsOnly s (answer s r) := ⟨_, answer_eq s r⟩

theorem respondsOnly_ite {s : State} {c : Prop} [Decidable c] {a b : Out} (ha : RespondsOnly s a)
    (hb : RespondsOnly s b) : RespondsOnly s (if c then a else b) := by
  by_cases hc : c
  · rwa [if_pos hc]
  · rwa [if_neg hc]

theorem getField_respondsOnly (off pos w : Nat) (s : State) : RespondsOnly s (getField off pos w s) :=
  respondsOnly_ite (raise_respondsOnly s _) (answer_respondsOnly s _)

theorem readParser_respondsOnly (ready : Bytes → Bool) (f : Bytes → Nat) (s : State) :
    RespondsOnly s (readParser ready f s) :=
  respondsOnly_ite (raise_respondsOnly s _) (answer_respondsOnly s _)

theorem execGetKey_respondsOnly (s : State) : RespondsOnly s (execGetKey s) :=
  respondsOnly_ite (raise_respondsOnly s _) <|
    respondsOnly_ite (answer_respondsOnly s _) <|
      respondsOnly_ite (raise_respondsOnly s _) (answer_respondsOnly s _)

theorem execGetPayload_respondsOnly (s : State) : RespondsOnly s (execGetPayload s) :=
  respondsOnly_ite (raise_respondsOnly s _) <|
    respondsOnly_ite (answer_respondsOnly s _) (answer_respondsOnly s _)

theorem execXform_respondsOnly (key data : Bytes) (s : State) : RespondsOnly s (execXform key data s) :=
  respondsOnly_ite (raise_respondsOnly s _) (answer_respondsOnly s _)

/-! ### Instructions -/

theorem exec_respondsOnly {i : Instr} (hread : i.readOnly = true) (hcmd : i.isHeader = false) (s : State) :
    RespondsOnly s (exec i s) := by
  cases i with
  | getFin | getRsv1 | getRsv2 | getRsv3 | getOpcode | getMask => exact getField_respondsOnly _ _ _ s
  | getLen7 | getExtw | getKeyoff | getPayoff | getResident | getPaylen => exact readParser_respondsOnly _ _ s
  | getKey => exact execGetKey_respondsOnly s
  | getPayload => exact execGetPayload_respondsOnly s
  | isComplete | isValid => exact answer_respondsOnly s _
  | xform key data => exact execXform_respondsOnly key data s
  | load | build | append | setFin | setRsv1 | setRsv2 | setRsv3 | setOpcode | setKey | removeKey | setPayload
  | removePayload => cases hread
  | hdrL7U | hdrL7M | hdrL16U | hdrL16M | hdrL64U | hdrL64M => cases hcmd

/-- In every arm the tests are on the operands, `BUF` and the parameters, and the end of each branch writes the
port anew (R27(e)). -/
theorem exec_of_port (i : Instr) (s : State) (p : Port) : exec i { s with port := p } = exec i s := by
  cases i <;> rfl

/-! ### O15 -/

/-- Settles O15: in the state itself a read command only responds, and with another port it does the same. -/
theorem readsChangeNothing : Obligations.ReadsChangeNothing := by
  unfold Obligations.ReadsChangeNothing
  intro i s hread hcmd
  obtain ⟨r, hr⟩ := exec_respondsOnly hread hcmd s
  exact ⟨r, fun p => (exec_of_port i s p).trans hr⟩

end Sys2Proof.Machine
end

section
/-! Encodings (30_encoding.md): undefined command codes (R73), the tests on `W` that select the header form (R61)
and the length encoder (R70). -/

namespace Sys2Proof

/-! ### Command codes outside the table -/

/-- The codes of R73 are those that no row of R72 has. -/
theorem decodePacket_of_undefined {c : Byte}
    (h : c.toNat = 0 ∨ (4 ≤ c.toNat ∧ c.toNat ≤ 15) ∨ (41 ≤ c.toNat ∧ c.toNat ≤ 47) ∨ 49 ≤ c.toNat)
    (rest : Bytes) : decodePacket (c :: rest) = .undefinedCode rest := by
  simp only [decodePacket]
  split
  case h_30 => rfl
  all_goals omega

/-! ### The word of the two header bytes -/

/-- A mask on the low byte of `W` sees byte 1 alone. -/
theorem word_and_eq_iff (b0 b1 m v : Byte) :
    (b0 ++ b1 : BitVec 16) &&& (0#8 ++ m) = 0#8 ++ v ↔ b1 &&& m = v := by
  have h : (b0 ++ b1 : BitVec 16) &&& (0#8 ++ m) = (b0 &&& 0#8) ++ (b1 &&& m) := BitVec.and_append
  rw [h, BitVec.and_zero]
  exact BitVec.append_right_inj 0#8

/-- The tests `W & 0x00FF = v` of R61. -/
theorem word_low_byte_eq_iff (b0 b1 v : Byte) : (b0 ++ b1 : BitVec 16) &&& 0x00FF = 0#8 ++ v ↔ b1 = v := by
  have h : b1 &&& 0xFF#8 = b1 := BitVec.and_allOnes
  have hw := word_and_eq_iff b0 b1 0xFF#8 v
  rwa [h] at hw

/-- `len7` is a literal length exactly when byte 1 is none of the four escape values (R61). -/
theorem literal_iff_not_escape (b1 : Byte) :
    (b1.extractLsb' 0 7).toNat ≤ 125 ↔ ¬ (b1 = 0x7E#8 ∨ b1 = 0xFE#8 ∨ b1 = 0x7F#8 ∨ b1 = 0xFF#8) := by
  revert b1
  decide

theorem decodeHeader_of_literal {b1 : Byte} (h : (b1.extractLsb' 0 7).toNat ≤ 125) (b0 : Byte) :
    decodeHeader b0 b1 =
      if b1 &&& M_MASK = 0#8 then .hdrL7U (decodeByte0 b0) (b1.extractLsb' 0 7)
      else .hdrL7M (decodeByte0 b0) (b1.extractLsb' 0 7) := by
  simp only [literal_iff_not_escape, not_or] at h
  obtain ⟨h16U, h16M, h64U, h64M⟩ := h
  simp only [decodeHeader, h16U, h16M, h64U, h64M, if_false]

namespace Machine

/-! ### Fetching an undefined code -/

theorem fetch_of_undefinedCode {s : State} {rest : Bytes} (hrst : s.rst = false)
    (hdec : decodePacket s.cmdIn = .undefinedCode rest) : fetch s = .undefinedCode (s.withCmdIn rest) := by
  cases hcmd : s.cmdIn with
  | nil =>
    rw [hcmd] at hdec
    cases hdec
  | cons c bs =>
    rw [hcmd] at hdec
    simp [fetch, hrst, hcmd, hdec]

theorem step_of_undefinedCode {s : State} {rest : Bytes} (hrst : s.rst = false)
    (hdec : decodePacket s.cmdIn = .undefinedCode rest) :
    step s = raise (s.withCmdIn rest) .illegalCommand := by
  simp only [step, fetch_of_undefinedCode hrst hdec]

/-! ### The layout, row by row -/

theorem len7_eq_extractLsb' (b0 b1 : Byte) (rest : Bytes) :
    len7 (b0 :: b1 :: rest) = (b1.extractLsb' 0 7).toNat := by
  rw [len7_cons]
  revert b1
  decide

/-- A key of 4 bytes stands before the payload exactly when the mask bit is 1 (R94). -/
theorem payoff_cons (b0 b1 : Byte) (rest : Bytes) :
    payoff (b0 :: b1 :: rest) = keyoff (b0 :: b1 :: rest) + if b1 &&& M_MASK = 0#8 then 0 else 4 := by
  rw [mask_part]
  by_cases h : b1 >>> 7 = 1#8
  · rw [payoff_of_mask (by simp [maskBit_cons, h])]
    simp [h]
  · rw [payoff_of_not_mask (by simp [maskBit_cons, h])]
    simp [h]

theorem extw_of_literal {b1 : Byte} (h : (b1.extractLsb' 0 7).toNat ≤ 125) (b0 : Byte) (rest : Bytes) :
    extw (b0 :: b1 :: rest) = 0 :=
  if_pos (by rwa [len7_eq_extractLsb'])

theorem extw_of_len7_eq_126 {b : Bytes} (h : len7 b = 126) : extw b = 2 := by
  simp [extw, h, LIT_MAX]

theorem extw_of_len7_eq_127 {b : Bytes} (h : len7 b = 127) : extw b = 8 := by
  simp [extw, h, LIT_MAX]

/-- A row of R61, from the width of the extended length and the width of the key its mask bit announces. -/
theorem layout_of_widths {b0 b1 : Byte} {rest : Bytes} {n k : Nat} (hn : extw (b0 :: b1 :: rest) = n)
    (hk : (if b1 &&& M_MASK = 0#8 then 0 else 4) = k) :
    extw (b0 :: b1 :: rest) = n ∧ keyoff (b0 :: b1 :: rest) = 2 + n ∧ payoff (b0 :: b1 :: rest) = 2 + n + k := by
  rw [payoff_cons, keyoff, hn, hk]
  exact ⟨rfl, rfl, rfl⟩

/-! ### The length encoder, an equation for each range -/

theorem encodeLength_of_le_125 {n : Nat} (h : n ≤ 125) : encodeLength n = (BitVec.ofNat 8 n, []) := if_pos h

theorem encodeLength_of_le_65535 {n : Nat} (hlo : 126 ≤ n) (hhi : n ≤ 65535) : encodeLength n = (126#8, be 2 n) :=
  (if_neg (Nat.not_le.2 hlo)).trans (if_pos hhi)

theorem encodeLength_of_65536_le {n : Nat} (h : 65536 ≤ n) : encodeLength n = (127#8, be 8 n) :=
  have h125 : 125 < n := by omega
  (if_neg (Nat.not_le.2 h125)).trans (if_neg (Nat.not_le.2 h))

/-! ### O7, O8, O37 -/

/-- Settles O7: the decoder takes the one byte of an undefined code, and raising an error changes only the port. -/
theorem undefinedCodeRaisesIllegalCommand : Obligations.UndefinedCodeRaisesIllegalCommand := by
  unfold Obligations.UndefinedCodeRaisesIllegalCommand
  intro s c rest hrst hcmd hcode
  have hdec : decodePacket s.cmdIn = .undefinedCode rest := by rw [hcmd, decodePacket_of_undefined hcode]
  rw [step_of_undefinedCode hrst hdec, raise_eq]
  rfl

/-- Settles O8: each test on `W` is a test on byte 1. The four escape tests fix byte 1 and with it the whole row;
where they fail, `len7` is a literal length and the mask bit alone decides between the two `L7` forms. -/
theorem headerFormIsSelectedByByteOne : Obligations.HeaderFormIsSelectedByByteOne := by
  unfold Obligations.HeaderFormIsSelectedByByteOne
  intro b0 b1 rest w h lit special form
  have hlow : ∀ v : Byte, w &&& 0x00FF = 0#8 ++ v ↔ b1 = v := word_low_byte_eq_iff b0 b1
  have hmask : ∀ v : Byte, w &&& 0x0080 = 0#8 ++ v ↔ b1 &&& M_MASK = v := word_and_eq_iff b0 b1 M_MASK
  have hspecial : special ↔ b1 = 0x7E#8 ∨ b1 = 0xFE#8 ∨ b1 = 0x7F#8 ∨ b1 = 0xFF#8 :=
    or_congr (hlow 0x7E#8) (or_congr (hlow 0xFE#8) (or_congr (hlow 0x7F#8) (hlow 0xFF#8)))
  have hlit : ¬ special → lit.toNat ≤ 125 := fun hs => (literal_iff_not_escape b1).2 (mt hspecial.2 hs)
  refine ⟨fun hw => ?_, fun hw => ?_, fun hw => ?_, fun hw => ?_, fun hw hs => ⟨?_, hlit hs⟩,
    fun hw hs => ⟨?_, hlit hs⟩⟩
  · obtain rfl := (hlow 0x7E#8).1 hw
    exact ⟨rfl, layout_of_widths (extw_of_len7_eq_126 (len7_cons b0 0x7E#8 rest)) rfl⟩
  · obtain rfl := (hlow 0xFE#8).1 hw
    exact ⟨rfl, layout_of_widths (extw_of_len7_eq_126 (len7_cons b0 0xFE#8 rest)) rfl⟩
  · obtain rfl := (hlow 0x7F#8).1 hw
    exact ⟨rfl, layout_of_widths (extw_of_len7_eq_127 (len7_cons b0 0x7F#8 rest)) rfl⟩
  · obtain rfl := (hlow 0xFF#8).1 hw
    exact ⟨rfl, layout_of_widths (extw_of_len7_eq_127 (len7_cons b0 0xFF#8 rest)) rfl⟩
  · have hm : b1 &&& M_MASK = 0#8 := (hmask 0#8).1 hw
    exact ⟨(decodeHeader_of_literal (hlit hs) b0).trans (if_pos hm),
      layout_of_widths (extw_of_literal (hlit hs) b0 rest) (if_pos hm)⟩
  · have hm : ¬ b1 &&& M_MASK = 0#8 := by simp [(hmask 0x80#8).1 hw]
    exact ⟨(decodeHeader_of_literal (hlit hs) b0).trans (if_neg hm),
      layout_of_widths (extw_of_literal (hlit hs) b0 rest) (if_neg hm)⟩

/-- Settles O37: an equation for each range, and `encodeLength_parses` for the way back. -/
theorem encodeLengthIsMinimalAndDecodes : Obligations.EncodeLengthIsMinimalAndDecodes := by
  unfold Obligations.EncodeLengthIsMinimalAndDecodes
  refine ⟨fun n => encodeLength_of_le_125, fun n => encodeLength_of_le_65535,
    fun n h _ => encodeLength_of_65536_le h, fun n b0 m rest hn hm => ?_⟩
  obtain ⟨hext, hlen⟩ := encodeLength_parses n b0 m rest hm
  refine ⟨(lenFieldResident_iff _).2 ⟨by simp, ?_⟩, hlen hn, hext⟩
  simp only [hext, List.length_cons, List.length_append]
  omega

end Machine
end Sys2Proof
end

section
/-! The header parser's read commands (40_layout_engine.md R97-R102): a read whose precondition holds answers its
parser function, and what the parser functions are of a buffer given byte by byte (R91-R96). -/

namespace Sys2Proof

/-! ### Bytes, most significant first, as one word (R6) -/

/-- A byte more after the bytes that make up the word `w`. -/
theorem ubeFrom_toNat_cons {n : Nat} (w : BitVec n) (b : Byte) (bs : Bytes) :
    ubeFrom w.toNat (b :: bs) = ubeFrom (w ++ b).toNat bs := by
  have h : (w ++ b).toNat = w.toNat * 256 + b.toNat := by
    rw [BitVec.toNat_append, ← Nat.shiftLeft_add_eq_or_of_lt b.isLt, Nat.shiftLeft_eq]
  rw [ubeFrom, h]

theorem ube_two (x y : Byte) : ube [x, y] = (x ++ y).toNat := by
  have hx : ube [x, y] = ubeFrom x.toNat [y] := by simp only [ube, ubeFrom, Nat.zero_mul, Nat.zero_add]
  rw [hx, ubeFrom_toNat_cons, ubeFrom]

theorem ube_eight (a b c d e f g h : Byte) :
    ube [a, b, c, d, e, f, g, h] = (a ++ b ++ c ++ d ++ e ++ f ++ g ++ h).toNat := by
  have ha : ube [a, b, c, d, e, f, g, h] = ubeFrom a.toNat [b, c, d, e, f, g, h] := by
    rw [ube, ubeFrom, Nat.zero_mul, Nat.zero_add]
  simp only [ha, ubeFrom_toNat_cons]
  rw [ubeFrom]

namespace Machine

/-! ### A read whose precondition holds -/

theorem valOfCount_toNat (v : Val) : valOfCount v.toNat = v := by
  rw [valOfCount_of_lt v.isLt, BitVec.ofNat_toNat, BitVec.setWidth_eq]

theorem readParser_of_ready {s : State} {ready : Bytes → Bool} {f : Bytes → Nat} {v : Val}
    (h : ready s.buf = true) (hv : f s.buf = v.toNat) : readParser ready f s = answer s (valResponse v) := by
  simp [readParser, h, hv, valOfCount_toNat]

/-- The same for a count that `zext_64` is defined on (R8). -/
theorem readParser_of_ready_of_lt {s : State} {ready : Bytes → Bool} {f : Bytes → Nat} (h : ready s.buf = true)
    {n : Nat} (hf : f s.buf = n) (hn : n < 2 ^ 64) :
    readParser ready f s = answer s (valResponse (BitVec.ofNat 64 n)) :=
  readParser_of_ready h (by rw [hf, BitVec.toNat_ofNat, Nat.mod_eq_of_lt hn])

/-! ### The preconditions, by `LEN` (R90) -/

theorem have2_of_cons {s : State} {b0 b1 : Byte} {rest : Bytes} (hb : s.buf = b0 :: b1 :: rest) :
    have2 s.buf = true := by
  rw [have2_eq_len]
  exact decide_eq_true (two_le_len_of_cons hb)

theorem headerResident_eq_true_iff_len (s : State) :
    headerResident s.buf = true ↔ 2 ≤ s.len ∧ payoff s.buf ≤ s.len := by
  rw [headerResident_iff, State.length_buf]

theorem headerResident_eq_false_iff_len (s : State) :
    headerResident s.buf = false ↔ s.len < 2 ∨ s.len < payoff s.buf := by
  rw [Bool.eq_false_iff, ne_eq, headerResident_eq_true_iff_len, not_and_or, Nat.not_le, Nat.not_le]

theorem lenFieldResident_eq_true_iff_len (s : State) :
    lenFieldResident s.buf = true ↔ 2 ≤ s.len ∧ 2 + extw s.buf ≤ s.len := by
  rw [lenFieldResident_iff, State.length_buf]

theorem lenFieldResident_eq_false_iff_len (s : State) :
    lenFieldResident s.buf = false ↔ s.len < 2 ∨ s.len < 2 + extw s.buf := by
  rw [Bool.eq_false_iff, ne_eq, lenFieldResident_eq_true_iff_len, not_and_or, Nat.not_le, Nat.not_le]

/-! ### The parser functions of a buffer given byte by byte -/

/-- R94 with the mask bit written as `BUF[1] >> 7`. -/
theorem payoff_cons_shift (b0 b1 : Byte) (rest : Bytes) :
    payoff (b0 :: b1 :: rest) =
      if b1 >>> 7 = 1#8 then keyoff (b0 :: b1 :: rest) + 4 else keyoff (b0 :: b1 :: rest) := by
  simp only [payoff, maskBit_cons, decide_eq_true_eq, KEYW]

theorem payloadLength_of_literal {b : Bytes} (h : len7 b ≤ 125) : payloadLength b = len7 b := if_pos h

/-- R96, both escapes: the extended length `e` stands in full after byte 1. -/
theorem payloadLength_of_escape {b e z : Bytes} {b0 b1 : Byte} (hb : b = b0 :: b1 :: (e ++ z))
    (hesc : 125 < len7 b) (he : extw b = e.length) : payloadLength b = ube e := by
  subst hb
  exact (payloadLength_cons b0 b1 e z he.symm).trans (if_neg (Nat.not_le.2 hesc))

/-- `GET_PAYLEN` on a frame in pieces: bytes 0 and 1, the extended length `e`, whatever follows. -/
theorem getPaylen_answers {s : State} {b0 b1 : Byte} {e z : Bytes} {v : Val} (hb : s.buf = b0 :: b1 :: (e ++ z))
    (he : extw s.buf = e.length) (hv : payloadLength s.buf = v.toNat) :
    Answers .getPaylen s { err := .ok, null := false, val := v, out := [] } := by
  have hlen : s.len = 2 + e.length + z.length := by
    rw [← State.length_buf, hb]
    simp only [List.length_cons, List.length_append]
    omega
  have hready : lenFieldResident s.buf = true := by
    rw [lenFieldResident_eq_true_iff_len, he]
    omega
  exact readParser_of_ready hready hv

/-! ### O22, O23, O25 -/

/-- Settles O22: all four reads require `Have2()` alone, and their values are those of the parser functions of
byte 1, none above 127. -/
theorem parserReadsOfByteOne : Obligations.ParserReadsOfByteOne := by
  unfold Obligations.ParserReadsOfByteOne
  refine ⟨fun rest => ⟨rfl, rfl, rfl, rfl⟩, fun s => ⟨fun hlen => ?_, ?_⟩⟩
  · have reader := readParser_of_not_ready (have2_eq_false_of_short hlen)
    simp only [List.forall_mem_cons, raises_iff]
    exact ⟨reader len7, reader extw, reader keyoff, reader payoff, List.forall_mem_nil _⟩
  · intro b0 b1 rest hb l e ko po
    have hl : len7 s.buf = l := by rw [hb, len7_cons]
    have he : extw s.buf = e := by rw [extw, hl]
    have hko : keyoff s.buf = ko := by rw [keyoff, he]
    have hpo : payoff s.buf = po := by rw [hb, payoff_cons_shift, ← hb, hko]
    have hlt : len7 s.buf < 128 := len7_lt s.buf
    have hsize : payoff s.buf ≤ 14 := payoff_le s.buf
    have hkey : keyoff s.buf ≤ payoff s.buf := keyoff_le_payoff s.buf
    have hext : keyoff s.buf = 2 + extw s.buf := rfl
    have reader {f : Bytes → Nat} {n : Nat} (hf : f s.buf = n) (hn : n < 2 ^ 64) :=
      readParser_of_ready_of_lt (have2_of_cons hb) hf hn
    exact ⟨reader hl (by omega), reader he (by omega), reader hko (by omega), reader hpo (by omega)⟩

/-- Settles O23: the read requires `HeaderResident()`, and its count is `LEN - payoff()` by definition. -/
theorem residentCountIsRead : Obligations.ResidentCountIsRead := by
  unfold Obligations.ResidentCountIsRead
  refine ⟨fun rest => rfl, fun s => ⟨fun hshort => ?_, fun h2 hpo hlt => ?_⟩⟩
  · exact readParser_of_not_ready ((headerResident_eq_false_iff_len s).2 hshort) resident
  · have hcount : resident s.buf = s.len - payoff s.buf := by rw [resident, State.length_buf]
    exact readParser_of_ready_of_lt ((headerResident_eq_true_iff_len s).2 ⟨h2, hpo⟩) hcount hlt

/-- Settles O25: byte 1 fixes how many bytes of extended length there are (none, 2 or 8), and these as one word
are the declared length. -/
theorem declaredLengthIsRead : Obligations.DeclaredLengthIsRead := by
  unfold Obligations.DeclaredLengthIsRead
  refine ⟨fun rest => rfl, fun s => ⟨fun hshort => ?_, fun b0 b1 rest hb hlit => ?_,
    fun b0 b1 x y rest hb hesc => ?_, fun b0 b1 a b c d e f g h rest hb hesc => ?_⟩⟩
  · exact readParser_of_not_ready ((lenFieldResident_eq_false_iff_len s).2 hshort) payloadLength
  · have hl : len7 s.buf = (b1 &&& 0x7F#8).toNat := by rw [hb, len7_cons]
    refine getPaylen_answers (e := []) hb (if_pos (by rwa [hl])) ?_
    rw [payloadLength_of_literal (by rwa [hl]), hl, BitVec.toNat_setWidth_of_le (by decide)]
  · have hl : len7 s.buf = 126 := by rw [hb, len7_cons, hesc]; rfl
    have he : extw s.buf = 2 := extw_of_len7_eq_126 hl
    have hlen : payloadLength s.buf = ube [x, y] := payloadLength_of_escape hb (by omega) he
    refine getPaylen_answers (e := [x, y]) hb he ?_
    rw [hlen, ube_two, BitVec.toNat_setWidth_of_le (by decide)]
  · have hl : len7 s.buf = 127 := by rw [hb, len7_cons, hesc]; rfl
    have he : extw s.buf = 8 := extw_of_len7_eq_127 hl
    have hlen : payloadLength s.buf = ube [a, b, c, d, e, f, g, h] := payloadLength_of_escape hb (by omega) he
    exact getPaylen_answers (e := [a, b, c, d, e, f, g, h]) hb he (hlen.trans (ube_eight a b c d e f g h))

end Machine
end Sys2Proof
end

section
/-! The masking cipher (41_masking_cipher.md R110-R114): the byte at each index fixes the whole result, so a law of
the cipher is a law of the key bytes. -/

namespace Sys2Proof.Machine

/-! ### The key bytes -/

theorem byteAt_of_getElem? {k : Bytes} {n : Nat} {y : Byte} (h : k[n]? = some y) : byteAt k n = y := by
  rw [byteAt, List.getD_eq_getElem?_getD, h, Option.getD_some]

theorem byteAt_replicate_zero (m n : Nat) : byteAt (List.replicate m 0#8) n = 0#8 :=
  List.getElem?_getD_replicate_default_eq 0#8 m n

/-- Two keys of one length, combined byte by byte; past their end all three read as 0. -/
theorem byteAt_zipWith_xor {k k' : Bytes} (h : k.length = k'.length) (n : Nat) :
    byteAt (List.zipWith (· ^^^ ·) k k') n = byteAt k n ^^^ byteAt k' n := by
  simp only [byteAt, List.getD_eq_getElem?_getD, List.getElem?_zipWith]
  by_cases hn : n < k.length
  · simp [hn, ← h]
  · simp [hn, ← h]

/-- `rot(k, a)[j] = k[(a + j) mod 4]`, the indices taken modulo 4 as the cipher takes them (R113 (e)). -/
theorem byteAt_rotate {k : Bytes} (hk : k.length = 4) (a j : Nat) :
    byteAt (k.rotate (a % 4)) (j % 4) = byteAt k ((a + j) % 4) := by
  have hj : j % 4 < k.length := by omega
  simp only [byteAt, List.getD_eq_getElem?_getD]
  rw [List.getElem?_rotate hj, hk, ← Nat.add_mod, Nat.add_comm]

/-! ### The laws -/

theorem transform_getElem? (s k : Bytes) (j : Nat) :
    (transform s k)[j]? = s[j]?.map fun b => b ^^^ byteAt k (j % 4) := by
  rw [transform, transformFrom_getElem?, Nat.zero_add]

theorem transform_zero_key (s : Bytes) : transform s (List.replicate 4 0#8) = s := by
  apply List.ext_getElem?
  intro j
  simp only [transform_getElem?, byteAt_replicate_zero, BitVec.xor_zero, Option.map_id_fun', id_eq]

theorem transform_transform_of_two_keys (s : Bytes) {k k' : Bytes} (h : k.length = k'.length) :
    transform (transform s k) k' = transform s (List.zipWith (· ^^^ ·) k k') := by
  apply List.ext_getElem?
  intro j
  simp only [transform_getElem?, Option.map_map, Function.comp_def, byteAt_zipWith_xor h, BitVec.xor_assoc]

/-- Starting at index `a` is starting at index 0 with the key rotated by `a mod 4`. -/
theorem transformFrom_eq_transform_rotate {k : Bytes} (hk : k.length = 4) (a : Nat) (s : Bytes) :
    transformFrom a k s = transform s (k.rotate (a % 4)) := by
  apply List.ext_getElem?
  intro j
  rw [transformFrom_getElem?, transform_getElem?, byteAt_rotate hk]

theorem transform_split {k : Bytes} (hk : k.length = 4) {s : Bytes} {a : Nat} (ha : a ≤ s.length) :
    transform s k = transform (s.take a) k ++ transform (s.drop a) (k.rotate (a % 4)) := by
  have hstart : 0 + (s.take a).length = a := by rw [Nat.zero_add, List.length_take_of_le ha]
  calc transform s k
      = transformFrom 0 k (s.take a ++ s.drop a) := by rw [List.take_append_drop, transform]
    _ = transform (s.take a) k ++ transformFrom a k (s.drop a) := by
        rw [transformFrom_append, hstart, transform]
    _ = _ := by rw [transformFrom_eq_transform_rotate hk]

/-! ### XFORM -/

theorem execXform_of_wrongLength {key : Bytes} (h : key.length ≠ 4) (data : Bytes) (s : State) :
    execXform key data s = raise s .wrongLength := by
  simp [execXform, mt (keyValid_iff key).1 h]

theorem execXform_of_valid {key : Bytes} (h : key.length = 4) (data : Bytes) (s : State) :
    execXform key data s = answer s (outResponse (transform data key)) := by
  simp [execXform, (keyValid_iff key).2 h]

/-! ### O28, O29, O30, O31 -/

/-- Settles O28, by the byte at each index. -/
theorem transformXorsByPosition : Obligations.TransformXorsByPosition := by
  unfold Obligations.TransformXorsByPosition
  intro s k _
  refine ⟨transform_length s k, fun i x y hx hy => ?_⟩
  rw [transform_getElem?, hx, byteAt_of_getElem? hy, Option.map_some]

/-- Settles O29: each byte is combined twice with the same key byte. -/
theorem maskingIsAnInvolution : Obligations.MaskingIsAnInvolution := by
  unfold Obligations.MaskingIsAnInvolution
  intro s k _
  exact transform_transform s k

/-- Settles O30, a lemma for each of (a) to (e). -/
theorem transformLaws : Obligations.TransformLaws := by
  unfold Obligations.TransformLaws
  intro s k k' hk hk'
  exact ⟨transform_length s k, transform_nil k, transform_zero_key s,
    transform_transform_of_two_keys s (hk.trans hk'.symm), fun _ ha => transform_split hk ha⟩

/-- Settles O31: the length of the key is the only test, and `BUF` stands in neither branch. -/
theorem xformTransformsItsData : Obligations.XformTransformsItsData := by
  unfold Obligations.XformTransformsItsData
  refine ⟨fun rest => rfl, fun s key data => ⟨fun hkey => ?_, fun hkey => ?_⟩⟩
  · exact (raises_iff _ _ _).2 (execXform_of_wrongLength hkey data s)
  · exact (execXform_of_valid hkey data s).trans (answer_eq s _)

end Sys2Proof.Machine
end

section
/-! Construction (42_construction.md R120-R122): what `LOAD`, `APPEND` and `BUILD` make of the buffer, the checks of a
`BUILD` descriptor in their order, and what bytes added at the end keep. -/

namespace Sys2Proof.Machine

/-! ### The capacity test at the end of a command (R193) -/

theorem replaceBuffer_of_above {s : State} {b : Bytes} {m : Nat} (hm : s.cfg.bufMax = some m) (h : m < b.length)
    (r : Response) : replaceBuffer s b r = raise s .overflow :=
  replaceBuffer_of_not_fits ((fitsBuffer_eq_false_iff _ _).2 ⟨m, hm, h⟩) r

theorem replaceBuffer_of_within {s : State} {b : Bytes} (h : ∀ m, s.cfg.bufMax = some m → b.length ≤ m)
    (r : Response) : replaceBuffer s b r = .next { s with mem := Memory.ofBytes b, port := .response r } :=
  replaceBuffer_of_fits ((fitsBuffer_eq_true_iff _ _).2 h) r

/-! ### LOAD -/

theorem rawValid_iff (data : Bytes) : rawValid data = true ↔ 2 ≤ data.length := decide_eq_true_iff

theorem execLoad_of_short {data : Bytes} (h : data.length < 2) (s : State) :
    execLoad data s = raise s .invalidArgumentShape := by
  simp [execLoad, mt (rawValid_iff data).1 (Nat.not_le.2 h)]

theorem execLoad_of_two_le {data : Bytes} (h : 2 ≤ data.length) (s : State) :
    execLoad data s = replaceBuffer s data okResponse := by
  simp [execLoad, (rawValid_iff data).2 h]

/-! ### Bytes added at the end -/

theorem byteAt_append {b : Bytes} {i : Nat} (h : i < b.length) (data : Bytes) : byteAt (b ++ data) i = byteAt b i := by
  rw [byteAt, byteAt, List.getD_append _ _ _ _ h]

/-- The declared length is read from byte 1 and the extended length, which adding bytes does not reach (R121). -/
theorem lenFieldResident_append {b : Bytes} (h : lenFieldResident b = true) (data : Bytes) :
    lenFieldResident (b ++ data) = true ∧ payloadLength (b ++ data) = payloadLength b := by
  obtain ⟨h2, hext⟩ := (lenFieldResident_iff b).1 h
  have h1 : byteAt (b ++ data) 1 = byteAt b 1 := byteAt_append h2 data
  obtain ⟨-, hextw, hkeyoff, -⟩ := parser_congr h1
  constructor
  · rw [lenFieldResident_iff, hextw, List.length_append]
    omega
  · refine payloadLength_congr h1 ?_
    rw [hkeyoff]
    exact slice_append data hext (two_le_keyoff b)

theorem keyBytes_append {b : Bytes} (hr : headerResident b = true) (hm : maskBit b = true) (data : Bytes) :
    keyBytes (b ++ data) = keyBytes b := by
  obtain ⟨h2, hpay⟩ := (headerResident_iff b).1 hr
  obtain ⟨-, -, hkeyoff, -⟩ := parser_congr (byteAt_append h2 data)
  rw [payoff_of_mask hm] at hpay
  rw [keyBytes, hkeyoff]
  exact slice_append data hpay (Nat.le_add_right _ _)

/-! ### The checks of a descriptor -/

/-- Every supplied flag is 0 or 1 and a supplied opcode is at most 15 (R186, R187). -/
def fieldsInRange (d : Descriptor) : Bool :=
  optValid flagValid d.fin && optValid flagValid d.rsv1 && optValid flagValid d.rsv2 && optValid flagValid d.rsv3 &&
    optValid opcodeValid d.opcode

theorem optValid_iff {α : Type} (ok : α → Bool) (o : Option α) :
    optValid ok o = true ↔ ∀ v, o = some v → ok v = true := by
  cases o <;> simp [optValid]

/-- The order of R122: `PRES` bit 7, the fields of byte 0, the key. -/
theorem descriptorError_eq (d : Descriptor) :
    descriptorError d =
      if d.presBit7 then some .illegalCommand
      else if !fieldsInRange d then some .outOfRange
      else if !optValid keyValid d.maskingKey then some .wrongLength
      else none := by
  unfold descriptorError fieldsInRange
  cases optValid flagValid d.fin
  · rfl
  cases optValid flagValid d.rsv1
  · rfl
  cases optValid flagValid d.rsv2
  · rfl
  cases optValid flagValid d.rsv3
  · rfl
  rfl

theorem fieldsInRange_iff (d : Descriptor) : fieldsInRange d = true ↔ ¬ descriptorOutOfRange d := by
  simp only [fieldsInRange, Bool.and_eq_true, optValid_iff, flagValid_iff, opcodeValid_iff, descriptorOutOfRange]
  push Not
  constructor
  · rintro ⟨⟨⟨⟨hfin, h1⟩, h2⟩, h3⟩, hop⟩
    refine ⟨?_, hop⟩
    rintro v (h | h | h | h)
    exacts [hfin v h, h1 v h, h2 v h, h3 v h]
  · rintro ⟨hflag, hop⟩
    exact ⟨⟨⟨⟨fun v h => hflag v (.inl h), fun v h => hflag v (.inr (.inl h))⟩,
      fun v h => hflag v (.inr (.inr (.inl h)))⟩, fun v h => hflag v (.inr (.inr (.inr h)))⟩, hop⟩

theorem keySupplied_valid_iff (o : Option Bytes) :
    optValid keyValid o = true ↔ ∀ k, o = some k → k.length = 4 := by
  simp only [optValid_iff, keyValid_iff]

theorem descriptorError_of_presBit7 {d : Descriptor} (h : d.presBit7 = true) :
    descriptorError d = some .illegalCommand := by
  rw [descriptorError_eq, if_pos h]

theorem descriptorError_of_outOfRange {d : Descriptor} (hpres : d.presBit7 = false) (h : descriptorOutOfRange d) :
    descriptorError d = some .outOfRange := by
  have hf : fieldsInRange d = false := Bool.eq_false_iff.2 fun hf => (fieldsInRange_iff d).1 hf h
  simp [descriptorError_eq, hpres, hf]

theorem descriptorError_of_wrongLength {d : Descriptor} (hpres : d.presBit7 = false) (hin : ¬ descriptorOutOfRange d)
    {k : Bytes} (hk : d.maskingKey = some k) (hlen : k.length ≠ 4) : descriptorError d = some .wrongLength := by
  have hkey : optValid keyValid d.maskingKey = false :=
    Bool.eq_false_iff.2 fun h => hlen ((keySupplied_valid_iff _).1 h k hk)
  simp [descriptorError_eq, hpres, (fieldsInRange_iff d).2 hin, hkey]

theorem descriptorError_eq_none_iff (d : Descriptor) :
    descriptorError d = none ↔
      d.presBit7 = false ∧ ¬ descriptorOutOfRange d ∧ ∀ k, d.maskingKey = some k → k.length = 4 := by
  rw [descriptorError_eq, ← fieldsInRange_iff, ← keySupplied_valid_iff]
  cases d.presBit7
  · cases fieldsInRange d
    · simp
    · simp
  · simp

theorem descriptorError_ne_ok (d : Descriptor) : descriptorError d ≠ some .ok := by
  rw [descriptorError_eq]
  split_ifs <;> simp

/-! ### BUILD -/

theorem execBuild_of_error {d : Descriptor} {e : ErrorCode} (h : descriptorError d = some e) (s : State) :
    execBuild d s = raise s e := by
  simp only [execBuild, h]

theorem execBuild_of_valid {d : Descriptor} (h : descriptorError d = none) (s : State) :
    execBuild d s = replaceBuffer s (buildFrame d) okResponse := by
  simp only [execBuild, h]

/-- Byte 0 of the frame: the supplied fields at their bits, 0 for an absent one (R122). -/
def descriptorByte0 (d : Descriptor) : Byte :=
  (d.fin.getD 0 <<< 7) ||| (d.rsv1.getD 0 <<< 6) ||| (d.rsv2.getD 0 <<< 5) ||| (d.rsv3.getD 0 <<< 4) |||
    d.opcode.getD 0

theorem buildFrame_of_no_key {d : Descriptor} (h : d.maskingKey = none) :
    buildFrame d = [descriptorByte0 d, (encodeLength (d.payload.getD []).length).1] ++
      (encodeLength (d.payload.getD []).length).2 ++ d.payload.getD [] := by
  simp [buildFrame, descriptorByte0, h]

theorem buildFrame_of_key {d : Descriptor} {k : Bytes} (h : d.maskingKey = some k) :
    buildFrame d = [descriptorByte0 d, 0x80#8 ||| (encodeLength (d.payload.getD []).length).1] ++
      (encodeLength (d.payload.getD []).length).2 ++ k ++ transform (d.payload.getD []) k := by
  simp [buildFrame, descriptorByte0, h]

/-! ### O32, O33, O34 -/

/-- Settles O32: the length of the data is tested first, then the capacity; no byte of the data is looked at. -/
theorem loadAdoptsItsBytes : Obligations.LoadAdoptsItsBytes := by
  unfold Obligations.LoadAdoptsItsBytes
  refine ⟨fun rest => rfl, fun s data => ⟨fun hshort => ?_, fun m h2 hm hlt => ?_, fun h2 hle => ?_⟩⟩
  · exact (raises_iff _ _ _).2 (execLoad_of_short hshort s)
  · exact (raises_iff _ _ _).2 ((execLoad_of_two_le h2 s).trans (replaceBuffer_of_above hm hlt _))
  · exact (execLoad_of_two_le h2 s).trans (replaceBuffer_of_within hle _)

/-- Settles O33: the capacity is the only test, and the header's fields all lie in the bytes already held. -/
theorem appendExtendsTheBuffer : Obligations.AppendExtendsTheBuffer := by
  unfold Obligations.AppendExtendsTheBuffer
  refine ⟨fun rest => rfl, fun s data => ?_⟩
  have hlen : (s.buf ++ data).length = s.len + data.length := by rw [List.length_append, State.length_buf]
  refine ⟨fun m hm hlt => ?_, fun hle => ?_, fun hl => lenFieldResident_append hl data, fun hr => ?_⟩
  · exact (raises_iff _ _ _).2 (replaceBuffer_of_above hm (hlen ▸ hlt) _)
  · exact replaceBuffer_of_within (hlen ▸ hle) _
  · obtain ⟨hr', hpayoff, -, hcount, -⟩ := headerResident_append data hr
    exact ⟨hr', hpayoff, fun hm => keyBytes_append hr hm data, hcount⟩

/-- Settles O34: an equation for each check that fails; where none does, the frame is written down for a descriptor
with a key and for one without, and the capacity is tested last. -/
theorem buildWritesTheFrame : Obligations.BuildWritesTheFrame := by
  unfold Obligations.BuildWritesTheFrame
  refine ⟨fun rest => rfl, fun s d => ⟨fun hpres => ?_, fun hpres hout => ?_, ?_, fun hpres hin hkey => ?_⟩⟩
  · exact (raises_iff _ _ _).2 (execBuild_of_error (descriptorError_of_presBit7 hpres) s)
  · exact (raises_iff _ _ _).2 (execBuild_of_error (descriptorError_of_outOfRange hpres hout) s)
  · rintro hpres hin ⟨k, hk, hlen⟩
    exact (raises_iff _ _ _).2 (execBuild_of_error (descriptorError_of_wrongLength hpres hin hk hlen) s)
  · intro v b0 p l new
    have hnew : buildFrame d = new := by
      cases hk : d.maskingKey with
      | none => simp only [new, hk, buildFrame_of_no_key hk]; rfl
      | some k => simp only [new, hk, buildFrame_of_key hk]; rfl
    have hexec : exec (.build d) s = replaceBuffer s new okResponse := by
      rw [← hnew]
      exact execBuild_of_valid ((descriptorError_eq_none_iff d).2 ⟨hpres, hin, hkey⟩) s
    exact ⟨fun m hm hlt => (raises_iff _ _ _).2 (hexec.trans (replaceBuffer_of_above hm hlt _)),
      fun hle => hexec.trans (replaceBuffer_of_within hle _)⟩

end Sys2Proof.Machine
end

section
/-! Built frames (42_construction.md R123, R124): what a `BUILD` that ends in `OK` leaves in the buffer, and what the
read commands answer of it. -/

namespace Sys2Proof.Machine

/-! ### A BUILD that ends in OK -/

theorem err_of_raise_eq_next {s t : State} {e : ErrorCode} {r : Response} (h : raise s e = .next t)
    (hport : t.port = .response r) : r.err = e := by
  rw [raise_eq] at h
  cases h
  cases hport
  rfl

/-- The descriptor passed its checks, and the buffer is its frame. -/
theorem build_ok {s t : State} {d : Descriptor} {r : Response} (h : exec (.build d) s = .next t)
    (hport : t.port = .response r) (hok : r.err = .ok) : descriptorError d = none ∧ t.buf = buildFrame d := by
  cases hd : descriptorError d with
  | some e =>
    have he : r.err = e := err_of_raise_eq_next ((execBuild_of_error hd s).symm.trans h) hport
    exact absurd (hd.trans (congrArg some (he.symm.trans hok))) (descriptorError_ne_ok d)
  | none =>
    have hrep : replaceBuffer s (buildFrame d) okResponse = .next t := (execBuild_of_valid hd s).symm.trans h
    cases hfits : fitsBuffer s.cfg (buildFrame d).length
    · rw [replaceBuffer_of_not_fits hfits] at hrep
      exact nomatch (err_of_raise_eq_next hrep hport).symm.trans hok
    · rw [replaceBuffer_of_fits hfits] at hrep
      cases hrep
      exact ⟨rfl, Memory.bytes_ofBytes _⟩

/-! ### The fields of byte 0 and the mask bit -/

theorem getD_toNat_le {o : Option Byte} {n : Nat} (h : ∀ v, o = some v → ¬ n < v.toNat) : (o.getD 0).toNat ≤ n := by
  cases o with
  | none => exact Nat.zero_le n
  | some v => exact Nat.not_lt.1 (h v rfl)

theorem exists_setWidth_of_lt {w : Nat} {v : Byte} (h : v.toNat < 2 ^ w) : ∃ x : BitVec w, v = x.setWidth 8 := by
  refine ⟨v.setWidth w, BitVec.eq_of_toNat_eq ?_⟩
  rw [BitVec.toNat_setWidth, BitVec.toNat_setWidth, Nat.mod_eq_of_lt h, Nat.mod_eq_of_lt v.isLt]

/-- Five fields within their widths do not overlap in byte 0, so each is read back whole (R60, R135). -/
theorem getBits_of_packed {f r1 r2 r3 op : Byte} (hf : f.toNat ≤ 1) (h1 : r1.toNat ≤ 1) (h2 : r2.toNat ≤ 1)
    (h3 : r3.toNat ≤ 1) (hop : op.toNat ≤ 15) {b : Bytes}
    (hb : byteAt b 0 = (f <<< 7) ||| (r1 <<< 6) ||| (r2 <<< 5) ||| (r3 <<< 4) ||| op) :
    getBits b 0 7 1 = f ∧ getBits b 0 6 1 = r1 ∧ getBits b 0 5 1 = r2 ∧ getBits b 0 4 1 = r3 ∧
      getBits b 0 0 4 = op := by
  simp only [getBits, hb]
  obtain ⟨f, rfl⟩ := exists_setWidth_of_lt (w := 1) (Nat.lt_succ_of_le hf)
  obtain ⟨r1, rfl⟩ := exists_setWidth_of_lt (w := 1) (Nat.lt_succ_of_le h1)
  obtain ⟨r2, rfl⟩ := exists_setWidth_of_lt (w := 1) (Nat.lt_succ_of_le h2)
  obtain ⟨r3, rfl⟩ := exists_setWidth_of_lt (w := 1) (Nat.lt_succ_of_le h3)
  obtain ⟨op, rfl⟩ := exists_setWidth_of_lt (w := 4) (Nat.lt_succ_of_le hop)
  clear hf h1 h2 h3 hop hb
  revert f r1 r2 r3 op
  decide

theorem getBits_of_descriptorByte0 {d : Descriptor} (hin : ¬ descriptorOutOfRange d) {b : Bytes}
    (hb : byteAt b 0 = descriptorByte0 d) :
    getBits b 0 7 1 = d.fin.getD 0 ∧ getBits b 0 6 1 = d.rsv1.getD 0 ∧ getBits b 0 5 1 = d.rsv2.getD 0 ∧
      getBits b 0 4 1 = d.rsv3.getD 0 ∧ getBits b 0 0 4 = d.opcode.getD 0 :=
  getBits_of_packed (getD_toNat_le fun v h hlt => hin (.inl ⟨v, .inl h, hlt⟩))
    (getD_toNat_le fun v h hlt => hin (.inl ⟨v, .inr (.inl h), hlt⟩))
    (getD_toNat_le fun v h hlt => hin (.inl ⟨v, .inr (.inr (.inl h)), hlt⟩))
    (getD_toNat_le fun v h hlt => hin (.inl ⟨v, .inr (.inr (.inr h)), hlt⟩))
    (getD_toNat_le fun v h hlt => hin (.inr ⟨v, h, hlt⟩)) hb

theorem shiftRight_seven_and_fieldMask (b1 : Byte) :
    b1 >>> 7 &&& fieldMask 1 = if b1 >>> 7 == 1#8 then 1#8 else 0#8 := by
  revert b1
  decide

theorem getBits_mask (b : Bytes) : getBits b 1 7 1 = if maskBit b then 1#8 else 0#8 :=
  shiftRight_seven_and_fieldMask (byteAt b 1)

theorem valOfByte_getBits_mask (b : Bytes) : valOfByte (getBits b 1 7 1) = if maskBit b then 1 else 0 := by
  rw [getBits_mask]
  cases maskBit b <;> rfl

/-! ### The read commands with the header resident -/

theorem have2_of_headerResident {b : Bytes} (h : headerResident b = true) : have2 b = true :=
  (have2_iff b).2 ((headerResident_iff b).1 h).1

theorem getField_of_have2 {s : State} (h : have2 s.buf = true) (off pos w : Nat) :
    getField off pos w s = answer s (valResponse (valOfByte (getBits s.buf off pos w))) := by
  simp [getField, h]

theorem execGetKey_of_unmasked {s : State} (h : have2 s.buf = true) (hm : maskBit s.buf = false) :
    execGetKey s = answer s nullResponse := by
  simp [execGetKey, h, hm]

theorem execGetKey_of_masked {s : State} (hr : headerResident s.buf = true) (hm : maskBit s.buf = true) :
    execGetKey s = answer s (outResponse (keyBytes s.buf)) := by
  simp [execGetKey, have2_of_headerResident hr, hr, hm]

theorem execGetPayload_of_empty {s : State} (hr : headerResident s.buf = true) (h : payloadLength s.buf = 0) :
    execGetPayload s = answer s nullResponse := by
  simp [execGetPayload, hr, h]

theorem execGetPayload_of_ne_zero {s : State} (hr : headerResident s.buf = true) (h : payloadLength s.buf ≠ 0) :
    execGetPayload s = answer s (outResponse (plainPayload s.buf)) := by
  simp [execGetPayload, hr, h]

theorem execIsComplete_of_complete {s : State} (h : frameComplete s.buf = true) :
    execIsComplete s = answer s (valResponse 1) := by
  rw [execIsComplete, h, valOfBool, if_pos rfl]

theorem execIsValid_of_valid {s : State} (h : frameValid s.cfg s.buf = true) :
    execIsValid s = answer s (valResponse 1) := by
  rw [execIsValid, h, valOfBool, if_pos rfl]

/-! ### The length form and the default strictness -/

theorem encodeLength_ext_length (n : Nat) :
    (encodeLength n).2.length = if n ≤ 125 then 0 else if n ≤ 65535 then 2 else 8 := by
  by_cases h125 : n ≤ 125
  · rw [encodeLength_of_le_125 h125, if_pos h125]
    rfl
  · rw [if_neg h125]
    by_cases h65535 : n ≤ 65535
    · rw [encodeLength_of_le_65535 (Nat.not_le.1 h125) h65535, if_pos h65535, be_length]
    · rw [encodeLength_of_65536_le (Nat.not_le.1 h65535), if_neg h65535, be_length]

theorem protocolLegal_of_no_rejects {c : Config} (h : c.rejects = []) (b0 : Byte) : protocolLegal c b0 = true := by
  rw [protocolLegal, h]
  rfl

/-! ### O35, O36 -/

/-- Settles O35: the buffer is the descriptor's frame, the parser finds the frame's pieces in it, and each read
command answers its piece. -/
theorem builtFrameIsCompleteAndMinimal : Obligations.BuiltFrameIsCompleteAndMinimal := by
  unfold Obligations.BuiltFrameIsCompleteAndMinimal
  intro s t d r hlt h hport hok p
  obtain ⟨hvalid, hbuf⟩ := build_ok h hport hok
  obtain ⟨-, hin, hkey⟩ := (descriptorError_eq_none_iff d).1 hvalid
  obtain ⟨hr, -, hcount, hlen, hmask, hkeyBytes, hextw, hbyte0⟩ := hbuf ▸ buildFrame_parses d hkey
  have h2 : have2 t.buf = true := have2_of_headerResident hr
  obtain ⟨hfin, hrsv1, hrsv2, hrsv3, hopcode⟩ := getBits_of_descriptorByte0 hin hbyte0
  have getter {pos w : Nat} {v : Byte} (hv : getBits t.buf 0 pos w = v) :
      getField 0 pos w t = answer t (valResponse (v.setWidth 64)) := hv ▸ getField_of_have2 h2 0 pos w
  refine ⟨hr, hlen hlt, hcount, ?_, fun hdefault => ?_, getter hfin, getter hrsv1, getter hrsv2, getter hrsv3,
    getter hopcode, ?_, fun hnone => ?_, fun k hk => ?_, hextw.trans (encodeLength_ext_length _)⟩
  · exact execIsComplete_of_complete ((frameComplete_iff _).2 ⟨hr, ((hlen hlt).trans hcount.symm).le⟩)
  · exact execIsValid_of_valid ((frameValid_iff _ _).2
      ⟨hr, hcount.trans (hlen hlt).symm, protocolLegal_of_no_rejects hdefault _⟩)
  · rw [← hmask, ← valOfByte_getBits_mask]
    exact getField_of_have2 h2 1 7 1
  · exact execGetKey_of_unmasked h2 (by rw [hmask, hnone]; rfl)
  · rw [← hkeyBytes k hk]
    exact execGetKey_of_masked hr (by rw [hmask, hk]; rfl)

/-- Settles O36: masking twice with the frame's own key is the identity, and the null test is on the declared length,
which is that of the descriptor's payload. -/
theorem builtPayloadReadsBack : Obligations.BuiltPayloadReadsBack := by
  unfold Obligations.BuiltPayloadReadsBack
  intro s t d r hlt h hport hok
  obtain ⟨hvalid, hbuf⟩ := build_ok h hport hok
  obtain ⟨-, -, hkey⟩ := (descriptorError_eq_none_iff d).1 hvalid
  obtain ⟨hr, hplain, -, hlen, -⟩ := hbuf ▸ buildFrame_parses d hkey
  refine ⟨fun hempty => ?_, fun p hp hne => ?_⟩
  · exact execGetPayload_of_empty hr (by rw [hlen hlt, hempty, List.length_nil])
  · have hpayload : d.payload.getD [] = p := by rw [hp, Option.getD_some]
    rw [hpayload] at hplain hlen hlt
    have hne0 : payloadLength t.buf ≠ 0 := by rwa [hlen hlt, ne_eq, List.length_eq_zero_iff]
    rw [← hplain]
    exact execGetPayload_of_ne_zero hr hne0

end Sys2Proof.Machine
end

section
/-! The field accessors (43_field_accessors.md R135-R146): each getter answers the bits of its field, each setter checks
its operand, then the header, and replaces the bits of its field in byte 0. -/

namespace Sys2Proof.Machine

/-! ### The bits of a field (R135) -/

/-- A field that ends at bit 7 needs no mask. -/
theorem shiftRight_seven_and_one (b : Byte) : b >>> 7 &&& 1 = b >>> 7 := by
  revert b
  decide

/-- The mask of the bits a setter keeps, as a number. -/
theorem withField_of_keepMask {pos w : Nat} {m : Byte} (hm : ~~~(fieldMask w <<< pos) = m) (old v : Byte) :
    withField old pos w v = (old &&& m) ||| (v <<< pos) := by
  rw [withField, hm]

/-! ### The operations, one equation for each way they end -/

/-- A getter of byte `off` that finds a header answers the field of that byte. -/
theorem getField_of_byteAt {s : State} (h : have2 s.buf = true) {off : Nat} {b : Byte} (hb : byteAt s.buf off = b)
    (pos w : Nat) : getField off pos w s = answer s (valResponse ((b >>> pos &&& fieldMask w).setWidth 64)) :=
  hb ▸ getField_of_have2 h off pos w

theorem setField_of_not_ok {ok : Byte → Bool} {arg : Byte} (h : ok arg = false) (pos w : Nat) (s : State) :
    setField ok pos w arg s = raise s .outOfRange := by
  simp [setField, h]

theorem setField_of_cons {s : State} (hwf : s.mem.wf = true) {b0 b1 : Byte} {rest : Bytes}
    (hb : s.buf = b0 :: b1 :: rest) {ok : Byte → Bool} {arg : Byte} (hok : ok arg = true) {pos w : Nat} {m : Byte}
    (hm : ~~~(fieldMask w <<< pos) = m) :
    setField ok pos w arg s = answer (s.setBuf ((b0 &&& m ||| arg <<< pos) :: b1 :: rest)) okResponse := by
  simp [setField, hok, have2_of_cons hb, setBits_zero_eq hwf hb, withField_of_keepMask hm]

/-! ### O38, O39 -/

/-- Settles O38: each getter is `getField` at its offset, position and width; FIN and MASK end at bit 7, so the shift
alone isolates them. -/
theorem fieldGettersReadTheirBits : Obligations.FieldGettersReadTheirBits := by
  unfold Obligations.FieldGettersReadTheirBits
  refine ⟨fun rest => ⟨rfl, rfl, rfl, rfl, rfl, rfl⟩, fun s => ⟨fun hlen => ?_, fun b0 b1 rest hb => ?_⟩⟩
  · have short := getField_of_not_have2 (have2_eq_false_of_short hlen)
    simp only [List.forall_mem_cons, raises_iff]
    exact ⟨short 0 7 1, short 0 6 1, short 0 5 1, short 0 4 1, short 0 0 4, short 1 7 1, List.forall_mem_nil _⟩
  · have h2 : have2 s.buf = true := have2_of_cons hb
    have field0 := getField_of_byteAt h2 (show byteAt s.buf 0 = b0 by rw [hb]; rfl)
    have field1 := getField_of_byteAt h2 (show byteAt s.buf 1 = b1 by rw [hb]; rfl)
    refine ⟨?_, field0 6 1, field0 5 1, field0 4 1, ?_, ?_⟩
    · rw [← shiftRight_seven_and_one b0]
      exact field0 7 1
    · rw [← BitVec.ushiftRight_zero b0]
      exact field0 0 4
    · rw [← shiftRight_seven_and_one b1]
      exact field1 7 1

/-- Settles O39: each setter is `setField` at its position and width, and on a canonical buffer the store to offset 0
is the replacement of byte 0. -/
theorem fieldSettersRewriteTheirBits : Obligations.FieldSettersRewriteTheirBits := by
  unfold Obligations.FieldSettersRewriteTheirBits
  refine ⟨fun arg rest => ⟨rfl, rfl, rfl, rfl, rfl⟩, fun s arg => ⟨fun harg => ?_, fun harg => ?_,
    fun hlen harg => ?_, fun hlen harg => ?_, fun b0 b1 rest hwf hb => ⟨fun harg => ?_, fun harg => ?_⟩⟩⟩
  · have reject := setField_of_not_ok (ok := flagValid) (decide_eq_false (Nat.not_le.2 harg))
    simp only [List.forall_mem_cons, raises_iff]
    exact ⟨reject 7 1 s, reject 6 1 s, reject 5 1 s, reject 4 1 s, List.forall_mem_nil _⟩
  · exact setField_of_not_ok (ok := opcodeValid) (decide_eq_false (Nat.not_le.2 harg)) 0 4 s
  · have short := setField_of_not_have2 (have2_eq_false_of_short hlen) ((flagValid_iff arg).2 harg)
    simp only [List.forall_mem_cons, raises_iff]
    exact ⟨short 7 1, short 6 1, short 5 1, short 4 1, List.forall_mem_nil _⟩
  · exact setField_of_not_have2 (have2_eq_false_of_short hlen) ((opcodeValid_iff arg).2 harg) 0 4
  · have hok : flagValid arg = true := (flagValid_iff arg).2 harg
    exact ⟨setField_of_cons hwf hb hok (by decide), setField_of_cons hwf hb hok (by decide),
      setField_of_cons hwf hb hok (by decide), setField_of_cons hwf hb hok (by decide)⟩
  · have setter := setField_of_cons hwf hb ((opcodeValid_iff arg).2 harg) (pos := 0) (w := 4) (m := 0xF0) (by decide)
    rwa [BitVec.shiftLeft_zero] at setter

end Sys2Proof.Machine
end

section
/-! Key and payload (44_key_payload.md R155-R160): an equation for each way the six commands end, and the frames they
write of a buffer given in pieces. -/

namespace Sys2Proof.Machine

/-! ### The frame in pieces -/

theorem maskBit_iff_of_cons {b : Bytes} {b0 b1 : Byte} {rest : Bytes} (hb : b = b0 :: b1 :: rest) :
    maskBit b = true ↔ b1 >>> 7 = 1#8 := by
  rw [hb, maskBit_cons, decide_eq_true_iff]

theorem keyBytes_eq_take_drop (b : Bytes) : keyBytes b = (b.drop (keyoff b)).take 4 := by
  rw [keyBytes, slice, Nat.add_sub_cancel_left]

/-- Everything before the key, the key, and the payload after it (R63). -/
theorem masked_frame_split {b front key w : Bytes} (hb : b = front ++ key ++ w) (hm : maskBit b = true)
    (hfront : front.length = keyoff b) (hkey : key.length = 4) :
    headerResident b = true ∧ keyBytes b = key ∧ wirePayload b = w ∧ slice b 0 (keyoff b) = front := by
  have hpay : payoff b = (front ++ key).length := by rw [payoff_of_mask hm, List.length_append, hfront, hkey]
  refine ⟨(headerResident_iff_payoff b).2 ?_, slice_eq_middle hb hfront.symm ?_, ?_, ?_⟩
  · rw [hpay, hb, List.length_append (bs := w)]
    exact Nat.le_add_right _ _
  · rw [KEYW, hfront, hkey]
  · rw [wirePayload, hpay, hb, List.drop_left]
  · exact slice_eq_middle (a := []) (z := key ++ w) (by rw [hb, List.nil_append, List.append_assoc]) rfl
      (by rw [List.length_nil, Nat.zero_add, hfront])

/-- Everything before the payload, and the payload, where there is no key (R94). -/
theorem unmasked_frame_split {b front w : Bytes} (hb : b = front ++ w) (hfront : front.length = payoff b) :
    headerResident b = true ∧ wirePayload b = w := by
  refine ⟨(headerResident_iff_payoff b).2 ?_, ?_⟩
  · rw [← hfront, hb, List.length_append]
    exact Nat.le_add_right _ _
  · rw [wirePayload, ← hfront, hb, List.drop_left]

/-- The extended length lies between byte 1 and `keyoff()` (R93). -/
theorem slice_ext_of_cons {b e z : Bytes} {b0 b1 : Byte} (hb : b = b0 :: b1 :: (e ++ z)) (he : e.length = extw b) :
    slice b 2 (keyoff b) = e :=
  slice_eq_middle (a := [b0, b1]) (z := z) hb rfl (by rw [keyoff, he]; rfl)

theorem header_length {b e : Bytes} (b0 b1 : Byte) (he : e.length = extw b) : (b0 :: b1 :: e).length = keyoff b := by
  rw [List.length_cons, List.length_cons, he, keyoff, Nat.add_comm 2]

theorem plainPayload_of_mask {b : Bytes} (hm : maskBit b = true) :
    plainPayload b = transform (wirePayload b) (keyBytes b) := if_pos hm

theorem plainPayload_of_not_mask {b : Bytes} (hm : maskBit b = false) : plainPayload b = wirePayload b := by
  simp [plainPayload, hm]

/-! ### The frames written -/

theorem mask_part_eq_shifts (b1 : Byte) : b1 &&& M_MASK = (b1 >>> 7) <<< 7 := by
  revert b1
  decide

section
variable {b : Bytes} {b0 b1 : Byte}

theorem rekeyedFrame_of_pieces {ext old w : Bytes} (hb : b = b0 :: b1 :: (ext ++ old ++ w)) (hm : maskBit b = true)
    (hext : ext.length = extw b) (hold : old.length = 4) (key : Bytes) :
    headerResident b = true ∧
      rekeyedFrame b key = b0 :: b1 :: (ext ++ key ++ transform (transform w old) key) := by
  obtain ⟨hr, hkey, hwire, hfront⟩ :=
    masked_frame_split (front := b0 :: b1 :: ext) hb hm (header_length b0 b1 hext) hold
  refine ⟨hr, ?_⟩
  simp [rekeyedFrame, hkey, hwire, hfront]

theorem unkeyedFrame_of_pieces {ext old w : Bytes} (hb : b = b0 :: b1 :: (ext ++ old ++ w)) (hm : maskBit b = true)
    (hext : ext.length = extw b) (hold : old.length = 4) :
    headerResident b = true ∧ keyBytes b = old ∧
      unkeyedFrame b = b0 :: (b1 &&& 0x7F#8) :: (ext ++ transform w old) := by
  obtain ⟨hr, hkey, hwire, -⟩ :=
    masked_frame_split (front := b0 :: b1 :: ext) hb hm (header_length b0 b1 hext) hold
  have hslice : slice b 2 (keyoff b) = ext := slice_ext_of_cons (by rwa [List.append_assoc] at hb) hext
  refine ⟨hr, hkey, ?_⟩
  rw [unkeyedFrame, hslice, hwire, hkey, hb]
  rfl

theorem keyedFrame_of_pieces {ext w : Bytes} (hb : b = b0 :: b1 :: (ext ++ w)) (hm : maskBit b = false)
    (hext : ext.length = extw b) (key : Bytes) :
    headerResident b = true ∧
      keyedFrame b key = b0 :: (b1 ||| 0x80#8) :: (ext ++ key ++ transform w key) := by
  obtain ⟨hr, hwire⟩ := unmasked_frame_split (front := b0 :: b1 :: ext) hb
    (by rw [payoff_of_not_mask hm, header_length b0 b1 hext])
  refine ⟨hr, ?_⟩
  rw [keyedFrame, slice_ext_of_cons hb hext, hwire, hb]
  simp

theorem unpayloadedFrame_of_cons {rest : Bytes} (hb : b = b0 :: b1 :: rest) :
    unpayloadedFrame b =
      b0 :: (b1 &&& 0x80#8) :: (if b1 >>> 7 = 1#8 then (b.drop (keyoff b)).take 4 else []) := by
  simp only [unpayloadedFrame, keyBytes_eq_take_drop, maskBit_iff_of_cons hb]
  rw [hb]
  rfl

theorem repayloadedFrame_of_cons {rest : Bytes} (hb : b = b0 :: b1 :: rest) (data : Bytes) :
    repayloadedFrame b data =
      b0 :: (((b1 >>> 7) <<< 7) ||| (encodeLength data.length).1) :: ((encodeLength data.length).2 ++
        (if b1 >>> 7 = 1#8 then (b.drop (keyoff b)).take 4 else []) ++
        (if b1 >>> 7 = 1#8 then
          transform data (if b1 >>> 7 = 1#8 then (b.drop (keyoff b)).take 4 else []) else data)) := by
  have h0 : byteAt b 0 = b0 := by rw [hb]; rfl
  have h1 : byteAt b 1 = b1 := by rw [hb]; rfl
  simp only [repayloadedFrame, keyBytes_eq_take_drop, maskBit_iff_of_cons hb, h0, h1, mask_part_eq_shifts]
  by_cases hm : b1 >>> 7 = 1#8
  · simp [hm]
  · simp [hm]

end

/-! ### The commands, one equation for each way they end -/

theorem execSetKey_of_wrongLength {key : Bytes} (h : key.length ≠ 4) (s : State) :
    execSetKey key s = raise s .wrongLength := by
  simp [execSetKey, mt (keyValid_iff key).1 h]

section
variable {s : State}

theorem execGetKey_of_masked_not_resident (hm : maskBit s.buf = true) (hr : headerResident s.buf = false) :
    execGetKey s = raise s .headerIncomplete := by
  simp [execGetKey, hm, hr]

theorem execSetKey_of_masked {key : Bytes} (hkey : key.length = 4) (hr : headerResident s.buf = true)
    (hm : maskBit s.buf = true) :
    execSetKey key s = answer (s.setBuf (rekeyedFrame s.buf key)) okResponse := by
  simp [execSetKey, (keyValid_iff key).2 hkey, hr, hm]

theorem execSetKey_of_unmasked {key : Bytes} (hkey : key.length = 4) (hr : headerResident s.buf = true)
    (hm : maskBit s.buf = false) (hfits : fitsBuffer s.cfg (s.len + 4) = true) :
    execSetKey key s = answer (s.setBuf (keyedFrame s.buf key)) okResponse := by
  simp [execSetKey, (keyValid_iff key).2 hkey, hr, hm, hfits]

theorem execSetKey_of_not_fits {key : Bytes} (hkey : key.length = 4) (hr : headerResident s.buf = true)
    (hm : maskBit s.buf = false) (hfits : fitsBuffer s.cfg (s.len + 4) = false) :
    execSetKey key s = raise s .overflow := by
  simp [execSetKey, (keyValid_iff key).2 hkey, hr, hm, hfits]

theorem execRemoveKey_of_unmasked (h2 : have2 s.buf = true) (hm : maskBit s.buf = false) :
    execRemoveKey s = answer s nullResponse := by
  simp [execRemoveKey, h2, hm]

theorem execRemoveKey_of_masked_not_resident (hm : maskBit s.buf = true) (hr : headerResident s.buf = false) :
    execRemoveKey s = raise s .headerIncomplete := by
  simp [execRemoveKey, hm, hr]

theorem execRemoveKey_of_masked (hr : headerResident s.buf = true) (hm : maskBit s.buf = true) :
    execRemoveKey s = answer (s.setBuf (unkeyedFrame s.buf)) (outResponse (keyBytes s.buf)) := by
  simp [execRemoveKey, have2_of_headerResident hr, hr, hm]

theorem execSetPayload_of_resident (hr : headerResident s.buf = true) (data : Bytes) :
    execSetPayload data s = replaceBuffer s (repayloadedFrame s.buf data) okResponse := by
  simp [execSetPayload, hr]

theorem execRemovePayload_of_empty (hr : headerResident s.buf = true) (h : payloadLength s.buf = 0) :
    execRemovePayload s = answer s nullResponse := by
  simp [execRemovePayload, hr, h]

theorem execRemovePayload_of_ne_zero (hr : headerResident s.buf = true) (h : payloadLength s.buf ≠ 0) :
    execRemovePayload s = answer (s.setBuf (unpayloadedFrame s.buf)) (outResponse (plainPayload s.buf)) := by
  simp [execRemovePayload, hr, h]

end

/-! ### O43, O44, O45, O46, O47, O48 -/

/-- Settles O43: the key, where there is one, is resident exactly when the header is. -/
theorem keyIsReadOrNull : Obligations.KeyIsReadOrNull := by
  unfold Obligations.KeyIsReadOrNull
  refine ⟨fun rest => rfl, fun s => ⟨?_, fun h2 hm => ?_, fun front key rest _ hm hb hfront hkey => ?_⟩⟩
  · rintro (hlen | ⟨hm, hlen⟩)
    · exact execGetKey_of_not_have2 (have2_eq_false_of_short hlen)
    · have hr : headerResident s.buf = false :=
        (headerResident_eq_false_iff_len s).2 (.inr (by rwa [payoff_of_mask hm]))
      exact execGetKey_of_masked_not_resident hm hr
  · exact execGetKey_of_unmasked ((have2_eq_len s).trans (decide_eq_true h2)) hm
  · obtain ⟨hr, hkeyBytes, -⟩ := masked_frame_split hb hm hfront hkey
    rw [← hkeyBytes]
    exact execGetKey_of_masked hr hm

/-- Settles O44: the pieces of the buffer are those of the frame `SET_KEY` writes, and the capacity is tested where
four bytes are inserted. -/
theorem setKeyRemasksThePayload : Obligations.SetKeyRemasksThePayload := by
  unfold Obligations.SetKeyRemasksThePayload
  refine ⟨fun rest => rfl, fun s key => ⟨fun hkey => ?_, fun hkey hr => ?_,
    fun b0 b1 ext old w hkey hb hm hext hold => ?_, fun b0 b1 ext w hkey hb hm hext => ?_⟩⟩
  · exact execSetKey_of_wrongLength hkey s
  · exact execSetKey_of_not_resident hr ((keyValid_iff key).2 hkey)
  · obtain ⟨hr, hframe⟩ := rekeyedFrame_of_pieces hb hm hext hold key
    rw [← hframe]
    exact execSetKey_of_masked hkey hr hm
  · obtain ⟨hr, hframe⟩ := keyedFrame_of_pieces hb hm hext key
    rw [← hframe]
    exact ⟨fun m hmax hlt => execSetKey_of_not_fits hkey hr hm ((fitsBuffer_eq_false_iff _ _).2 ⟨m, hmax, hlt⟩),
      fun hle => execSetKey_of_unmasked hkey hr hm ((fitsBuffer_eq_true_iff _ _).2 hle)⟩

/-- Settles O45: without a key there is nothing to remove, with one the pieces of the buffer are those of the frame
`REMOVE_KEY` writes. -/
theorem removeKeyUnmasksThePayload : Obligations.RemoveKeyUnmasksThePayload := by
  unfold Obligations.RemoveKeyUnmasksThePayload
  refine ⟨fun rest => rfl, fun s => ⟨?_, fun h2 hm => ?_, fun b0 b1 ext old w hb hm hext hold => ?_⟩⟩
  · rintro (hlen | ⟨hm, hr⟩)
    · exact execRemoveKey_of_not_have2 (have2_eq_false_of_short hlen)
    · exact execRemoveKey_of_masked_not_resident hm hr
  · exact execRemoveKey_of_unmasked ((have2_eq_len s).trans (decide_eq_true h2)) hm
  · obtain ⟨hr, hkey, hframe⟩ := unkeyedFrame_of_pieces hb hm hext hold
    rw [← hframe, ← hkey]
    exact execRemoveKey_of_masked hr hm

/-- Settles O46: the bytes from `payoff()` on are the payload as stored, and the mask bit decides whether the cipher
is applied to the copy. -/
theorem payloadIsReadUnmasked : Obligations.PayloadIsReadUnmasked := by
  unfold Obligations.PayloadIsReadUnmasked
  refine ⟨fun rest => rfl, fun s => ⟨execGetPayload_of_not_resident, execGetPayload_of_empty,
    fun front w hb _ hfront hm hne => ?_, fun front key w hb _ hfront hkey hm hne => ?_⟩⟩
  · obtain ⟨hr, hwire⟩ := unmasked_frame_split hb hfront
    rw [← hwire, ← plainPayload_of_not_mask hm]
    exact execGetPayload_of_ne_zero hr hne
  · obtain ⟨hr, hkeyBytes, hwire, -⟩ := masked_frame_split hb hm hfront hkey
    rw [← hwire, ← hkeyBytes, ← plainPayload_of_mask hm]
    exact execGetPayload_of_ne_zero hr hne

/-- Settles O47: the header is the only precondition, and the capacity is tested on the new frame. -/
theorem setPayloadRebuildsTheFrame : Obligations.SetPayloadRebuildsTheFrame := by
  unfold Obligations.SetPayloadRebuildsTheFrame
  refine ⟨fun rest => rfl, fun s data => ⟨fun hr => execSetPayload_of_not_resident hr data,
    fun b0 b1 rest hb hr => ?_⟩⟩
  intro l key body new
  have hexec : exec (.setPayload data) s = replaceBuffer s new okResponse :=
    (execSetPayload_of_resident hr data).trans (by rw [repayloadedFrame_of_cons hb])
  exact ⟨fun m hm hlt => hexec.trans (replaceBuffer_of_above hm hlt _),
    fun hle => hexec.trans (replaceBuffer_of_within hle _)⟩

/-- Settles O48: `GET_PAYLOAD` and `REMOVE_PAYLOAD` make the same tests and answer the same plaintext. -/
theorem removePayloadKeepsTheKey : Obligations.RemovePayloadKeepsTheKey := by
  unfold Obligations.RemovePayloadKeepsTheKey
  refine ⟨fun rest => rfl, fun s => ⟨execRemovePayload_of_not_resident, execRemovePayload_of_empty,
    fun b0 b1 rest hb hr hne => ⟨plainPayload s.buf, execGetPayload_of_ne_zero hr hne, ?_⟩⟩⟩
  rw [← unpayloadedFrame_of_cons hb]
  exact execRemovePayload_of_ne_zero hr hne

end Sys2Proof.Machine
end

section
/-! What the key and payload commands keep (44_key_payload.md R161, R162): each of the four that may write leaves the
buffer as it is, or finds a resident header and makes the buffer one frame. -/

namespace Sys2Proof.Machine

/-! ### How a command that may write ends -/

/-- The command that led from `s` to `t` kept the buffer and put out a response with `kept`, or found a resident
header and left a buffer with `new`. -/
def KeepsOrRewrites (kept : Response → Prop) (new : Bytes → Prop) (s t : State) : Prop :=
  t.cfg = s.cfg ∧
    ((t.buf = s.buf ∧ ∃ r, t.port = .response r ∧ kept r) ∨ (headerResident s.buf = true ∧ new t.buf))

section
variable {kept : Response → Prop} {new : Bytes → Prop} {s t : State}

theorem keepsOrRewrites_of_answer {r : Response} (h : answer s r = .next t) (hkept : kept r) :
    KeepsOrRewrites kept new s t := by
  cases h
  exact ⟨rfl, .inl ⟨rfl, r, rfl, hkept⟩⟩

theorem keepsOrRewrites_of_raise {e : ErrorCode} (h : raise s e = .next t) (hkept : kept (errorResponse e)) :
    KeepsOrRewrites kept new s t :=
  keepsOrRewrites_of_answer h hkept

theorem keepsOrRewrites_of_setBuf (hr : headerResident s.buf = true) {b : Bytes} (hnew : new b) {r : Response}
    (h : answer (s.setBuf b) r = .next t) : KeepsOrRewrites kept new s t := by
  cases h
  exact ⟨rfl, .inr ⟨hr, by rwa [State.respond_buf, State.buf_setBuf]⟩⟩

theorem KeepsOrRewrites.cfg (h : KeepsOrRewrites kept new s t) : t.cfg = s.cfg := h.1

/-- A response without `kept` is that of a command that wrote. -/
theorem KeepsOrRewrites.rewrites (h : KeepsOrRewrites kept new s t) {r : Response} (hport : t.port = .response r)
    (hr : ¬ kept r) : headerResident s.buf = true ∧ new t.buf := by
  obtain ⟨-, ⟨-, r', hport', hkept⟩ | hnew⟩ := h
  · cases hport.symm.trans hport'
    exact absurd hkept hr
  · exact hnew

/-- A value that every written buffer shares with the old one is the same in every case. -/
theorem KeepsOrRewrites.congr (h : KeepsOrRewrites kept new s t) {α : Type} (f : Bytes → α)
    (hf : headerResident s.buf = true → ∀ b, new b → f b = f s.buf) : f t.buf = f s.buf := by
  obtain ⟨-, ⟨hbuf, -⟩ | ⟨hr, hnew⟩⟩ := h
  · rw [hbuf]
  · exact hf hr _ hnew

end

theorem setKey_keepsOrRewrites {s t : State} {key : Bytes} (h : exec (.setKey key) s = .next t) :
    KeepsOrRewrites (fun _ => True) (SameButKey s.buf) s t := by
  by_cases hkey : key.length = 4
  · cases hr : headerResident s.buf with
    | false =>
      exact keepsOrRewrites_of_raise ((execSetKey_of_not_resident hr ((keyValid_iff key).2 hkey)).symm.trans h) trivial
    | true =>
      cases hm : maskBit s.buf with
      | true =>
        exact keepsOrRewrites_of_setBuf hr (rekeyedFrame_sameButKey hr hm hkey)
          ((execSetKey_of_masked hkey hr hm).symm.trans h)
      | false =>
        cases hfits : fitsBuffer s.cfg (s.len + 4) with
        | false => exact keepsOrRewrites_of_raise ((execSetKey_of_not_fits hkey hr hm hfits).symm.trans h) trivial
        | true =>
          exact keepsOrRewrites_of_setBuf hr (keyedFrame_sameButKey hr hm hkey)
            ((execSetKey_of_unmasked hkey hr hm hfits).symm.trans h)
  · exact keepsOrRewrites_of_raise ((execSetKey_of_wrongLength hkey s).symm.trans h) trivial

theorem removeKey_keepsOrRewrites {s t : State} (h : exec .removeKey s = .next t) :
    KeepsOrRewrites (fun _ => True) (SameButKey s.buf) s t := by
  cases h2 : have2 s.buf with
  | false => exact keepsOrRewrites_of_raise ((execRemoveKey_of_not_have2 h2).symm.trans h) trivial
  | true =>
    cases hm : maskBit s.buf with
    | false => exact keepsOrRewrites_of_answer ((execRemoveKey_of_unmasked h2 hm).symm.trans h) trivial
    | true =>
      cases hr : headerResident s.buf with
      | false => exact keepsOrRewrites_of_raise ((execRemoveKey_of_masked_not_resident hm hr).symm.trans h) trivial
      | true =>
        exact keepsOrRewrites_of_setBuf hr (unkeyedFrame_sameButKey hr hm)
          ((execRemoveKey_of_masked hr hm).symm.trans h)

theorem setPayload_keepsOrRewrites {s t : State} {data : Bytes} (h : exec (.setPayload data) s = .next t) :
    KeepsOrRewrites (fun r => r.err ≠ .ok) (· = repayloadedFrame s.buf data) s t := by
  cases hr : headerResident s.buf with
  | false => exact keepsOrRewrites_of_raise ((execSetPayload_of_not_resident hr data).symm.trans h) nofun
  | true =>
    have hexec := (execSetPayload_of_resident hr data).symm.trans h
    cases hfits : fitsBuffer s.cfg (repayloadedFrame s.buf data).length with
    | false => exact keepsOrRewrites_of_raise ((replaceBuffer_of_not_fits hfits _).symm.trans hexec) nofun
    | true => exact keepsOrRewrites_of_setBuf hr rfl ((replaceBuffer_of_fits hfits _).symm.trans hexec)

theorem removePayload_keepsOrRewrites {s t : State} (h : exec .removePayload s = .next t) :
    KeepsOrRewrites (fun r => r.err = .ok → r.null = true) (· = unpayloadedFrame s.buf) s t := by
  cases hr : headerResident s.buf with
  | false => exact keepsOrRewrites_of_raise ((execRemovePayload_of_not_resident hr).symm.trans h) nofun
  | true =>
    by_cases hlen : payloadLength s.buf = 0
    · exact keepsOrRewrites_of_answer ((execRemovePayload_of_empty hr hlen).symm.trans h) (fun _ => rfl)
    · exact keepsOrRewrites_of_setBuf hr rfl ((execRemovePayload_of_ne_zero hr hlen).symm.trans h)

/-! ### The setters and the payload -/

theorem plainPayload_byte_zero (b0 v b1 : Byte) (rest : Bytes) :
    plainPayload (v :: b1 :: rest) = plainPayload (b0 :: b1 :: rest) := by
  obtain ⟨-, -, hkey, hwire⟩ := parser_byte_zero b0 v b1 rest
  simp only [plainPayload, maskBit_cons, hkey, hwire]

theorem setField_plainPayload {s t : State} {ok : Byte → Bool} {pos w : Nat} {arg : Byte} (hwf : s.mem.wf = true)
    (h : setField ok pos w arg s = .next t) : plainPayload t.buf = plainPayload s.buf := by
  cases hok : ok arg with
  | false =>
    cases (setField_of_not_ok hok pos w s).symm.trans h
    rfl
  | true =>
    cases h2 : have2 s.buf with
    | false =>
      cases (setField_of_not_have2 h2 hok pos w).symm.trans h
      rfl
    | true =>
      obtain ⟨b0, b1, rest, hb⟩ := buf_cons_of_two_le (of_decide_eq_true ((have2_eq_len s).symm.trans h2))
      cases (setField_of_cons hwf hb hok rfl).symm.trans h
      rw [State.respond_buf, State.buf_setBuf, hb]
      exact plainPayload_byte_zero b0 _ b1 rest

/-! ### The queries -/

theorem answers_iff_of_exec_eq {i : Instr} {s : State} {r : Response} (h : exec i s = answer s r) (a : Response) :
    Answers i s a ↔ a = r := by
  rw [Answers, h, answer_eq]
  constructor
  · intro heq
    injection heq with heq
    injection heq with _ _ _ hport
    injection hport with hr
    exact hr.symm
  · rintro rfl
    rfl

theorem answers_isComplete_iff (s : State) (a : Response) :
    Answers .isComplete s a ↔ a = valResponse (valOfBool (frameComplete s.buf)) :=
  answers_iff_of_exec_eq rfl a

theorem answers_isValid_iff (s : State) (a : Response) :
    Answers .isValid s a ↔ a = valResponse (valOfBool (frameValid s.cfg s.buf)) :=
  answers_iff_of_exec_eq rfl a

/-- With as many resident bytes as declared, only the strictness is left to decide (R176). -/
theorem frameValid_of_resident_eq {b : Bytes} (hr : headerResident b = true) (hcount : resident b = payloadLength b)
    (c : Config) : frameValid c b = protocolLegal c (byteAt b 0) := by
  rw [Bool.eq_iff_iff, frameValid_iff]
  exact ⟨fun ⟨_, _, hlegal⟩ => hlegal, fun hlegal => ⟨hr, hcount, hlegal⟩⟩

theorem valOfBool_protocolLegal (c : Config) (b0 : Byte) :
    valOfBool (protocolLegal c b0) = if b0 ∈ c.rejects then 0 else 1 := by
  by_cases h : b0 ∈ c.rejects
  · simp [valOfBool, protocolLegal, h]
  · simp [valOfBool, protocolLegal, h]

/-- What the queries answer of a frame with as many resident bytes as it declares. -/
theorem queries_of_resident_eq {t : State} (hr : headerResident t.buf = true)
    (hcount : resident t.buf = payloadLength t.buf) :
    Answers .isComplete t { err := .ok, null := false, val := 1, out := [] } ∧
      Answers .isValid t
        { err := .ok, null := false, val := if byteAt t.buf 0 ∈ t.cfg.rejects then 0 else 1, out := [] } := by
  refine ⟨execIsComplete_of_complete ((frameComplete_iff _).2 ⟨hr, hcount.ge⟩), (answers_isValid_iff t _).2 ?_⟩
  rw [frameValid_of_resident_eq hr hcount, valOfBool_protocolLegal]
  rfl

/-! ### A change of the key alone, and a new payload -/

section
variable {kept : Response → Prop} {s t : State}

/-- R162 for the commands that change the key alone. -/
theorem header_kept_of_sameButKey (h : KeepsOrRewrites kept (SameButKey s.buf) s t) :
    len7 t.buf = len7 s.buf ∧ slice t.buf 2 (keyoff t.buf) = slice s.buf 2 (keyoff s.buf) ∧
      payloadLength t.buf = payloadLength s.buf ∧ resident t.buf = resident s.buf ∧
      ∀ q ∈ [Instr.isComplete, .isValid], ∀ a, Answers q s a → Answers q t a := by
  refine ⟨h.congr len7 fun _ _ hb => hb.len7, h.congr (fun b => slice b 2 (keyoff b)) fun _ _ hb => hb.ext,
    h.congr payloadLength fun _ _ hb => hb.paylen, h.congr resident fun _ _ hb => hb.count, ?_⟩
  have hcomplete : frameComplete t.buf = frameComplete s.buf := h.congr _ fun hr _ hb => hb.complete hr
  have hvalid : frameValid s.cfg t.buf = frameValid s.cfg s.buf := h.congr _ fun hr _ hb => hb.valid hr s.cfg
  simp only [List.forall_mem_cons, answers_isComplete_iff, answers_isValid_iff, hcomplete, h.cfg, hvalid]
  exact ⟨fun a ha => ha, fun a ha => ha, List.forall_mem_nil _⟩

/-- R162 for the commands that replace or remove the payload. -/
theorem complete_of_new_frame {new : Bytes} (h : KeepsOrRewrites kept (· = new) s t) {r : Response}
    (hport : t.port = .response r) (hkept : ¬ kept r)
    (hparse : headerResident s.buf = true →
      headerResident new = true ∧ byteAt new 0 = byteAt s.buf 0 ∧ resident new = payloadLength new) :
    resident t.buf = payloadLength t.buf ∧
      Answers .isComplete t { err := .ok, null := false, val := 1, out := [] } ∧
      Answers .isValid t
        { err := .ok, null := false, val := if byteAt s.buf 0 ∈ s.cfg.rejects then 0 else 1, out := [] } := by
  obtain ⟨hr, hnew⟩ := h.rewrites hport hkept
  obtain ⟨hr', hbyte0, hcount⟩ := hnew ▸ hparse hr
  have hqueries := queries_of_resident_eq hr' hcount
  rw [hbyte0, h.cfg] at hqueries
  exact ⟨hcount, hqueries⟩

end

/-! ### O49, O50 -/

/-- Settles O49: each written frame is one whose plaintext is known, and masking twice with the frame's own key is the
identity; a setter writes no byte the payload is read from. -/
theorem plaintextIsPreserved : Obligations.PlaintextIsPreserved := by
  unfold Obligations.PlaintextIsPreserved
  intro s t r hport
  refine ⟨fun key h => ?_, fun h => ?_, fun data h hok => ?_, fun d h hok => ?_, fun arg => ?_⟩
  · exact (setKey_keepsOrRewrites h).congr _ fun _ _ hb => hb.plain
  · exact (removeKey_keepsOrRewrites h).congr _ fun _ _ hb => hb.plain
  · obtain ⟨hr, hnew⟩ := (setPayload_keepsOrRewrites h).rewrites hport (not_not.2 hok)
    obtain ⟨-, hplain, -⟩ := repayloadedFrame_parses data hr
    rw [hnew, hplain]
  · obtain ⟨hvalid, hbuf⟩ := build_ok h hport hok
    obtain ⟨-, -, hkey⟩ := (descriptorError_eq_none_iff d).1 hvalid
    obtain ⟨-, hplain, -⟩ := buildFrame_parses d hkey
    rw [hbuf, hplain]
  · simp only [List.forall_mem_cons]
    exact ⟨setField_plainPayload, setField_plainPayload, setField_plainPayload, setField_plainPayload,
      setField_plainPayload, List.forall_mem_nil _⟩

/-- Settles O50: the two reads only respond; the other four keep the buffer or write a frame with the old byte 0, which
differs in the key alone or has as many resident bytes as it declares. -/
theorem headerIsPreserved : Obligations.HeaderIsPreserved := by
  unfold Obligations.HeaderIsPreserved
  intro s t r key data hport hlt
  have hreads : ∀ i ∈ [Instr.getKey, .getPayload], exec i s = .next t → t.mem = s.mem := by
    have read {o : Out} (ho : RespondsOnly s o) (h : o = .next t) : t.mem = s.mem := by
      obtain ⟨r', rfl⟩ := ho
      cases h
      rfl
    simp only [List.forall_mem_cons]
    exact ⟨read (execGetKey_respondsOnly s), read (execGetPayload_respondsOnly s), List.forall_mem_nil _⟩
  refine ⟨?_, hreads, ?_, ?_⟩
  · have byte0 (h : t.mem = s.mem) : byteAt t.buf 0 = byteAt s.buf 0 := by rw [State.buf, h, State.buf]
    simp only [List.forall_mem_cons] at hreads ⊢
    obtain ⟨hgetKey, hgetPayload, -⟩ := hreads
    refine ⟨fun h => byte0 (hgetKey h), fun h => ?_, fun h => ?_, fun h => byte0 (hgetPayload h), fun h => ?_,
      fun h => ?_, List.forall_mem_nil _⟩
    · exact (setKey_keepsOrRewrites h).congr (byteAt · 0) fun _ _ hb => hb.byte0
    · exact (removeKey_keepsOrRewrites h).congr (byteAt · 0) fun _ _ hb => hb.byte0
    · refine (setPayload_keepsOrRewrites h).congr (byteAt · 0) fun hr b hb => ?_
      obtain ⟨-, -, -, -, hbyte0⟩ := repayloadedFrame_parses data hr
      rw [hb, hbyte0]
    · refine (removePayload_keepsOrRewrites h).congr (byteAt · 0) fun hr b hb => ?_
      obtain ⟨-, hbyte0, -⟩ := unpayloadedFrame_parses hr
      rw [hb, hbyte0]
  · exact List.forall_mem_cons.2 ⟨fun h => header_kept_of_sameButKey (setKey_keepsOrRewrites h),
      List.forall_mem_cons.2 ⟨fun h => header_kept_of_sameButKey (removeKey_keepsOrRewrites h),
        List.forall_mem_nil _⟩⟩
  · simp only [List.forall_mem_cons]
    refine ⟨fun h hok hnull => ?_, fun h hok hnull => ?_, List.forall_mem_nil _⟩
    · refine complete_of_new_frame (setPayload_keepsOrRewrites h) hport (not_not.2 hok) fun hr => ?_
      obtain ⟨hr', -, hcount, hlen, hbyte0⟩ := repayloadedFrame_parses data hr
      exact ⟨hr', hbyte0, hcount.trans (hlen hlt).symm⟩
    · refine complete_of_new_frame (removePayload_keepsOrRewrites h) hport (by simp [hok, hnull]) fun hr => ?_
      obtain ⟨hr', hbyte0, hcount, hlen⟩ := unpayloadedFrame_parses hr
      exact ⟨hr', hbyte0, hcount.trans hlen.symm⟩

end Sys2Proof.Machine
end

section
/-! The queries (45_queries.md R175-R179): what `IS_COMPLETE` and `IS_VALID` answer, the frame's condition they name,
and what the bytes of an `APPEND` do to it. -/

namespace Sys2Proof.Machine

/-! ### The predicates when they fail -/

theorem resident_eq_len (s : State) : resident s.buf = s.len - payoff s.buf := by rw [resident, State.length_buf]

theorem protocolLegal_eq_true_iff (c : Config) (b0 : Byte) : protocolLegal c b0 = true ↔ b0 ∉ c.rejects := by
  simp [protocolLegal]

theorem protocolLegal_eq_false_iff (c : Config) (b0 : Byte) : protocolLegal c b0 = false ↔ b0 ∈ c.rejects := by
  simp [protocolLegal]

theorem frameComplete_eq_false_iff (b : Bytes) :
    frameComplete b = false ↔ headerResident b = false ∨ resident b < payloadLength b := by
  rw [Bool.eq_false_iff, ne_eq, frameComplete_iff, not_and_or, Bool.not_eq_true, Nat.not_le]

theorem frameValid_eq_false_iff (c : Config) (b : Bytes) :
    frameValid c b = false ↔
      headerResident b = false ∨ resident b ≠ payloadLength b ∨ protocolLegal c (byteAt b 0) = false := by
  rw [Bool.eq_false_iff, ne_eq, frameValid_iff, not_and_or, not_and_or, Bool.not_eq_true, Bool.not_eq_true]

theorem frameComplete_of_frameValid {c : Config} {b : Bytes} (h : frameValid c b = true) : frameComplete b = true := by
  obtain ⟨hr, hcount, -⟩ := (frameValid_iff c b).1 h
  exact (frameComplete_iff b).2 ⟨hr, hcount.ge⟩

/-! ### The answers as truth values -/

theorem valOfBool_inj {a b : Bool} : valOfBool a = valOfBool b ↔ a = b := by
  revert a b
  decide

theorem valResponse_inj {v w : Val} : valResponse v = valResponse w ↔ v = w := by simp [valResponse]

theorem answers_isComplete_bool_iff (s : State) (v : Bool) :
    Answers .isComplete s (valResponse (valOfBool v)) ↔ frameComplete s.buf = v := by
  rw [answers_isComplete_iff, valResponse_inj, valOfBool_inj, eq_comm]

theorem answers_isValid_bool_iff (s : State) (v : Bool) :
    Answers .isValid s (valResponse (valOfBool v)) ↔ frameValid s.cfg s.buf = v := by
  rw [answers_isValid_iff, valResponse_inj, valOfBool_inj, eq_comm]

/-! ### The condition by the two predicates (R178) -/

theorem frameCondition_eq_receiving_iff (c : Config) (b : Bytes) :
    frameCondition c b = .receiving ↔ frameComplete b = false := by
  unfold frameCondition
  cases frameComplete b
  · simp
  · cases frameValid c b <;> simp

theorem frameCondition_eq_valid_iff (c : Config) (b : Bytes) :
    frameCondition c b = .valid ↔ frameValid c b = true := by
  unfold frameCondition
  cases hv : frameValid c b
  · cases frameComplete b <;> simp
  · simp [frameComplete_of_frameValid hv]

theorem frameCondition_eq_malformed_iff (c : Config) (b : Bytes) :
    frameCondition c b = .malformed ↔ frameComplete b = true ∧ frameValid c b = false := by
  unfold frameCondition
  cases frameComplete b
  · simp
  · cases frameValid c b <;> simp

/-- Complete is the union of valid and malformed (R178). -/
theorem frameComplete_iff_valid_or_malformed (c : Config) (b : Bytes) :
    frameComplete b = true ↔ frameCondition c b = .valid ∨ frameCondition c b = .malformed := by
  rw [frameCondition_eq_valid_iff, frameCondition_eq_malformed_iff]
  cases hv : frameValid c b
  · simp
  · simp [frameComplete_of_frameValid hv]

/-- The column *malformed* of R178's table: with enough bytes resident, R176 fails by a byte too many or by byte 0. -/
theorem frameCondition_eq_malformed_iff_counts (c : Config) (b : Bytes) :
    frameCondition c b = .malformed ↔ (headerResident b = true ∧ payloadLength b ≤ resident b) ∧
      (payloadLength b < resident b ∨ protocolLegal c (byteAt b 0) = false) := by
  rw [frameCondition_eq_malformed_iff, frameComplete_iff, frameValid_eq_false_iff]
  refine and_congr_right fun ⟨hr, hcount⟩ => ?_
  have hne : resident b ≠ payloadLength b ↔ payloadLength b < resident b := by omega
  simp [hr, hne]

/-! ### Appended bytes (R121, R179) -/

/-- `APPEND` adds its bytes at the end, or adds none where they do not fit. -/
theorem append_cases {s t : State} {data : Bytes} (h : exec (.append data) s = .next t) :
    t.cfg = s.cfg ∧ (t.buf = s.buf ∨ t.buf = s.buf ++ data) := by
  have hrep : replaceBuffer s (s.buf ++ data) okResponse = .next t := h
  cases hfits : fitsBuffer s.cfg (s.buf ++ data).length with
  | false =>
    cases (replaceBuffer_of_not_fits hfits _).symm.trans hrep
    exact ⟨rfl, .inl rfl⟩
  | true =>
    cases (replaceBuffer_of_fits hfits _).symm.trans hrep
    exact ⟨rfl, .inr (Memory.bytes_ofBytes _)⟩

theorem frameComplete_append {b : Bytes} (h : frameComplete b = true) (data : Bytes) :
    frameComplete (b ++ data) = true := by
  obtain ⟨hr, hcount⟩ := (frameComplete_iff b).1 h
  obtain ⟨hr', -, hlen, hresident, -⟩ := headerResident_append data hr
  exact (frameComplete_iff _).2 ⟨hr', by omega⟩

/-- Any byte after a complete frame is one more than the frame declares. -/
theorem frameValid_append_eq_false {b : Bytes} (h : frameComplete b = true) {data : Bytes} (hne : data ≠ [])
    (c : Config) : frameValid c (b ++ data) = false := by
  obtain ⟨hr, hcount⟩ := (frameComplete_iff b).1 h
  obtain ⟨-, -, hlen, hresident, -⟩ := headerResident_append data hr
  have hpos : 0 < data.length := List.length_pos_iff.2 hne
  exact (frameValid_eq_false_iff c _).2 (.inr (.inl (by omega)))

theorem frameCondition_append_eq_malformed {b : Bytes} (h : frameComplete b = true) {data : Bytes} (hne : data ≠ [])
    (c : Config) : frameCondition c (b ++ data) = .malformed :=
  (frameCondition_eq_malformed_iff c _).2 ⟨frameComplete_append h data, frameValid_append_eq_false h hne c⟩

/-! ### O52, O53, O54, O55 -/

/-- Settles O52: the answer is the predicate of R175, whose resident count is `LEN` less the payload offset. -/
theorem completenessIsAnswered : Obligations.CompletenessIsAnswered := by
  unfold Obligations.CompletenessIsAnswered
  refine ⟨fun rest => rfl, fun s => ?_⟩
  rw [← resident_eq_len]
  exact ⟨fun h => (answers_isComplete_bool_iff s true).2 ((frameComplete_iff _).2 h),
    fun h => (answers_isComplete_bool_iff s false).2 ((frameComplete_eq_false_iff _).2 h)⟩

/-- Settles O53: the answer is the predicate of R176, which a missing header makes false, as a wrong count and an
illegal byte 0 do. -/
theorem validityIsAnswered : Obligations.ValidityIsAnswered := by
  unfold Obligations.ValidityIsAnswered
  refine ⟨fun rest => rfl, fun s => ?_⟩
  rw [← resident_eq_len, ← protocolLegal_eq_true_iff, ← protocolLegal_eq_false_iff]
  exact ⟨fun h => (answers_isValid_bool_iff s true).2 ((frameValid_iff _ _).2 h),
    fun h => (answers_isValid_bool_iff s false).2 ((frameValid_eq_false_iff _ _).2 h)⟩

/-- Settles O54: the header's fields stay as they are and the resident count only grows. -/
theorem completenessIsMonotonic : Obligations.CompletenessIsMonotonic := by
  unfold Obligations.CompletenessIsMonotonic
  refine ⟨fun s t data hs h => ?_, fun s t b hs _ hbuf => ?_⟩
  · have hcomplete : frameComplete s.buf = true := (answers_isComplete_bool_iff s true).1 hs
    refine (answers_isComplete_bool_iff t true).2 ?_
    obtain ⟨-, hbuf | hbuf⟩ := append_cases h
    · rwa [hbuf]
    · rw [hbuf]
      exact frameComplete_append hcomplete data
  · have hvalid : frameValid s.cfg s.buf = true := (answers_isValid_bool_iff s true).1 hs
    refine (answers_isValid_bool_iff t false).2 ?_
    rw [hbuf]
    exact frameValid_append_eq_false (frameComplete_of_frameValid hvalid) (List.cons_ne_nil b []) t.cfg

/-- Settles O55: the condition is decided by the two predicates the queries answer, an `APPEND` to the empty buffer
reaches each of the three, and bytes after a complete frame make it malformed. -/
theorem frameConditionsAndTheirArrows : Obligations.FrameConditionsAndTheirArrows := by
  unfold Obligations.FrameConditionsAndTheirArrows
  intro tells has
  refine ⟨fun s => ?_, fun c => ?_, fun s t data h hne hbuf => ?_⟩
  · have complete : ∀ v, tells .isComplete s (valOfBool v) ↔ frameComplete s.buf = v := answers_isComplete_bool_iff s
    have valid : ∀ v, tells .isValid s (valOfBool v) ↔ frameValid s.cfg s.buf = v := answers_isValid_bool_iff s
    have hreceiving : has s .receiving ↔ frameComplete s.buf = false := frameCondition_eq_receiving_iff _ _
    have hvalid : has s .valid ↔ frameValid s.cfg s.buf = true := frameCondition_eq_valid_iff _ _
    refine ⟨hreceiving.trans (complete false).symm, hvalid.trans (valid true).symm,
      (frameCondition_eq_malformed_iff _ _).trans (and_congr (complete true).symm (valid false).symm),
      (complete true).trans (frameComplete_iff_valid_or_malformed _ _), ?_, ?_,
      frameCondition_eq_malformed_iff_counts _ _⟩
    · have hshort : s.len < 2 → headerResident s.buf = false := fun hlen =>
        headerResident_eq_false_of_not_have2 (have2_eq_false_of_short hlen)
      rw [hreceiving, frameComplete_eq_false_iff, ← or_assoc, or_iff_right_of_imp hshort]
    · rw [hvalid, frameValid_iff]
      exact and_congr_right fun _ => ⟨fun ⟨hcount, hlegal⟩ => ⟨hcount.ge, hcount, hlegal⟩, And.right⟩
  · cases c with
    | receiving => exact ⟨State.reset, _, [0x81], rfl, by decide, by decide, by decide⟩
    | valid => exact ⟨State.reset, _, [0x81, 0x00], rfl, by decide, by decide, by decide⟩
    | malformed => exact ⟨State.reset, _, [0x81, 0x00, 0xFF], rfl, by decide, by decide, by decide⟩
  · have hmalformed (hs : has s .valid ∨ has s .malformed) : has t .malformed := by
      have hcomplete := (frameComplete_iff_valid_or_malformed _ _).2 hs
      have hcond := frameCondition_append_eq_malformed hcomplete hne t.cfg
      rwa [← hbuf] at hcond
    exact ⟨fun hs => hmalformed (.inl hs), fun hs => hmalformed (.inr hs)⟩

end Sys2Proof.Machine
end

section
/-! The error table (60_exceptions.md R198, R199): a command tests the entries of its row in the order of R198, ends
in the first that applies, and completes where none does. -/

namespace Sys2Proof.Machine

/-! ### The columns of the table -/

/-- The errors a command can raise, in the order of R198. `WrongType` is none (R188). -/
def errorOrder : List ErrorCode :=
  [.illegalCommand, .invalidArgumentShape, .outOfRange, .wrongLength, .headerIncomplete, .overflow]

/-- The columns of a command's row of R199 that are no dot, in the order of R198. -/
def errorColumns : Instr → List ErrorCode
  | .load _ => [.invalidArgumentShape, .overflow]
  | .build _ => [.illegalCommand, .outOfRange, .wrongLength, .overflow]
  | .append _ => [.overflow]
  | .getFin | .getRsv1 | .getRsv2 | .getRsv3 | .getOpcode | .getMask | .getLen7 | .getExtw | .getKeyoff
  | .getPayoff | .getResident | .getPaylen | .getKey | .getPayload | .removeKey | .removePayload =>
    [.headerIncomplete]
  | .setFin _ | .setRsv1 _ | .setRsv2 _ | .setRsv3 _ | .setOpcode _ => [.outOfRange, .headerIncomplete]
  | .setKey _ => [.wrongLength, .headerIncomplete, .overflow]
  | .setPayload _ => [.headerIncomplete, .overflow]
  | .xform _ _ => [.wrongLength]
  | .isComplete | .isValid | .hdrL7U _ _ | .hdrL7M _ _ | .hdrL16U _ | .hdrL16M _ | .hdrL64U _ | .hdrL64M _ => []

theorem errorColumns_sublist (i : Instr) : (errorColumns i).Sublist errorOrder := by
  cases i <;> exact List.isSublist_iff_sublist.1 rfl

theorem errorColumns_sorted (i : Instr) : (errorColumns i).Pairwise fun e e' => errorRank e ≤ errorRank e' :=
  have hsorted : errorOrder.Pairwise fun e e' => errorRank e ≤ errorRank e' := by decide
  hsorted.sublist (errorColumns_sublist i)

theorem mem_errorColumns_of_mayRaise {s : State} {i : Instr} {e : ErrorCode} (h : mayRaise s i e) :
    e ∈ errorColumns i := by
  revert h
  unfold mayRaise
  split <;> simp [errorColumns]

theorem mem_errorOrder_of_mayRaise {s : State} {i : Instr} {e : ErrorCode} (h : mayRaise s i e) : e ∈ errorOrder :=
  (errorColumns_sublist i).subset (mem_errorColumns_of_mayRaise h)

theorem ne_ok_of_mayRaise {s : State} {i : Instr} {e : ErrorCode} (h : mayRaise s i e) : e ≠ .ok :=
  ne_of_mem_of_not_mem (mem_errorOrder_of_mayRaise h) (by decide)

theorem ne_wrongType_of_mayRaise {s : State} {i : Instr} {e : ErrorCode} (h : mayRaise s i e) : e ≠ .wrongType :=
  ne_of_mem_of_not_mem (mem_errorOrder_of_mayRaise h) (by decide)

/-! ### Tests in order -/

/-- The outcome is a response with the code `OK`, all else but the buffer being as in `s`. -/
def Completes (s : State) (o : Out) : Prop :=
  ∃ m r, o = .next { s with mem := m, port := .response r } ∧ r.err = .ok

/-- `o` is the outcome in `s` of a command that tests the columns `es` of the row `row` in turn, raises the first
whose entry applies, and completes if none does. -/
def TestsInOrder (s : State) (row : ErrorCode → Prop) : List ErrorCode → Out → Prop
  | [], o => Completes s o
  | e :: es, o => (row e ∧ o = raise s e) ∨ (¬ row e ∧ TestsInOrder s row es o)

/-- `o` is the outcome in `s` that R198 names for the row `row`: the error of an applying entry that no applying
entry comes before, or, where no entry applies, no error. -/
def EndsByRow (s : State) (row : ErrorCode → Prop) (o : Out) : Prop :=
  (∃ e, o = raise s e ∧ row e ∧ ∀ e', row e' → errorRank e ≤ errorRank e') ∨ (Completes s o ∧ ∀ e, ¬ row e)

section
variable {s : State} {row : ErrorCode → Prop}

theorem TestsInOrder.endsByRow {es : List ErrorCode} {o : Out} (h : TestsInOrder s row es o)
    (hcolumns : ∀ e, row e → e ∈ es) (hsorted : es.Pairwise fun e e' => errorRank e ≤ errorRank e') :
    EndsByRow s row o := by
  induction es with
  | nil => exact .inr ⟨h, fun e he => nomatch hcolumns e he⟩
  | cons e es ih =>
    obtain ⟨hfirst, hrest⟩ := List.pairwise_cons.1 hsorted
    obtain ⟨he, ho⟩ | ⟨hne, hes⟩ := h
    · refine .inl ⟨e, ho, he, fun e' he' => ?_⟩
      obtain rfl | hmem := List.mem_cons.1 (hcolumns e' he')
      · exact le_rfl
      · exact hfirst e' hmem
    · refine ih hes (fun e' he' => ?_) hrest
      obtain rfl | hmem := List.mem_cons.1 (hcolumns e' he')
      · exact absurd he' hne
      · exact hmem

theorem completes_ite {c : Prop} [Decidable c] {a b : Out} (ha : Completes s a) (hb : Completes s b) :
    Completes s (if c then a else b) := by
  by_cases hc : c
  · rwa [if_pos hc]
  · rwa [if_neg hc]

/-- A test at the front of a command. -/
theorem testsInOrder_ite {e : ErrorCode} {es : List ErrorCode} {c : Bool} {o : Out} (hrow : row e ↔ c = false)
    (ho : TestsInOrder s row es o) : TestsInOrder s row (e :: es) (if !c then raise s e else o) := by
  cases c with
  | false => exact .inl ⟨hrow.2 rfl, rfl⟩
  | true => exact .inr ⟨fun he => (nomatch hrow.1 he), ho⟩

/-! ### The shared operations as tests -/

theorem have2_eq_false_iff_len (s : State) : have2 s.buf = false ↔ s.len < 2 := by
  rw [have2_eq_len, decide_eq_false_iff_not, Nat.not_le]

theorem getField_tests (hrow : row .headerIncomplete ↔ s.len < 2) (off pos w : Nat) :
    TestsInOrder s row [.headerIncomplete] (getField off pos w s) :=
  testsInOrder_ite (hrow.trans (have2_eq_false_iff_len s).symm) ⟨_, _, rfl, rfl⟩

theorem setField_tests {ok : Byte → Bool} {arg : Byte} (hok : row .outOfRange ↔ ok arg = false)
    (hrow : row .headerIncomplete ↔ s.len < 2) (pos w : Nat) :
    TestsInOrder s row [.outOfRange, .headerIncomplete] (setField ok pos w arg s) :=
  testsInOrder_ite hok (testsInOrder_ite (hrow.trans (have2_eq_false_iff_len s).symm) ⟨_, _, rfl, rfl⟩)

theorem readParser_tests {ready : Bytes → Bool} (hrow : row .headerIncomplete ↔ ready s.buf = false)
    (f : Bytes → Nat) : TestsInOrder s row [.headerIncomplete] (readParser ready f s) :=
  testsInOrder_ite hrow ⟨_, _, rfl, rfl⟩

theorem replaceBuffer_tests {b : Bytes} (hrow : row .overflow ↔ fitsBuffer s.cfg b.length = false) {r : Response}
    (hr : r.err = .ok) : TestsInOrder s row [.overflow] (replaceBuffer s b r) := by
  cases hfits : fitsBuffer s.cfg b.length with
  | false => exact .inl ⟨hrow.2 hfits, replaceBuffer_of_not_fits hfits r⟩
  | true =>
    rw [hfits] at hrow
    exact .inr ⟨fun h => (nomatch hrow.1 h), _, _, replaceBuffer_of_fits hfits r, hr⟩

/-- `GET_KEY` and `REMOVE_KEY`: the rest of the header is needed only where the mask bit announces a key. -/
theorem keyCommand_tests
    (hrow : row .headerIncomplete ↔ s.len < 2 ∨ (maskBit s.buf = true ∧ headerResident s.buf = false)) {o : Out}
    (ho : Completes s o) :
    TestsInOrder s row [.headerIncomplete]
      (if !have2 s.buf then raise s .headerIncomplete
       else if !maskBit s.buf then answer s nullResponse
       else if !headerResident s.buf then raise s .headerIncomplete
       else o) := by
  rw [← have2_eq_false_iff_len] at hrow
  cases h2 : have2 s.buf with
  | false => exact .inl ⟨hrow.2 (.inl h2), rfl⟩
  | true =>
    rw [h2] at hrow
    cases hm : maskBit s.buf with
    | false => exact .inr ⟨by simp [hrow, hm], _, _, rfl, rfl⟩
    | true =>
      have hrest : row .headerIncomplete ↔ headerResident s.buf = false := by simp [hrow, hm]
      exact testsInOrder_ite (c := headerResident s.buf) hrest ho

end

/-! ### The commands as tests -/

theorem execLoad_tests (data : Bytes) (s : State) :
    TestsInOrder s (mayRaise s (.load data)) [.invalidArgumentShape, .overflow] (execLoad data s) :=
  have hraw : data.length < 2 ↔ rawValid data = false := by
    rw [Bool.eq_false_iff, ne_eq, rawValid_iff, Nat.not_le]
  testsInOrder_ite hraw (replaceBuffer_tests Iff.rfl rfl)

theorem execAppend_tests (data : Bytes) (s : State) :
    TestsInOrder s (mayRaise s (.append data)) [.overflow] (execAppend data s) :=
  have hlen : (s.buf ++ data).length = s.len + data.length := by rw [List.length_append, State.length_buf]
  replaceBuffer_tests (by rw [hlen]; rfl) rfl

theorem execBuild_tests (d : Descriptor) (s : State) :
    TestsInOrder s (mayRaise s (.build d)) [.illegalCommand, .outOfRange, .wrongLength, .overflow]
      (execBuild d s) := by
  by_cases hpres : d.presBit7 = true
  · exact .inl ⟨hpres, execBuild_of_error (descriptorError_of_presBit7 hpres) s⟩
  refine .inr ⟨hpres, ?_⟩
  rw [Bool.not_eq_true] at hpres
  by_cases hout : descriptorOutOfRange d
  · exact .inl ⟨hout, execBuild_of_error (descriptorError_of_outOfRange hpres hout) s⟩
  refine .inr ⟨hout, ?_⟩
  by_cases hkey : ∃ k, d.maskingKey = some k ∧ k.length ≠ 4
  · obtain ⟨k, hk, hlen⟩ := hkey
    exact .inl ⟨⟨k, hk, hlen⟩, execBuild_of_error (descriptorError_of_wrongLength hpres hout hk hlen) s⟩
  refine .inr ⟨hkey, ?_⟩
  push Not at hkey
  rw [execBuild_of_valid ((descriptorError_eq_none_iff d).2 ⟨hpres, hout, hkey⟩)]
  exact replaceBuffer_tests Iff.rfl rfl

theorem flagValid_eq_false_iff (v : Byte) : flagValid v = false ↔ 1 < v.toNat := by
  rw [Bool.eq_false_iff, ne_eq, flagValid_iff, Nat.not_le]

theorem opcodeValid_eq_false_iff (v : Byte) : opcodeValid v = false ↔ 15 < v.toNat := by
  rw [Bool.eq_false_iff, ne_eq, opcodeValid_iff, Nat.not_le]

theorem keyValid_eq_false_iff (key : Bytes) : keyValid key = false ↔ key.length ≠ 4 := by
  rw [Bool.eq_false_iff, ne_eq, keyValid_iff]

/-- The capacity entry needs the mask bit clear: a replaced key adds no byte (R156). -/
theorem execSetKey_tests (key : Bytes) (s : State) :
    TestsInOrder s (mayRaise s (.setKey key)) [.wrongLength, .headerIncomplete, .overflow] (execSetKey key s) := by
  refine testsInOrder_ite (keyValid_eq_false_iff key).symm (testsInOrder_ite Iff.rfl ?_)
  have hrow : mayRaise s (.setKey key) .overflow ↔ maskBit s.buf = false ∧ fitsBuffer s.cfg (s.len + 4) = false :=
    Iff.rfl
  cases hm : maskBit s.buf with
  | true => exact .inr ⟨by simp [hrow, hm], _, _, rfl, rfl⟩
  | false => exact testsInOrder_ite (by simp [hrow, hm]) ⟨_, _, rfl, rfl⟩

theorem exec_testsInOrder {i : Instr} (hcmd : i.isHeader = false) (s : State) :
    TestsInOrder s (mayRaise s i) (errorColumns i) (exec i s) := by
  cases i with
  | load data => exact execLoad_tests data s
  | build d => exact execBuild_tests d s
  | append data => exact execAppend_tests data s
  | getFin | getRsv1 | getRsv2 | getRsv3 | getOpcode | getMask => exact getField_tests Iff.rfl _ _ _
  | getLen7 | getExtw | getKeyoff | getPayoff => exact readParser_tests (have2_eq_false_iff_len s).symm _
  | getResident | getPaylen => exact readParser_tests Iff.rfl _
  | getKey | removeKey => exact keyCommand_tests Iff.rfl ⟨_, _, rfl, rfl⟩
  | getPayload | removePayload =>
    exact testsInOrder_ite Iff.rfl (completes_ite ⟨_, _, rfl, rfl⟩ ⟨_, _, rfl, rfl⟩)
  | isComplete | isValid => exact ⟨_, _, rfl, rfl⟩
  | setFin arg | setRsv1 arg | setRsv2 arg | setRsv3 arg =>
    exact setField_tests (flagValid_eq_false_iff arg).symm Iff.rfl _ _
  | setOpcode arg => exact setField_tests (opcodeValid_eq_false_iff arg).symm Iff.rfl _ _
  | setKey key => exact execSetKey_tests key s
  | setPayload data => exact testsInOrder_ite Iff.rfl (replaceBuffer_tests Iff.rfl rfl)
  | xform key data => exact testsInOrder_ite (keyValid_eq_false_iff key).symm ⟨_, _, rfl, rfl⟩
  | hdrL7U | hdrL7M | hdrL16U | hdrL16M | hdrL64U | hdrL64M => cases hcmd

theorem exec_endsByRow {i : Instr} (hcmd : i.isHeader = false) (s : State) :
    EndsByRow s (mayRaise s i) (exec i s) :=
  (exec_testsInOrder hcmd s).endsByRow (fun _ => mem_errorColumns_of_mayRaise) (errorColumns_sorted i)

/-! ### Responses of instructions -/

theorem exec_of_isHeader {i : Instr} (h : i.isHeader = true) (s : State) : exec i s = .next s.silent := by
  cases i with
  | hdrL7U | hdrL7M | hdrL16U | hdrL16M | hdrL64U | hdrL64M => rfl
  | load | build | append | getFin | getRsv1 | getRsv2 | getRsv3 | getOpcode | getMask | getLen7 | getExtw | getKeyoff
  | getPayoff | getResident | getPaylen | getKey | getPayload | isComplete | isValid | setFin | setRsv1 | setRsv2
  | setRsv3 | setOpcode | setKey | removeKey | setPayload | removePayload | xform => cases h

section
variable {i : Instr} {s t : State} {r : Response}

theorem isHeader_eq_false_of_response (h : exec i s = .next t) (hport : t.port = .response r) :
    i.isHeader = false := by
  by_contra hh
  rw [Bool.not_eq_false] at hh
  cases (exec_of_isHeader hh s).symm.trans h
  cases hport

/-- Every response there is: the first error of the row, the state else unchanged, or `OK` where no entry applies. -/
theorem response_cases (h : exec i s = .next t) (hport : t.port = .response r) :
    (t = s.respond (errorResponse r.err) ∧ mayRaise s i r.err ∧
      ∀ e, mayRaise s i e → errorRank r.err ≤ errorRank e) ∨
    ((∃ m, t = { s with mem := m, port := .response r }) ∧ r.err = .ok ∧ ∀ e, ¬ mayRaise s i e) := by
  obtain ⟨e, hraise, hrow, hfirst⟩ | ⟨⟨m, r', hnext, hok⟩, hnone⟩ :=
    exec_endsByRow (isHeader_eq_false_of_response h hport) s
  · cases hraise.symm.trans h
    cases hport
    exact .inl ⟨rfl, hrow, hfirst⟩
  · cases hnext.symm.trans h
    cases hport
    exact .inr ⟨⟨m, rfl⟩, hok, hnone⟩

theorem eq_respond_of_error (h : exec i s = .next t) (hport : t.port = .response r) (herr : r.err ≠ .ok) :
    t = s.respond (errorResponse r.err) := by
  obtain ⟨ht, -⟩ | ⟨-, hok, -⟩ := response_cases h hport
  · exact ht
  · exact absurd hok herr

theorem cmdIn_of_response (h : exec i s = .next t) (hport : t.port = .response r) : t.cmdIn = s.cmdIn := by
  obtain ⟨rfl, -⟩ | ⟨⟨m, rfl⟩, -⟩ := response_cases h hport
  · rfl
  · rfl

theorem err_ne_wrongType_of_response (h : exec i s = .next t) (hport : t.port = .response r) :
    r.err ≠ .wrongType := by
  obtain ⟨-, hrow, -⟩ | ⟨-, hok, -⟩ := response_cases h hport
  · exact ne_wrongType_of_mayRaise hrow
  · rw [hok]
    exact nofun

end

theorem exec_responds {i : Instr} (hcmd : i.isHeader = false) (s : State) :
    ∃ t r, exec i s = .next t ∧ t.port = .response r := by
  obtain ⟨e, hraise, -⟩ | ⟨⟨m, r, hnext, -⟩, -⟩ := exec_endsByRow hcmd s
  · exact ⟨_, _, hraise, rfl⟩
  · exact ⟨_, r, hnext, rfl⟩

end Sys2Proof.Machine
end

section
/-! The step and its responses (60_exceptions.md R188, R195-R200): what a step can do, case by case of what it
fetches, and which of these puts a response out. -/

namespace Sys2Proof

/-! ### What the decoders yield -/

/-- What a decoder of packets found is a header form. -/
def Decoded.yieldsHeader : Decoded → Bool
  | .command i _ => i.isHeader
  | .undefinedCode _ | .truncated => false

theorem yieldsHeader_withOperands {α : Type} {mk : α → Instr} (hmk : ∀ x, (mk x).isHeader = false)
    (o : Option (α × Bytes)) : (withOperands mk o).yieldsHeader = false := by
  cases o with
  | none => rfl
  | some p => exact hmk p.1

/-- Header forms are no rows of R72. -/
theorem yieldsHeader_decodePacket (bs : Bytes) : (decodePacket bs).yieldsHeader = false := by
  cases bs with
  | nil => rfl
  | cons c bs =>
    simp only [decodePacket]
    split
    any_goals exact yieldsHeader_withOperands (fun _ => rfl) _
    all_goals rfl

theorem isHeader_of_decodePacket {bs rest : Bytes} {i : Instr} (h : decodePacket bs = .command i rest) :
    i.isHeader = false := by
  have hyields := yieldsHeader_decodePacket bs
  rwa [h] at hyields

theorem isHeader_decodeHeader (b0 b1 : Byte) : (decodeHeader b0 b1).isHeader = true := by
  unfold decodeHeader
  split_ifs <;> rfl

namespace Machine

/-! ### Fetching -/

section
variable {s t : State} {rest : Bytes}

theorem fetchHeader_cases (s : State) :
    (∃ i, i.isHeader = true ∧ fetchHeader s = .instr i s) ∨ fetchHeader s = .idle := by
  unfold fetchHeader
  split
  · exact .inl ⟨_, isHeader_decodeHeader _ _, rfl⟩
  · exact .inr rfl

theorem fetch_of_nothing_pending (hrst : s.rst = false) (hcmd : s.cmdIn = []) : fetch s = fetchHeader s := by
  simp [fetch, hrst, hcmd]

theorem fetch_of_command {i : Instr} (hrst : s.rst = false) (hdec : decodePacket s.cmdIn = .command i rest) :
    fetch s = .instr i (s.withCmdIn rest) := by
  have hcmd : s.cmdIn ≠ [] := fun hnil => by
    rw [hnil] at hdec
    cases hdec
  simp [fetch, hrst, hcmd, hdec]

theorem fetch_of_truncated (hrst : s.rst = false) (hcmd : s.cmdIn ≠ []) (hdec : decodePacket s.cmdIn = .truncated) :
    fetch s = .truncated := by
  simp [fetch, hrst, hcmd, hdec]

/-! ### What a step does -/

theorem step_of_reset (hrst : s.rst = true) : step s = .next s.takeReset := by
  simp [step, fetch, hrst]

/-- With no command pending there is at most a header form to run. -/
theorem eq_silent_of_nothing_pending (hrst : s.rst = false) (hcmd : s.cmdIn = []) (h : step s = .next t) :
    t = s.silent := by
  rw [step, fetch_of_nothing_pending hrst hcmd] at h
  obtain ⟨i, hi, hfetch⟩ | hfetch := fetchHeader_cases s
  · rw [hfetch] at h
    cases (exec_of_isHeader hi s).symm.trans h
    rfl
  · rw [hfetch] at h
    cases h

theorem step_of_command {i : Instr} (hrst : s.rst = false) (hdec : decodePacket s.cmdIn = .command i rest) :
    step s = exec i (s.withCmdIn rest) := by
  rw [step, fetch_of_command hrst hdec]

theorem step_of_truncated (hrst : s.rst = false) (hcmd : s.cmdIn ≠ []) (hdec : decodePacket s.cmdIn = .truncated) :
    step s = .refused .incompletePacket := by
  rw [step, fetch_of_truncated hrst hcmd hdec]

/-- Every step that puts a response out: no reset, and a command or an undefined code taken from the channel. -/
theorem step_response_cases {r : Response} (h : step s = .next t) (hport : t.port = .response r) :
    s.rst = false ∧
      ((∃ i rest, decodePacket s.cmdIn = .command i rest ∧ exec i (s.withCmdIn rest) = .next t) ∨
        ∃ rest, decodePacket s.cmdIn = .undefinedCode rest ∧ raise (s.withCmdIn rest) .illegalCommand = .next t) := by
  cases hrst : s.rst with
  | true =>
    cases (step_of_reset hrst).symm.trans h
    cases hport
  | false =>
    refine ⟨rfl, ?_⟩
    cases hdec : decodePacket s.cmdIn with
    | command i rest => exact .inl ⟨i, rest, rfl, (step_of_command hrst hdec).symm.trans h⟩
    | undefinedCode rest => exact .inr ⟨rest, rfl, (step_of_undefinedCode hrst hdec).symm.trans h⟩
    | truncated =>
      by_cases hcmd : s.cmdIn = []
      · cases eq_silent_of_nothing_pending hrst hcmd h
        cases hport
      · cases (step_of_truncated hrst hcmd hdec).symm.trans h

theorem step_of_undefinedCode_responds (hrst : s.rst = false) (hdec : decodePacket s.cmdIn = .undefinedCode rest) :
    ∃ t r, step s = .next t ∧ t.port = .response r ∧ r.err = .illegalCommand :=
  ⟨_, _, step_of_undefinedCode hrst hdec, rfl, rfl⟩

end

/-! ### O16, O17, O20, O21, O57, O59 -/

/-- Settles O16: of the two ways a command responds, the one with an error keeps the state; in a step, that state is
the one without the bytes taken. -/
theorem errorsLeaveTheStateUnchanged : Obligations.ErrorsLeaveTheStateUnchanged := by
  unfold Obligations.ErrorsLeaveTheStateUnchanged
  refine ⟨fun i s t r h hport herr => ?_, fun s t r h hport herr => ?_⟩
  · exact h.trans (congrArg _ (eq_respond_of_error h hport herr))
  · obtain ⟨-, ⟨i, rest, -, hexec⟩ | ⟨rest, -, hraise⟩⟩ := step_response_cases h hport
    · rw [eq_respond_of_error hexec hport herr]
      rfl
    · cases hraise
      cases hport
      rfl

/-- Settles O17: the column of `WrongType` is empty, and an undefined code raises `IllegalCommand`. -/
theorem wrongTypeIsNeverRaised : Obligations.WrongTypeIsNeverRaised := by
  unfold Obligations.WrongTypeIsNeverRaised
  intro s t r h hport
  obtain ⟨-, ⟨i, rest, -, hexec⟩ | ⟨rest, -, hraise⟩⟩ := step_response_cases h hport
  · exact err_ne_wrongType_of_response hexec hport
  · rw [err_of_raise_eq_next hraise hport]
    exact nofun

/-- Settles O20: a command ends in an entry of its row, or completes with none applying. -/
theorem errorsAreThoseOfTheTable : Obligations.ErrorsAreThoseOfTheTable := by
  unfold Obligations.ErrorsAreThoseOfTheTable
  refine ⟨fun i s t r _ h hport => ?_, fun s rest hrst hdec => step_of_undefinedCode_responds hrst hdec⟩
  obtain ⟨-, hrow, -⟩ | ⟨-, hok, hnone⟩ := response_cases h hport
  · exact ⟨fun _ => hrow, fun _ _ => ne_ok_of_mayRaise hrow⟩
  · exact ⟨fun herr => absurd hok herr, fun e he => absurd he (hnone e)⟩

/-- Settles O21: the tests stand in the order of R198, so no applying entry comes before the one reported. -/
theorem firstErrorInOrderWins : Obligations.FirstErrorInOrderWins := by
  unfold Obligations.FirstErrorInOrderWins
  intro i s t r e _ h hport he
  obtain ⟨-, hrow, hfirst⟩ | ⟨-, -, hnone⟩ := response_cases h hport
  · exact ⟨hrow, hfirst e he⟩
  · exact absurd he (hnone e)

/-- Settles O57: a failed command leaves another port, which no instruction reads. -/
theorem failedCommandLeavesNoTrace : Obligations.FailedCommandLeavesNoTrace := by
  unfold Obligations.FailedCommandLeavesNoTrace
  intro i j s t r h hport herr
  rw [eq_respond_of_error h hport herr]
  exact exec_of_port j s _

/-- Settles O59: the header forms are silent, the commands all respond, and what responds took one packet, of which
an instruction leaves the rest as it is. -/
theorem reportsStandInResponsesAlone : Obligations.ReportsStandInResponsesAlone := by
  unfold Obligations.ReportsStandInResponsesAlone
  refine ⟨fun s t hrst hcmd h => eq_silent_of_nothing_pending hrst hcmd h, fun s t r h hport => ?_,
    fun s i rest hrst hdec => ?_, fun s rest hrst hdec => ?_⟩
  · obtain ⟨hrst, ⟨i, rest, hdec, hexec⟩ | ⟨rest, hdec, hraise⟩⟩ := step_response_cases h hport
    · have hcmd : t.cmdIn = rest := cmdIn_of_response hexec hport
      exact ⟨hrst, .inl ⟨i, by rw [hdec, hcmd]⟩⟩
    · cases hraise
      exact ⟨hrst, .inr hdec⟩
  · rw [step_of_command hrst hdec]
    exact exec_responds (isHeader_of_decodePacket hdec) _
  · obtain ⟨t, r, h, hport, -⟩ := step_of_undefinedCode_responds hrst hdec
    exact ⟨t, r, h, hport⟩

end Machine
end Sys2Proof
end

section
/-! Encodings, both ways (30_encoding.md): a command's packet and its decoding (R72-R76), the two header bytes and
theirs (R60, R61, R67). -/

namespace Sys2Proof

/-! ### From the command to its packet and back -/

theorem dataEncodable_iff (data : Bytes) : dataEncodable data = true ↔ data.length < 2 ^ 64 := decide_eq_true_iff

theorem keyEncodable_iff (key : Bytes) : keyEncodable key = true ↔ key.length ≤ 255 := decide_eq_true_iff

theorem optEncodable_iff (ok : Bytes → Bool) (o : Option Bytes) :
    optEncodable ok o = true ↔ ∀ s, o = some s → ok s = true := by
  cases o <;> simp [optEncodable]

theorem wf_build_iff (d : Descriptor) :
    (Instr.build d).wf = true ↔ (∀ k, d.maskingKey = some k → k.length ≤ 255) ∧
      ∀ p, d.payload = some p → p.length < 2 ^ 64 := by
  simp only [Instr.wf, Bool.and_eq_true, optEncodable_iff, keyEncodable_iff, dataEncodable_iff]

theorem wf_xform_iff (key data : Bytes) :
    (Instr.xform key data).wf = true ↔ key.length ≤ 255 ∧ data.length < 2 ^ 64 := by
  simp only [Instr.wf, Bool.and_eq_true, keyEncodable_iff, dataEncodable_iff]

/-- The code selects the operand parser, which gives back the operands its encoder wrote. -/
theorem decodePacket_encode {i : Instr} (hwf : i.wf = true) (hcmd : i.isHeader = false) (rest : Bytes) :
    decodePacket (encode i ++ rest) = .command i rest := by
  have data {d : Bytes} (mk : Bytes → Instr) (hd : dataEncodable d = true) :
      withOperands mk (takeData (encodeData d ++ rest)) = .command (mk d) rest := by
    rw [takeData_encodeData ((dataEncodable_iff d).1 hd), withOperands]
  cases i with
  | load | append | setPayload => exact data _ hwf
  | build d =>
    obtain ⟨hkey, hpayload⟩ := (wf_build_iff d).1 hwf
    exact congrArg (withOperands .build) (takeDescriptor_encode hkey hpayload rest)
  | setKey key => exact congrArg (withOperands .setKey) (takeKey_encodeKey ((keyEncodable_iff key).1 hwf) rest)
  | xform key data =>
    obtain ⟨hkey, hdata⟩ := (wf_xform_iff key data).1 hwf
    exact congrArg (withOperands fun kd => .xform kd.1 kd.2) (takeKeyData_encode hkey hdata rest)
  | setFin | setRsv1 | setRsv2 | setRsv3 | setOpcode => rfl
  | getFin | getRsv1 | getRsv2 | getRsv3 | getOpcode | getMask | getLen7 | getExtw | getKeyoff | getPayoff
  | getResident | getPaylen | getKey | getPayload | isComplete | isValid | removeKey | removePayload => rfl
  | hdrL7U | hdrL7M | hdrL16U | hdrL16M | hdrL64U | hdrL64M => cases hcmd

/-! ### From the packet to the command and back -/

/-- `bs` is the packet of the well-formed `i` with `rest` after it. -/
def IsPacket (bs : Bytes) (i : Instr) (rest : Bytes) : Prop := i.wf = true ∧ bs = encode i ++ rest

/-- A command with operands: what the operand parser took is what the encoder of the operands writes. -/
theorem isPacket_of_withOperands {α : Type} {mk : α → Instr} {o : Option (α × Bytes)} {bs rest : Bytes} {i : Instr}
    (h : withOperands mk o = .command i rest) (hmk : ∀ x, o = some (x, rest) → IsPacket bs (mk x) rest) :
    IsPacket bs i rest := by
  cases o with
  | none => cases h
  | some p =>
    cases h
    exact hmk p.1 rfl

theorem isPacket_of_takeArg {mk : Byte → Instr} {c : Byte} {bs rest : Bytes} {i : Instr}
    (h : withOperands mk (takeArg bs) = .command i rest) (hmk : ∀ b, (mk b).wf = true ∧ encode (mk b) = [c, b]) :
    IsPacket (c :: bs) i rest := by
  refine isPacket_of_withOperands h fun b htake => ?_
  obtain ⟨hwf, henc⟩ := hmk b
  exact ⟨hwf, by rw [henc, takeArg_eq_some htake]; rfl⟩

theorem isPacket_of_takeData {mk : Bytes → Instr} {c : Byte} {bs rest : Bytes} {i : Instr}
    (h : withOperands mk (takeData bs) = .command i rest)
    (hmk : ∀ d, (mk d).wf = dataEncodable d ∧ encode (mk d) = c :: encodeData d) : IsPacket (c :: bs) i rest := by
  refine isPacket_of_withOperands h fun d htake => ?_
  obtain ⟨hwf, henc⟩ := hmk d
  obtain ⟨hbs, hlen⟩ := takeData_eq_some htake
  exact ⟨hwf.trans ((dataEncodable_iff d).2 hlen), by rw [henc, hbs]; rfl⟩

theorem isPacket_of_takeDescriptor {bs rest : Bytes} {i : Instr}
    (h : withOperands .build (takeDescriptor bs) = .command i rest) : IsPacket (0x02#8 :: bs) i rest := by
  refine isPacket_of_withOperands h fun d htake => ?_
  obtain ⟨hbs, hwf⟩ := takeDescriptor_eq_some htake
  exact ⟨(wf_build_iff d).2 hwf, by rw [hbs]; rfl⟩

theorem isPacket_of_takeKey {bs rest : Bytes} {i : Instr}
    (h : withOperands .setKey (takeKey bs) = .command i rest) : IsPacket (0x25#8 :: bs) i rest := by
  refine isPacket_of_withOperands h fun key htake => ?_
  obtain ⟨hbs, hlen⟩ := takeKey_eq_some htake
  exact ⟨(keyEncodable_iff key).2 hlen, by rw [hbs]; rfl⟩

theorem isPacket_of_takeKeyData {bs rest : Bytes} {i : Instr}
    (h : withOperands (fun kd => .xform kd.1 kd.2) (takeKeyData bs) = .command i rest) :
    IsPacket (0x30#8 :: bs) i rest := by
  refine isPacket_of_withOperands h fun kd htake => ?_
  obtain ⟨hbs, hwf⟩ := takeKeyData_eq_some htake
  exact ⟨(wf_xform_iff _ _).2 hwf, by rw [hbs]; rfl⟩

theorem isPacket_of_decodePacket {bs rest : Bytes} {i : Instr} (h : decodePacket bs = .command i rest) :
    IsPacket bs i rest := by
  cases bs with
  | nil => cases h
  | cons c bs =>
    simp only [decodePacket] at h
    split at h
    case h_30 => cases h
    all_goals
      rename_i hc
      obtain rfl := (BitVec.toNat_eq_nat.1 hc).2
    case h_1 | h_3 | h_27 => exact isPacket_of_takeData h fun _ => ⟨rfl, rfl⟩
    case h_2 => exact isPacket_of_takeDescriptor h
    case h_20 | h_21 | h_22 | h_23 | h_24 => exact isPacket_of_takeArg h fun _ => ⟨rfl, rfl⟩
    case h_25 => exact isPacket_of_takeKey h
    case h_29 => exact isPacket_of_takeKeyData h
    all_goals
      cases h
      exact ⟨rfl, rfl⟩

/-! ### The two header bytes -/

theorem extractLsb'_encodeByte1 (m : BitVec 1) (lit : BitVec 7) : (encodeByte1 m lit).extractLsb' 0 7 = lit := by
  revert m lit
  decide

/-- The mask bit of byte 1 tells the two `L7` forms apart. -/
theorem encodeByte1_and_mask (m : BitVec 1) (lit : BitVec 7) : encodeByte1 m lit &&& M_MASK = 0#8 ↔ m = 0#1 := by
  revert m lit
  decide

theorem encodeByte1_extractLsb' (b1 : Byte) : encodeByte1 (b1.extractLsb' 7 1) (b1.extractLsb' 0 7) = b1 := by
  revert b1
  decide

theorem decodeHeader_encode_literal {lit : BitVec 7} (hlit : len7Literal lit = true) (h : HdrByte0) (m : BitVec 1) :
    decodeHeader (encodeByte0 h) (encodeByte1 m lit) = if m = 0#1 then .hdrL7U h lit else .hdrL7M h lit := by
  have hlit' : ((encodeByte1 m lit).extractLsb' 0 7).toNat ≤ 125 := by
    rw [extractLsb'_encodeByte1]
    exact of_decide_eq_true hlit
  rw [decodeHeader_of_literal hlit', extractLsb'_encodeByte1, decodeByte0_encodeByte0]
  simp only [encodeByte1_and_mask]

/-! ### O3, O6, O4, O5, O9 -/

/-- Settles O3: each operand parser gives back what its encoder wrote. -/
theorem encodedCommandDecodes : Obligations.EncodedCommandDecodes := by
  unfold Obligations.EncodedCommandDecodes
  exact fun i rest hwf hcmd => decodePacket_encode hwf hcmd rest

/-- Settles O6: what each operand parser took is what its encoder writes, within the ranges of R74. -/
theorem decodedPacketReencodes : Obligations.DecodedPacketReencodes := by
  unfold Obligations.DecodedPacketReencodes
  intro bs rest i h
  obtain ⟨hwf, hbs⟩ := isPacket_of_decodePacket h
  exact ⟨hwf, isHeader_of_decodePacket h, hbs⟩

/-- Settles O4: the escape forms have one byte 1 each, and in the two others `len7` and the mask bit come back. -/
theorem encodedHeaderDecodes : Obligations.EncodedHeaderDecodes := by
  unfold Obligations.EncodedHeaderDecodes
  intro i hwf hhdr
  cases i with
  | hdrL7U h lit => exact ⟨_, _, rfl, decodeHeader_encode_literal hwf h 0#1⟩
  | hdrL7M h lit => exact ⟨_, _, rfl, decodeHeader_encode_literal hwf h 1#1⟩
  | hdrL16U h => exact ⟨_, _, rfl, congrArg Instr.hdrL16U (decodeByte0_encodeByte0 h)⟩
  | hdrL16M h => exact ⟨_, _, rfl, congrArg Instr.hdrL16M (decodeByte0_encodeByte0 h)⟩
  | hdrL64U h => exact ⟨_, _, rfl, congrArg Instr.hdrL64U (decodeByte0_encodeByte0 h)⟩
  | hdrL64M h => exact ⟨_, _, rfl, congrArg Instr.hdrL64M (decodeByte0_encodeByte0 h)⟩
  | load | build | append | getFin | getRsv1 | getRsv2 | getRsv3 | getOpcode | getMask | getLen7 | getExtw | getKeyoff
  | getPayoff | getResident | getPaylen | getKey | getPayload | isComplete | isValid | setFin | setRsv1 | setRsv2
  | setRsv3 | setOpcode | setKey | removeKey | setPayload | removePayload | xform => cases hhdr

/-- The form of every pair of bytes, by the tests of R61, with byte 1 written as its two fields. -/
theorem decodeHeader_reencodes (b0 b1 : Byte) :
    (decodeHeader b0 b1).wf = true ∧ encode (decodeHeader b0 b1) = [encodeByte0 (decodeByte0 b0), b1] := by
  by_cases hlit : (b1.extractLsb' 0 7).toNat ≤ 125
  · have hb1 := encodeByte1_extractLsb' b1
    have hmask := encodeByte1_and_mask (b1.extractLsb' 7 1) (b1.extractLsb' 0 7)
    rw [hb1] at hmask
    have hwf : len7Literal (b1.extractLsb' 0 7) = true := decide_eq_true hlit
    rw [decodeHeader_of_literal hlit]
    by_cases hm : b1 &&& M_MASK = 0#8
    · rw [hmask.1 hm] at hb1
      rw [if_pos hm]
      exact ⟨hwf, by rw [encode, hb1]⟩
    · have h1 : b1.extractLsb' 7 1 = 1#1 := (BitVec.eq_zero_or_eq_one _).resolve_left (mt hmask.2 hm)
      rw [h1] at hb1
      rw [if_neg hm]
      exact ⟨hwf, by rw [encode, hb1]⟩
  · rw [literal_iff_not_escape, not_not] at hlit
    obtain rfl | rfl | rfl | rfl := hlit
    all_goals exact ⟨rfl, rfl⟩

/-- Settles O5: the six tests cover every byte 1, and no bit of it or of byte 0 is dropped. -/
theorem everyHeaderDecodesAndReencodes : Obligations.EveryHeaderDecodesAndReencodes := by
  unfold Obligations.EveryHeaderDecodesAndReencodes
  intro b0 b1
  obtain ⟨hwf, hencode⟩ := decodeHeader_reencodes b0 b1
  rw [encodeByte0_decodeByte0] at hencode
  exact ⟨hwf, isHeader_decodeHeader b0 b1, hencode⟩

/-- Settles O9: the words are closed, so the decoders compute them. -/
theorem writtenOutWordsDecode : Obligations.WrittenOutWordsDecode := by
  unfold Obligations.WrittenOutWordsDecode
  decide

end Sys2Proof
end

section
/-! The step (00_scope.md R9): every instruction answers a next state, in which it has written the buffer and the port
alone; what a step does of each thing it can fetch; when it stops. -/

namespace Sys2Proof.Machine

/-! ### What an instruction leaves alone -/

theorem exec_onlyBufferAndPort (i : Instr) (s : State) : OnlyBufferAndPort s (exec i s) := by
  cases hcmd : i.isHeader with
  | true => exact ⟨_, _, exec_of_isHeader hcmd s⟩
  | false =>
    obtain ⟨e, hraise, -⟩ | ⟨⟨m, r, hnext, -⟩, -⟩ := exec_endsByRow hcmd s
    · rw [hraise]
      exact raise_onlyBufferAndPort s e
    · exact ⟨m, _, hnext⟩

theorem not_stops_exec (i : Instr) (s : State) : ¬ Stops (exec i s) := by
  obtain ⟨m, p, h⟩ := exec_onlyBufferAndPort i s
  rw [h]
  exact id

/-! ### What a step does with nothing pending -/

section
variable {s t : State}

theorem step_of_header {b0 b1 : Byte} {rest : Bytes} (hrst : s.rst = false) (hcmd : s.cmdIn = [])
    (hb : s.buf = b0 :: b1 :: rest) : step s = exec (decodeHeader b0 b1) s := by
  rw [step, fetch_of_nothing_pending hrst hcmd, fetchHeader, hb]

theorem fetchHeader_of_short (hlen : s.len < 2) : fetchHeader s = .idle := by
  rw [← State.length_buf] at hlen
  unfold fetchHeader
  split
  · rename_i hb
    rw [hb, List.length_cons, List.length_cons] at hlen
    omega
  · rfl

theorem step_of_short (hrst : s.rst = false) (hcmd : s.cmdIn = []) (hlen : s.len < 2) : step s = .fault .idle := by
  rw [step, fetch_of_nothing_pending hrst hcmd, fetchHeader_of_short hlen]

/-! ### Every step -/

/-- The next states there are, case by case of what the step fetched. -/
theorem step_next_cases (h : step s = .next t) :
    t = s.takeReset ∨ t = s.silent ∨ (∃ i rest, exec i (s.withCmdIn rest) = .next t) ∨
      ∃ rest, raise (s.withCmdIn rest) .illegalCommand = .next t := by
  cases hrst : s.rst with
  | true =>
    cases (step_of_reset hrst).symm.trans h
    exact .inl rfl
  | false =>
    cases hdec : decodePacket s.cmdIn with
    | command i rest => exact .inr (.inr (.inl ⟨i, rest, (step_of_command hrst hdec).symm.trans h⟩))
    | undefinedCode rest => exact .inr (.inr (.inr ⟨rest, (step_of_undefinedCode hrst hdec).symm.trans h⟩))
    | truncated =>
      by_cases hcmd : s.cmdIn = []
      · exact .inr (.inl (eq_silent_of_nothing_pending hrst hcmd h))
      · cases (step_of_truncated hrst hcmd hdec).symm.trans h

theorem stops_step_iff (s : State) :
    Stops (step s) ↔
      s.rst = false ∧ ((s.cmdIn = [] ∧ s.len < 2) ∨ (s.cmdIn ≠ [] ∧ decodePacket s.cmdIn = .truncated)) := by
  cases hrst : s.rst with
  | true => simp [step_of_reset hrst, Stops]
  | false =>
    by_cases hcmd : s.cmdIn = []
    · by_cases hlen : s.len < 2
      · simp [step_of_short hrst hcmd hlen, Stops, hcmd, hlen]
      · obtain ⟨b0, b1, rest, hb⟩ := buf_cons_of_two_le (Nat.not_lt.1 hlen)
        simp [step_of_header hrst hcmd hb, not_stops_exec, hcmd, hlen]
    · cases hdec : decodePacket s.cmdIn with
      | command i rest => simp [step_of_command hrst hdec, not_stops_exec, hcmd]
      | undefinedCode rest => simp [step_of_undefinedCode hrst hdec, raise_eq, Stops, hcmd]
      | truncated => simp [step_of_truncated hrst hcmd hdec, Stops, hcmd]

/-- No branch of the step looks at the port, and each that ends in a next state writes it anew. -/
theorem step_of_port (s : State) (p : Port) : step { s with port := p } = step s := by
  let u : State := { s with port := p }
  obtain hrst | hrst := Bool.eq_false_or_eq_true s.rst
  · exact (step_of_reset (s := u) hrst).trans (step_of_reset hrst).symm
  · by_cases hcmd : s.cmdIn = []
    · by_cases hlen : s.len < 2
      · exact (step_of_short (s := u) hrst hcmd hlen).trans (step_of_short hrst hcmd hlen).symm
      · obtain ⟨b0, b1, rest, hb⟩ := buf_cons_of_two_le (Nat.not_lt.1 hlen)
        rw [step_of_header hrst hcmd hb]
        exact (step_of_header (s := u) hrst hcmd hb).trans (exec_of_port _ s p)
    · cases hdec : decodePacket s.cmdIn with
      | command i rest =>
        rw [step_of_command hrst hdec]
        exact (step_of_command (s := u) hrst hdec).trans (exec_of_port i (s.withCmdIn rest) p)
      | undefinedCode rest =>
        exact (step_of_undefinedCode (s := u) hrst hdec).trans (step_of_undefinedCode hrst hdec).symm
      | truncated => exact (step_of_truncated (s := u) hrst hcmd hdec).trans (step_of_truncated hrst hcmd hdec).symm

end

/-! ### O12, O2, O10, O11, O18, O19, O58 -/

/-- Settles O12: every instruction ends in a next state, so a step stops only where it has fetched none. -/
theorem stepStopsOnlyWithNothingToRun : Obligations.StepStopsOnlyWithNothingToRun := by
  unfold Obligations.StepStopsOnlyWithNothingToRun
  refine ⟨fun i s => ?_, stops_step_iff⟩
  obtain ⟨m, p, h⟩ := exec_onlyBufferAndPort i s
  exact ⟨_, h⟩

/-- Settles O2: the empty buffer holds no header, so it is neither complete nor valid. -/
theorem resetInputEmptiesTheUnit : Obligations.ResetInputEmptiesTheUnit := by
  unfold Obligations.ResetInputEmptiesTheUnit
  intro s hrst
  exact ⟨s.takeReset, step_of_reset hrst, rfl, rfl, rfl, rfl, rfl, rfl,
    (answers_isComplete_bool_iff _ false).2 rfl, (answers_isValid_bool_iff _ false).2 rfl⟩

/-- Settles O10: the step fetches the command and the state without its bytes. -/
theorem stepRunsTheDecodedCommand : Obligations.StepRunsTheDecodedCommand := by
  unfold Obligations.StepRunsTheDecodedCommand
  exact fun s i rest hrst hdec => step_of_command hrst hdec

/-- Settles O11: with nothing pending the step fetches the form that bytes 0 and 1 select. -/
theorem stepParsesTheHeaderInTheBuffer : Obligations.StepParsesTheHeaderInTheBuffer := by
  unfold Obligations.StepParsesTheHeaderInTheBuffer
  exact fun s b0 b1 rest hrst hcmd hb => step_of_header hrst hcmd hb

/-- Settles O18: neither an instruction nor what is fetched looks at the port. -/
theorem noStepReadsThePort : Obligations.NoStepReadsThePort := by
  unfold Obligations.NoStepReadsThePort
  exact ⟨exec_of_port, step_of_port⟩

/-- Settles O19: an instruction writes the buffer and the port alone. -/
theorem instructionsTouchOnlyBufferAndPort : Obligations.InstructionsTouchOnlyBufferAndPort := by
  unfold Obligations.InstructionsTouchOnlyBufferAndPort
  intro i s t h
  obtain ⟨m, p, hnext⟩ := exec_onlyBufferAndPort i s
  cases hnext.symm.trans h
  exact ⟨rfl, rfl, rfl⟩

/-- Settles O58: the issued packet is all that is pending, and it decodes to the command with no byte left over. -/
theorem issuedCommandRunsNext : Obligations.IssuedCommandRunsNext := by
  unfold Obligations.IssuedCommandRunsNext
  intro s i hrst hcmd hwf hhdr
  have hpending : (s.issue i).cmdIn = encode i ++ [] := by
    rw [State.issue, State.send_cmdIn, hcmd, List.nil_append, List.append_nil]
  have htaken : (s.issue i).withCmdIn [] = s := by
    rw [← hcmd]
    rfl
  have hdec : decodePacket (s.issue i).cmdIn = .command i [] := by rw [hpending, decodePacket_encode hwf hhdr]
  rw [step_of_command (s := s.issue i) hrst hdec, htaken]

end Sys2Proof.Machine
end

section
/-! The invariant (10_state.md R20, R28; 30_encoding.md R76; 60_exceptions.md R188): every instruction leaves a canonical
buffer within the capacity and a legal response, or nothing, on the port. -/

namespace Sys2Proof.Machine

/-! ### Legal responses -/

theorem wf_errorResponse {e : ErrorCode} (h : e ≠ .wrongType) : (errorResponse e).wf = true := by
  simp [Response.wf, errorResponse, h]

theorem wf_of_ok {r : Response} (herr : r.err = .ok) (hnull : r.null = true → r = nullResponse) : r.wf = true := by
  cases hn : r.null with
  | true =>
    rw [hnull hn]
    rfl
  | false => simp [Response.wf, herr, hn]

theorem wf_okResponse : okResponse.wf = true := rfl

theorem wf_nullResponse : nullResponse.wf = true := rfl

theorem wf_outResponse (b : Bytes) : (outResponse b).wf = true := wf_of_ok rfl nofun

theorem wf_valResponse (v : Val) : (valResponse v).wf = true := wf_of_ok rfl nofun

theorem descriptorError_ne_wrongType (d : Descriptor) : descriptorError d ≠ some .wrongType := by
  rw [descriptorError_eq]
  split_ifs <;> simp

/-! ### The frames written are no longer than the capacity test allows -/

section
variable {b : Bytes}

theorem length_rekeyedFrame (hr : headerResident b = true) (hm : maskBit b = true) {key : Bytes}
    (hkey : key.length = 4) : (rekeyedFrame b key).length = b.length := by
  have hlen := (headerResident_iff_payoff b).1 hr
  rw [payoff_of_mask hm] at hlen
  simp only [rekeyedFrame, slice, wirePayload, payoff_of_mask hm, List.length_append, transform_length,
    List.length_take, List.length_drop, hkey]
  omega

theorem length_keyedFrame (hr : headerResident b = true) (hm : maskBit b = false) {key : Bytes}
    (hkey : key.length = 4) : (keyedFrame b key).length = b.length + 4 := by
  have hlen := (headerResident_iff_payoff b).1 hr
  have h2 := two_le_keyoff b
  rw [payoff_of_not_mask hm] at hlen
  simp only [keyedFrame, slice, wirePayload, payoff_of_not_mask hm, List.length_append, transform_length,
    List.length_take, List.length_drop, List.length_cons, List.length_nil, hkey]
  omega

theorem length_unkeyedFrame_le (hr : headerResident b = true) : (unkeyedFrame b).length ≤ b.length := by
  have hlen := (headerResident_iff_payoff b).1 hr
  have h2 := two_le_keyoff b
  have hk := keyoff_le_payoff b
  simp only [unkeyedFrame, slice, wirePayload, List.length_append, transform_length, List.length_take,
    List.length_drop, List.length_cons, List.length_nil]
  omega

/-- At most bytes 0 and 1 and a key. -/
theorem length_unpayloadedFrame_le (b : Bytes) : (unpayloadedFrame b).length ≤ 6 := by
  cases hm : maskBit b with
  | false => simp [unpayloadedFrame, hm]
  | true =>
    simp [unpayloadedFrame, hm, keyBytes, slice, KEYW]
    omega

end

/-! ### Outcomes that keep the invariant -/

/-- If the outcome is a next state, the invariant holds in it. -/
def EndsInInv (o : Out) : Prop := ∀ t, o = .next t → t.Inv

section
variable {s : State}

theorem State.Inv.endsInInv_next {m : Memory} {p : Port} (hs : s.Inv) (hwf : m.wf = true)
    (hfits : fitsBuffer s.cfg m.length = true) (hp : p.wf = true) :
    EndsInInv (.next { s with mem := m, port := p }) := by
  rintro t ⟨⟩
  exact ⟨hwf, hfits, hp, hs.cfg_wf⟩

theorem State.Inv.answer (hs : s.Inv) {r : Response} (hr : r.wf = true) : EndsInInv (answer s r) :=
  hs.endsInInv_next hs.mem_wf hs.fits hr

theorem State.Inv.raise (hs : s.Inv) {e : ErrorCode} (he : e ≠ .wrongType := by decide) : EndsInInv (raise s e) :=
  hs.answer (wf_errorResponse he)

theorem State.Inv.answer_setBuf (hs : s.Inv) {b : Bytes} (hfits : fitsBuffer s.cfg b.length = true) {r : Response}
    (hr : r.wf = true) : EndsInInv (Machine.answer (s.setBuf b) r) :=
  hs.endsInInv_next (m := Memory.ofBytes b) (Memory.wf_ofBytes b) (by rwa [Memory.length_ofBytes]) hr

theorem State.Inv.replaceBuffer (hs : s.Inv) (b : Bytes) : EndsInInv (replaceBuffer s b okResponse) := by
  cases hfits : fitsBuffer s.cfg b.length with
  | false =>
    rw [replaceBuffer_of_not_fits hfits]
    exact hs.raise
  | true =>
    rw [replaceBuffer_of_fits hfits]
    exact hs.answer_setBuf hfits wf_okResponse

theorem endsInInv_ite {c : Prop} [Decidable c] {a b : Out} (ha : EndsInInv a) (hb : EndsInInv b) :
    EndsInInv (if c then a else b) := by
  by_cases hc : c
  · rwa [if_pos hc]
  · rwa [if_neg hc]

/-- A test that ends in an error where it fails; what follows it may use that it held. -/
theorem State.Inv.test (hs : s.Inv) {c : Bool} {e : ErrorCode} {o : Out} (ho : c = true → EndsInInv o)
    (he : e ≠ .wrongType := by decide) : EndsInInv (if !c then Machine.raise s e else o) := by
  cases c with
  | false => exact hs.raise he
  | true => exact ho rfl

/-! ### The commands -/

theorem State.Inv.setField (hs : s.Inv) (ok : Byte → Bool) (pos w : Nat) (arg : Byte) :
    EndsInInv (setField ok pos w arg s) := by
  refine hs.test fun _ => hs.test fun _ => hs.endsInInv_next (p := .response okResponse) ?_ ?_ rfl
  · exact (wf_setBits s 0 pos w arg).trans hs.mem_wf
  · have hlen : (s.setBits 0 pos w arg).mem.length = s.len := len_setBits s 0 pos w arg
    rw [hlen]
    exact hs.fits

theorem State.Inv.execBuild (hs : s.Inv) (d : Descriptor) : EndsInInv (execBuild d s) := by
  cases hd : descriptorError d with
  | some e =>
    rw [execBuild_of_error hd]
    exact hs.raise fun he => descriptorError_ne_wrongType d (he ▸ hd)
  | none =>
    rw [execBuild_of_valid hd]
    exact hs.replaceBuffer _

theorem State.Inv.execSetKey (hs : s.Inv) (key : Bytes) : EndsInInv (execSetKey key s) := by
  refine hs.test fun hkey => hs.test fun hr => ?_
  rw [keyValid_iff] at hkey
  cases hm : maskBit s.buf with
  | true =>
    refine hs.answer_setBuf ?_ wf_okResponse
    rw [length_rekeyedFrame hr hm hkey, State.length_buf]
    exact hs.fits
  | false =>
    refine hs.test fun hfits => hs.answer_setBuf ?_ wf_okResponse
    rwa [length_keyedFrame hr hm hkey, State.length_buf]

/-- A command that may grow the buffer tests the capacity; the others write no longer a frame than the old one, or, for
`REMOVE_PAYLOAD`, one that every unit holds (R4). -/
theorem State.Inv.exec (hs : s.Inv) (i : Instr) : EndsInInv (exec i s) := by
  have hbuf : fitsBuffer s.cfg s.buf.length = true := by
    rw [State.length_buf]
    exact hs.fits
  cases i with
  | load data => exact hs.test fun _ => hs.replaceBuffer data
  | build d => exact hs.execBuild d
  | append data => exact hs.replaceBuffer (s.buf ++ data)
  | getFin | getRsv1 | getRsv2 | getRsv3 | getOpcode | getMask | getLen7 | getExtw | getKeyoff | getPayoff
  | getResident | getPaylen => exact hs.test fun _ => hs.answer (wf_valResponse _)
  | getKey =>
    exact hs.test fun _ => endsInInv_ite (hs.answer wf_nullResponse) <|
      hs.test fun _ => hs.answer (wf_outResponse _)
  | getPayload =>
    exact hs.test fun _ => endsInInv_ite (hs.answer wf_nullResponse) (hs.answer (wf_outResponse _))
  | isComplete | isValid => exact hs.answer (wf_valResponse _)
  | setFin arg | setRsv1 arg | setRsv2 arg | setRsv3 arg | setOpcode arg => exact hs.setField _ _ _ arg
  | setKey key => exact hs.execSetKey key
  | removeKey =>
    exact hs.test fun _ => endsInInv_ite (hs.answer wf_nullResponse) <| hs.test fun hr =>
      hs.answer_setBuf (fitsBuffer_mono hbuf (length_unkeyedFrame_le hr)) (wf_outResponse _)
  | setPayload data => exact hs.test fun _ => hs.replaceBuffer _
  | removePayload =>
    have hsize : (unpayloadedFrame s.buf).length ≤ 14 := (length_unpayloadedFrame_le _).trans (by decide)
    exact hs.test fun _ => endsInInv_ite (hs.answer wf_nullResponse)
      (hs.answer_setBuf (fitsBuffer_header hs.cfg_wf hsize) (wf_outResponse _))
  | xform key data => exact hs.test fun _ => hs.answer (wf_outResponse _)
  | hdrL7U | hdrL7M | hdrL16U | hdrL16M | hdrL64U | hdrL64M => exact hs.endsInInv_next hs.mem_wf hs.fits rfl

/-- Bytes taken from the channel are no part of the invariant. -/
theorem State.Inv.withCmdIn (hs : s.Inv) (rest : Bytes) : (s.withCmdIn rest).Inv :=
  ⟨hs.mem_wf, hs.fits, hs.port_wf, hs.cfg_wf⟩

end

/-! ### O13, O14 -/

/-- Settles O13: every next state is that of an instruction or an error on the same buffer, a silent one, or the empty
unit of a reset, which any capacity holds. -/
theorem stepKeepsInvariant : Obligations.StepKeepsInvariant := by
  unfold Obligations.StepKeepsInvariant
  intro s t hs h
  obtain rfl | rfl | ⟨i, rest, hexec⟩ | ⟨rest, hraise⟩ := step_next_cases h
  · exact ⟨rfl, fitsBuffer_mono hs.fits (Nat.zero_le _), rfl, hs.cfg_wf⟩
  · exact ⟨hs.mem_wf, hs.fits, rfl, hs.cfg_wf⟩
  · exact (hs.withCmdIn rest).exec i t hexec
  · exact (hs.withCmdIn rest).raise (e := .illegalCommand) (by decide) t hraise

/-- Settles O14: the buffer is empty, the port idle, the capacity unbounded. -/
theorem resetMeetsInvariant : Obligations.ResetMeetsInvariant := by
  unfold Obligations.ResetMeetsInvariant
  exact ⟨rfl, rfl, rfl, rfl⟩

end Sys2Proof.Machine
end

section
/-! The parser's outputs (30_encoding.md R61-R65, 40_layout_engine.md R90-R102): one layout for all six forms, written
with the parser functions, and the read commands that answer it. -/

namespace Sys2Proof.Machine

/-! ### One layout for the six forms -/

/-- The declared length by a width that is `extw()` (R96). -/
theorem declaredLength_extw {b : Bytes} (h2 : 2 ≤ b.length) {lit : BitVec 7} (hlit : lit.toNat = len7 b) :
    declaredLength lit (extw b) b = if lenFieldResident b then some (payloadLength b) else none := by
  have hready : lenFieldResident b = true ↔ 2 + extw b ≤ b.length := by
    rw [lenFieldResident_iff]
    omega
  simp only [hready]
  obtain ⟨hl, he⟩ | ⟨hl, he⟩ | ⟨hl, he⟩ := extw_cases b
  · simp [declaredLength, he, h2, hlit, payloadLength_of_literal hl]
  · simp [declaredLength, he, payloadLength, hl, LIT_MAX, ESC16]
  · simp [declaredLength, he, payloadLength, hl, LIT_MAX, ESC16]

/-- The parser functions as one layout: what R61's rows have in common. -/
def bufferLayout (b : Bytes) : Layout :=
  { byte0    := decodeByte0 (byteAt b 0)
    mask     := (byteAt b 1).extractLsb' 7 1
    len7     := (byteAt b 1).extractLsb' 0 7
    extw     := extw b
    keyoff   := keyoff b
    payoff   := payoff b
    paylen   := if lenFieldResident b then some (payloadLength b) else none
    resident := if headerResident b then some (resident b) else none }

/-- A row of R61 whose mask bit, width and size are those of the buffer. -/
theorem formLayout_eq {b0 b1 : Byte} {rest : Bytes} {lit : BitVec 7} {mask : BitVec 1} {width size : Nat}
    (hlit : b1.extractLsb' 0 7 = lit) (hmask : b1.extractLsb' 7 1 = mask) (hwidth : extw (b0 :: b1 :: rest) = width)
    (hsize : payoff (b0 :: b1 :: rest) = size) :
    formLayout (decodeByte0 b0) lit mask width size (b0 :: b1 :: rest) = bufferLayout (b0 :: b1 :: rest) := by
  subst hlit hmask hwidth hsize
  have hpaylen := declaredLength_extw (b := b0 :: b1 :: rest) (by simp) (len7_eq_extractLsb' b0 b1 rest).symm
  simp only [formLayout, bufferLayout, hpaylen, headerResident_iff_payoff, byteAt_cons_zero, byteAt_cons_one, keyoff,
    resident]

/-- The header size of a row, from the widths of its extended length and its key. -/
theorem payoff_of_widths {b0 b1 : Byte} {rest : Bytes} {n k : Nat} (hn : extw (b0 :: b1 :: rest) = n)
    (hk : (if b1 &&& M_MASK = 0#8 then 0 else 4) = k) : payoff (b0 :: b1 :: rest) = 2 + n + k := by
  rw [payoff_cons, keyoff, hn, hk]

/-- The mask bit of byte 1 is bit 7 (R60). -/
theorem extractLsb'_seven (b1 : Byte) : b1.extractLsb' 7 1 = if b1 &&& M_MASK = 0#8 then 0#1 else 1#1 := by
  revert b1
  decide

/-- The four escape values of byte 1 fix the whole row; for the others `len7` is literal and the mask bit decides. -/
theorem parserOutputs_cons_eq (b0 b1 : Byte) (rest : Bytes) :
    parserOutputs (b0 :: b1 :: rest) = some (bufferLayout (b0 :: b1 :: rest)) := by
  rw [parserOutputs_cons]
  by_cases hlit : (b1.extractLsb' 0 7).toNat ≤ 125
  · have hwidth := extw_of_literal hlit b0 rest
    rw [decodeHeader_of_literal hlit]
    by_cases hm : b1 &&& M_MASK = 0#8
    · have hsize := payoff_of_widths hwidth (if_pos hm)
      rw [if_pos hm]
      exact congrArg some (formLayout_eq rfl ((extractLsb'_seven b1).trans (if_pos hm)) hwidth hsize)
    · have hsize := payoff_of_widths hwidth (if_neg hm)
      rw [if_neg hm]
      exact congrArg some (formLayout_eq rfl ((extractLsb'_seven b1).trans (if_neg hm)) hwidth hsize)
  · rw [literal_iff_not_escape, not_not] at hlit
    obtain rfl | rfl | rfl | rfl := hlit
    · have hwidth := extw_of_len7_eq_126 (len7_cons b0 0x7E#8 rest)
      exact congrArg some (formLayout_eq rfl rfl hwidth (payoff_of_widths hwidth rfl))
    · have hwidth := extw_of_len7_eq_126 (len7_cons b0 0xFE#8 rest)
      exact congrArg some (formLayout_eq rfl rfl hwidth (payoff_of_widths hwidth rfl))
    · have hwidth := extw_of_len7_eq_127 (len7_cons b0 0x7F#8 rest)
      exact congrArg some (formLayout_eq rfl rfl hwidth (payoff_of_widths hwidth rfl))
    · have hwidth := extw_of_len7_eq_127 (len7_cons b0 0xFF#8 rest)
      exact congrArg some (formLayout_eq rfl rfl hwidth (payoff_of_widths hwidth rfl))

theorem parserOutputs_of_two_le {b : Bytes} (h : 2 ≤ b.length) : parserOutputs b = some (bufferLayout b) := by
  rw [cons_cons_of_two_le h]
  exact parserOutputs_cons_eq _ _ _

theorem parserOutputs_of_short {b : Bytes} (h : b.length < 2) : parserOutputs b = none := by
  match b, h with
  | [], _ => rfl
  | [_], _ => rfl

/-- There are outputs exactly when both header bytes are there, and they are those of the parser functions. -/
theorem parserOutputs_eq_some_iff (b : Bytes) (l : Layout) :
    parserOutputs b = some l ↔ 2 ≤ b.length ∧ bufferLayout b = l := by
  by_cases h : 2 ≤ b.length
  · simp [parserOutputs_of_two_le h, h]
  · simp [parserOutputs_of_short (Nat.not_le.1 h), h]

theorem extractLsb'_seven_eq_one_iff (b1 : Byte) : b1.extractLsb' 7 1 = 1#1 ↔ b1 >>> 7 = 1#8 := by
  revert b1
  decide

theorem extractLsb'_zero_seven (b1 : Byte) : (b1.extractLsb' 0 7).toNat = (b1 &&& M_LEN7).toNat := by
  revert b1
  decide

theorem bufferLayout_mask_iff (b : Bytes) : (bufferLayout b).mask = 1#1 ↔ maskBit b = true := by
  rw [maskBit, beq_iff_eq]
  exact extractLsb'_seven_eq_one_iff _

theorem bufferLayout_wf (b : Bytes) : (bufferLayout b).wf = true := by
  have hwidth : extw b = 0 ∨ extw b = 2 ∨ extw b = 8 := by
    have := extw_cases b
    omega
  have hsize : payoff b = keyoff b + 4 * (bufferLayout b).mask.toNat := by
    cases hm : maskBit b with
    | true => rw [(bufferLayout_mask_iff b).2 hm, payoff_of_mask hm]; rfl
    | false =>
      have h0 := (BitVec.eq_zero_or_eq_one (bufferLayout b).mask).resolve_right
        fun h1 => Bool.false_ne_true (hm.symm.trans ((bufferLayout_mask_iff b).1 h1))
      rw [h0, payoff_of_not_mask hm]
      rfl
  simp only [Layout.wf, Bool.and_eq_true, Bool.or_eq_true, beq_iff_eq]
  exact ⟨⟨or_assoc.2 hwidth, rfl⟩, hsize⟩

/-! ### The fields of byte 0 as outputs -/

/-- A getter's `val`, as the field the parser decodes (R60, R135). -/
theorem getBits_byte0 (b : Bytes) :
    getBits b 0 7 1 = (decodeByte0 (byteAt b 0)).fin.setWidth 8 ∧
    getBits b 0 6 1 = (decodeByte0 (byteAt b 0)).rsv1.setWidth 8 ∧
    getBits b 0 5 1 = (decodeByte0 (byteAt b 0)).rsv2.setWidth 8 ∧
    getBits b 0 4 1 = (decodeByte0 (byteAt b 0)).rsv3.setWidth 8 ∧
    getBits b 0 0 4 = (decodeByte0 (byteAt b 0)).opcode.setWidth 8 := by
  simp only [getBits]
  generalize byteAt b 0 = b0
  revert b0
  decide

theorem getBits_mask_eq (b : Bytes) : getBits b 1 7 1 = ((byteAt b 1).extractLsb' 7 1).setWidth 8 := by
  simp only [getBits]
  generalize byteAt b 1 = b1
  revert b1
  decide

/-- A field read as `val` passes through a byte. -/
theorem valOfByte_setWidth {w : Nat} (hw : w ≤ 8) (x : BitVec w) : valOfByte (x.setWidth 8) = x.setWidth 64 := by
  apply BitVec.eq_of_toNat_eq
  rw [valOfByte, BitVec.toNat_setWidth_of_le (by decide), BitVec.toNat_setWidth_of_le hw,
    BitVec.toNat_setWidth_of_le (by omega)]

/-! ### Counts -/

theorem memRead_lt (b : Bytes) (off n : Nat) : memRead b off n < 256 ^ n := by
  have hlen : (slice b off (off + n)).length ≤ n := by
    simp only [slice, List.length_take, Nat.add_sub_cancel_left]
    exact min_le_left _ _
  exact (ube_lt _).trans_le (Nat.pow_le_pow_right (by decide) hlen)

/-- A declared length always fits `val` (R96). -/
theorem payloadLength_lt (b : Bytes) : payloadLength b < 2 ^ 64 := by
  have hlit := len7_lt b
  have h2 := memRead_lt b 2 2
  have h8 := memRead_lt b 2 8
  simp only [payloadLength]
  split_ifs
  · omega
  · omega
  · omega

/-- A read whose predicate holds answers the count, whatever its size. -/
theorem readParser_of_ready_of_count {s : State} {ready : Bytes → Bool} (h : ready s.buf = true) (f : Bytes → Nat) :
    readParser ready f s = answer s (valResponse (valOfCount (f s.buf))) := by
  simp [readParser, h]

/-! ### O27, O60, O24, O26 -/

/-- Settles O27: the outputs of every header are the one layout of the parser functions. -/
theorem headerFormsAgreeWithTheParserFunctions : Obligations.HeaderFormsAgreeWithTheParserFunctions := by
  unfold Obligations.HeaderFormsAgreeWithTheParserFunctions
  exact fun b => ⟨parserOutputs_of_short, fun h2 => ⟨bufferLayout b, parserOutputs_of_two_le h2, bufferLayout_wf b,
    encodeByte0_decodeByte0 _, encodeByte1_extractLsb' _, extractLsb'_zero_seven _, rfl, rfl, rfl,
    bufferLayout_mask_iff b, rfl, rfl⟩⟩

/-- Settles O60: each command's value is its entry of the layout, and the predicate that lets it answer is the one that
puts the entry there. -/
theorem commandsReportTheParsersOutputs : Obligations.CommandsReportTheParsersOutputs := by
  unfold Obligations.CommandsReportTheParsersOutputs
  intro s l hl tells
  obtain ⟨hlen, rfl⟩ := (parserOutputs_eq_some_iff _ _).1 hl
  have h2 : have2 s.buf = true := (have2_iff _).2 hlen
  have hlt : len7 s.buf < 128 := len7_lt s.buf
  have hsize : payoff s.buf ≤ 14 := payoff_le s.buf
  have hkey : keyoff s.buf ≤ payoff s.buf := keyoff_le_payoff s.buf
  have hext : keyoff s.buf = 2 + extw s.buf := rfl
  obtain ⟨hfin, hrsv1, hrsv2, hrsv3, hopcode⟩ := getBits_byte0 s.buf
  have getter {off pos w n : Nat} {x : BitVec n} (hn : n ≤ 8) (hx : getBits s.buf off pos w = x.setWidth 8) :
      getField off pos w s = answer s (valResponse (x.setWidth 64)) := by
    rw [getField_of_have2 h2, hx, valOfByte_setWidth hn]
  have hlen7 : len7 s.buf = ((bufferLayout s.buf).len7.setWidth 64).toNat := by
    rw [BitVec.toNat_setWidth_of_le (by decide)]
    exact (extractLsb'_zero_seven _).symm
  have reader {f : Bytes → Nat} (hf : f s.buf < 2 ^ 64) := readParser_of_ready_of_lt (f := f) h2 rfl hf
  refine ⟨getter (by decide) hfin, getter (by decide) hrsv1, getter (by decide) hrsv2, getter (by decide) hrsv3,
    getter (by decide) hopcode, getter (by decide) (getBits_mask_eq _), readParser_of_ready h2 hlen7,
    reader (by omega), reader (by omega), reader (by omega), fun n hn => ?_, fun hnone => ?_, fun n hn hn64 => ?_,
    fun hnone => ?_⟩
  · obtain ⟨hready, ⟨⟩⟩ := Option.ite_none_right_eq_some.1 hn
    exact readParser_of_ready_of_lt hready rfl (payloadLength_lt _)
  · exact readParser_of_not_ready (by simpa [bufferLayout] using hnone) _
  · obtain ⟨hready, ⟨⟩⟩ := Option.ite_none_right_eq_some.1 hn
    exact readParser_of_ready_of_lt hready rfl hn64
  · exact readParser_of_not_ready (by simpa [bufferLayout] using hnone) _

/-- Settles O24: the header is resident, and the answer is the free value of the count. -/
theorem wideResidentCountCompletes : Obligations.WideResidentCountCompletes := by
  unfold Obligations.WideResidentCountCompletes
  intro s h2 hwide
  have hr : headerResident s.buf = true := (headerResident_eq_true_iff_len s).2 ⟨h2, by omega⟩
  exact ⟨_, readParser_of_ready_of_count hr resident⟩

/-- Settles O26: each form's row is `formLayout` at the row's constants. -/
theorem headerFormsGiveTheLayout : Obligations.HeaderFormsGiveTheLayout := by
  unfold Obligations.HeaderFormsGiveTheLayout
  intro s h lit
  simp only [← State.length_buf]
  exact ⟨⟨rfl, rfl⟩, ⟨rfl, rfl⟩, ⟨rfl, rfl⟩, ⟨rfl, rfl⟩, ⟨rfl, rfl⟩, ⟨rfl, rfl⟩⟩

end Sys2Proof.Machine
end

section
/-! Writes into the buffer (20_memory.md R53) and the setters' frame (43_field_accessors.md R135, R142-R146): a field
just set reads back, the other fields, the parser functions and all offsets but 0 are as before. -/

namespace Sys2Proof.Machine

/-! ### The bits of a field (R135) -/

theorem getLsbD_fieldMask (w i : Nat) : (fieldMask w).getLsbD i = (decide (i < 8) && decide (i < w)) := by
  rw [fieldMask, BitVec.getLsbD_ofNat, Nat.testBit_two_pow_sub_one]

theorem getLsbD_eq_false_of_lt {v : Byte} {w i : Nat} (hv : v.toNat < 2 ^ w) (hi : w ≤ i) : v.getLsbD i = false :=
  Nat.testBit_lt_two_pow (hv.trans_le (Nat.pow_le_pow_right (by decide) hi))

/-- Bit `i` of a field read is bit `pos + i` of the byte. -/
theorem getLsbD_field (b : Byte) (pos w i : Nat) :
    (b >>> pos &&& fieldMask w).getLsbD i = (b.getLsbD (pos + i) && decide (i < w)) := by
  rw [BitVec.getLsbD_and, BitVec.getLsbD_ushiftRight, getLsbD_fieldMask]
  by_cases hi : i < 8
  · simp [hi]
  · simp [BitVec.getLsbD_of_ge b (pos + i) (by omega)]

/-- A rewritten byte has the new value's bits inside the field and its old bits outside it. -/
theorem getLsbD_withField {v : Byte} {pos w i : Nat} (hv : v.toNat < 2 ^ w) (hi : i < 8) (old : Byte) :
    (withField old pos w v).getLsbD i =
      if pos ≤ i ∧ i < pos + w then v.getLsbD (i - pos) else old.getLsbD i := by
  rw [withField, BitVec.getLsbD_or, BitVec.getLsbD_and, BitVec.getLsbD_not, BitVec.getLsbD_shiftLeft,
    BitVec.getLsbD_shiftLeft, getLsbD_fieldMask]
  by_cases hlo : pos ≤ i
  · have h8 : i - pos < 8 := by omega
    by_cases hhi : i < pos + w
    · have hw : i - pos < w := by omega
      simp [hi, hlo, hhi, h8, hw, Nat.not_lt.2 hlo]
    · have hw : w ≤ i - pos := by omega
      simp [hi, hhi, Nat.not_lt.2 hlo, Nat.not_lt.2 hw, getLsbD_eq_false_of_lt hv hw]
  · simp [hi, hlo, Nat.not_le.1 hlo]

/-- A field just written reads back. -/
theorem field_withField_same {v : Byte} {pos w : Nat} (hv : v.toNat < 2 ^ w) (hpos : pos + w ≤ 8) (old : Byte) :
    withField old pos w v >>> pos &&& fieldMask w = v := by
  apply BitVec.eq_of_getLsbD_eq
  intro i hi
  rw [getLsbD_field]
  by_cases hw : i < w
  · rw [getLsbD_withField hv (by omega)]
    simp [hw]
  · simp [hw, getLsbD_eq_false_of_lt hv (Nat.not_lt.1 hw)]

/-- A field apart from the one written reads as before. -/
theorem field_withField_apart {v : Byte} {pos w pos' w' : Nat} (hv : v.toNat < 2 ^ w) (hpos : pos' + w' ≤ 8)
    (hapart : pos + w ≤ pos' ∨ pos' + w' ≤ pos) (old : Byte) :
    withField old pos w v >>> pos' &&& fieldMask w' = old >>> pos' &&& fieldMask w' := by
  apply BitVec.eq_of_getLsbD_eq
  intro i hi
  rw [getLsbD_field, getLsbD_field]
  by_cases hw : i < w'
  · rw [getLsbD_withField hv (by omega), if_neg (by omega)]
  · simp [hw]

/-! ### Buffers that differ in byte 0 alone -/

/-- `n` is `b` but for its byte 0. -/
structure SameButByteZero (b n : Bytes) : Prop where
  length : n.length = b.length
  tail   : n.drop 1 = b.drop 1

theorem SameButByteZero.refl (b : Bytes) : SameButByteZero b b := ⟨rfl, rfl⟩

section
variable {b n : Bytes}

theorem SameButByteZero.getElem? (h : SameButByteZero b n) {a : Nat} (ha : a ≠ 0) : n[a]? = b[a]? := by
  obtain ⟨k, rfl⟩ := Nat.exists_eq_succ_of_ne_zero ha
  have htail := congrArg (·[k]?) h.tail
  simpa [List.getElem?_drop, Nat.add_comm 1] using htail

theorem SameButByteZero.byteAt (h : SameButByteZero b n) {a : Nat} (ha : a ≠ 0) : byteAt n a = byteAt b a := by
  rw [Machine.byteAt, Machine.byteAt, List.getD_eq_getElem?_getD, List.getD_eq_getElem?_getD, h.getElem? ha]

theorem SameButByteZero.slice (h : SameButByteZero b n) {lo : Nat} (hlo : lo ≠ 0) (hi : Nat) :
    slice n lo hi = slice b lo hi := by
  obtain ⟨k, rfl⟩ := Nat.exists_eq_succ_of_ne_zero hlo
  have htail := congrArg (List.drop k) h.tail
  rw [List.drop_drop, List.drop_drop, Nat.add_comm 1] at htail
  rw [Machine.slice, Machine.slice, htail]

theorem SameButByteZero.payloadLength (h : SameButByteZero b n) : payloadLength n = payloadLength b := by
  obtain ⟨-, -, hkeyoff, -⟩ := parser_congr (h.byteAt one_ne_zero)
  exact payloadLength_congr (h.byteAt one_ne_zero) (by rw [hkeyoff, h.slice two_ne_zero])

theorem SameButByteZero.resident (h : SameButByteZero b n) : resident n = resident b := by
  obtain ⟨-, -, -, -, hpayoff⟩ := parser_congr (h.byteAt one_ne_zero)
  rw [Machine.resident, Machine.resident, h.length, hpayoff]

theorem SameButByteZero.headerResident (h : SameButByteZero b n) : headerResident n = headerResident b := by
  obtain ⟨-, -, -, -, hpayoff⟩ := parser_congr (h.byteAt one_ne_zero)
  rw [Bool.eq_iff_iff, headerResident_iff_payoff, headerResident_iff_payoff, h.length, hpayoff]

theorem SameButByteZero.frameComplete (h : SameButByteZero b n) : frameComplete n = frameComplete b := by
  rw [Bool.eq_iff_iff, frameComplete_iff, frameComplete_iff, h.headerResident, h.payloadLength, h.resident]

/-- Under the default strictness no value of byte 0 counts (R180). -/
theorem SameButByteZero.frameValid (h : SameButByteZero b n) {c : Config} (hc : c.rejects = []) :
    frameValid c n = frameValid c b := by
  rw [Bool.eq_iff_iff, frameValid_iff, frameValid_iff, h.headerResident, h.payloadLength, h.resident,
    protocolLegal_of_no_rejects hc, protocolLegal_of_no_rejects hc]

end

/-! ### The setters -/

section
variable {s t : State} {ok : Byte → Bool} {pos w : Nat} {arg : Byte}

theorem setField_of_ok (hok : ok arg = true) (h2 : have2 s.buf = true) :
    setField ok pos w arg s = answer (s.setBits 0 pos w arg) okResponse := by
  simp [setField, hok, h2]

/-- What a setter makes of a canonical buffer that holds a header. -/
theorem buf_setBits_zero (hwf : s.mem.wf = true) (hlen : 2 ≤ s.len) :
    (s.setBits 0 pos w arg).buf = withField (byteAt s.buf 0) pos w arg :: s.buf.drop 1 := by
  obtain ⟨b0, b1, rest, hb⟩ := buf_cons_of_two_le hlen
  rw [setBits_zero_eq hwf hb, State.buf_setBuf, hb]
  rfl

/-- A setter whose operand and header pass replaces byte 0 with the field rewritten. -/
theorem setField_completes (hwf : s.mem.wf = true) (hlen : 2 ≤ s.len) (hok : ok arg = true) :
    ∃ t, setField ok pos w arg s = .next t ∧ t.cfg = s.cfg ∧ t.mem.wf = true ∧
      byteAt t.buf 0 = withField (byteAt s.buf 0) pos w arg ∧ SameButByteZero s.buf t.buf := by
  have h2 : have2 s.buf = true := (have2_eq_len s).trans (decide_eq_true hlen)
  have hbuf := buf_setBits_zero (pos := pos) (w := w) (arg := arg) hwf hlen
  refine ⟨_, setField_of_ok hok h2, rfl, (wf_setBits s 0 pos w arg).trans hwf, ?_, ?_, ?_⟩
  · rw [State.respond_buf, hbuf, byteAt_cons_zero]
  · rw [State.respond_buf, State.length_buf, State.length_buf, len_setBits]
  · rw [State.respond_buf, hbuf, List.drop_one, List.tail_cons]

/-- However a setter ends, the buffer is canonical and as before but for byte 0. -/
theorem setField_sameButByteZero (hwf : s.mem.wf = true) (h : setField ok pos w arg s = .next t) :
    t.cfg = s.cfg ∧ t.mem.wf = true ∧ SameButByteZero s.buf t.buf := by
  cases hok : ok arg with
  | false =>
    cases (setField_of_not_ok hok pos w s).symm.trans h
    exact ⟨rfl, hwf, .refl _⟩
  | true =>
    by_cases hlen : 2 ≤ s.len
    · obtain ⟨u, hu, hcfg, hwf', -, hsame⟩ := setField_completes hwf hlen hok
      cases hu.symm.trans h
      exact ⟨hcfg, hwf', hsame⟩
    · have h2 : have2 s.buf = false := have2_eq_false_of_short (Nat.not_le.1 hlen)
      cases (setField_of_not_have2 h2 hok pos w).symm.trans h
      exact ⟨rfl, hwf, .refl _⟩

/-- What every setter keeps (R135, R180). -/
theorem setField_frame (hwf : s.mem.wf = true) (h : setField ok pos w arg s = .next t) :
    t.len = s.len ∧ (∀ a, a ≠ 0 → t.mem.read a = s.mem.read a) ∧
      len7 t.buf = len7 s.buf ∧ extw t.buf = extw s.buf ∧ keyoff t.buf = keyoff s.buf ∧
      payoff t.buf = payoff s.buf ∧ maskBit t.buf = maskBit s.buf ∧ resident t.buf = resident s.buf ∧
      payloadLength t.buf = payloadLength s.buf ∧ frameComplete t.buf = frameComplete s.buf ∧
      (s.cfg.rejects = [] → frameValid t.cfg t.buf = frameValid s.cfg s.buf) := by
  obtain ⟨hcfg, hwf', hsame⟩ := setField_sameButByteZero hwf h
  obtain ⟨hlen7, hextw, hkeyoff, hmask, hpayoff⟩ := parser_congr (hsame.byteAt one_ne_zero)
  refine ⟨?_, fun a ha => ?_, hlen7, hextw, hkeyoff, hpayoff, hmask, hsame.resident, hsame.payloadLength,
    hsame.frameComplete, fun hdefault => ?_⟩
  · rw [← State.length_buf, ← State.length_buf, hsame.length]
  · rw [Memory.eq_ofBytes_of_wf hwf, Memory.eq_ofBytes_of_wf hwf', Memory.read_ofBytes, Memory.read_ofBytes]
    exact hsame.getElem? ha
  · rw [hcfg, hsame.frameValid hdefault]

end

/-! ### The fields the getters read -/

/-- Where a field lies: the offset of its byte, the position of its lowest bit, its width (R136-R141). -/
structure HeaderField where
  off   : Nat
  pos   : Nat
  width : Nat

/-- The six field getters. -/
def fieldGetters : List Instr := [.getFin, .getRsv1, .getRsv2, .getRsv3, .getOpcode, .getMask]

/-- The field a getter reads; of no use for other instructions. -/
def fieldOf : Instr → HeaderField
  | .getFin  => ⟨0, 7, 1⟩
  | .getRsv1 => ⟨0, 6, 1⟩
  | .getRsv2 => ⟨0, 5, 1⟩
  | .getRsv3 => ⟨0, 4, 1⟩
  | .getMask => ⟨1, 7, 1⟩
  | _        => ⟨0, 0, 4⟩

/-- The two fields share no bit. -/
abbrev HeaderField.Apart (f f' : HeaderField) : Prop :=
  f.off ≠ f'.off ∨ f.pos + f.width ≤ f'.pos ∨ f'.pos + f'.width ≤ f.pos

theorem fieldOf_apart : ∀ g ∈ fieldGetters, ∀ g' ∈ fieldGetters, g' ≠ g → (fieldOf g).Apart (fieldOf g') := by
  decide

theorem fieldOf_within_byte : ∀ g ∈ fieldGetters, (fieldOf g).pos + (fieldOf g).width ≤ 8 := by
  decide

theorem exec_fieldGetter (s : State) :
    ∀ g ∈ fieldGetters, exec g s = getField (fieldOf g).off (fieldOf g).pos (fieldOf g).width s := by
  simp only [fieldGetters, List.forall_mem_cons]
  exact ⟨rfl, rfl, rfl, rfl, rfl, rfl, List.forall_mem_nil _⟩

theorem answers_fieldGetter_iff {s : State} (h2 : have2 s.buf = true) {g : Instr} (hg : g ∈ fieldGetters)
    (r : Response) :
    Answers g s r ↔
      r = valResponse (valOfByte (getBits s.buf (fieldOf g).off (fieldOf g).pos (fieldOf g).width)) :=
  answers_iff_of_exec_eq ((exec_fieldGetter s g hg).trans (getField_of_have2 h2 _ _ _)) r

/-- A setter of the field the getter `g` reads, on a canonical buffer with a header and an operand within the field. -/
theorem setter_reads_back {s : State} {i g : Instr} {ok : Byte → Bool} {arg : Byte} (hwf : s.mem.wf = true)
    (hlen : 2 ≤ s.len) (hg : g ∈ fieldGetters) (hoff : (fieldOf g).off = 0)
    (hi : exec i s = setField ok (fieldOf g).pos (fieldOf g).width arg s) (hok : ok arg = true)
    (harg : arg.toNat < 2 ^ (fieldOf g).width) :
    ∃ t, exec i s = .next t ∧
      Answers g t { err := .ok, null := false, val := arg.setWidth 64, out := [] } ∧
      ∀ g' ∈ fieldGetters, g' ≠ g → ∀ r, Answers g' s r → Answers g' t r := by
  have h2 : have2 s.buf = true := (have2_eq_len s).trans (decide_eq_true hlen)
  obtain ⟨t, hexec, -, -, hbyte0, hsame⟩ := setField_completes hwf hlen hok
  have h2' : have2 t.buf = true := by rwa [have2_iff, hsame.length, ← have2_iff]
  refine ⟨t, hi.trans hexec, (answers_fieldGetter_iff h2' hg _).2 ?_, fun g' hg' hne r hr => ?_⟩
  · rw [hoff, getBits, hbyte0, field_withField_same harg (fieldOf_within_byte g hg)]
    rfl
  · rw [answers_fieldGetter_iff h2 hg'] at hr
    rw [answers_fieldGetter_iff h2' hg', hr, getBits, getBits]
    by_cases hoff' : (fieldOf g').off = 0
    · have hapart := (fieldOf_apart g hg g' hg' hne).resolve_left (not_not.2 (hoff.trans hoff'.symm))
      rw [hoff', hbyte0, field_withField_apart harg (fieldOf_within_byte g' hg') hapart]
    · rw [hsame.byteAt hoff']

/-! ### O42, O40, O41 -/

/-- Settles O42: on a canonical buffer a write replaces the bytes at its offsets, and `BE` and `UBE` undo each other. -/
theorem readAfterWriteOfTheBuffer : Obligations.ReadAfterWriteOfTheBuffer := by
  unfold Obligations.ReadAfterWriteOfTheBuffer
  intro s off n v hwf hoff hv t
  have hbuf : t.buf = s.buf.take off ++ be n v ++ s.buf.drop (off + n) := by
    rw [← State.buf_setBuf s (s.buf.take off ++ be n v ++ s.buf.drop (off + n)), ← State.memWrite_eq hwf v hoff]
  have hfront : off = (s.buf.take off).length := by
    rw [List.length_take, State.length_buf]
    omega
  refine ⟨(Memory.wf_writeBytes _ _ _).trans hwf, Memory.length_writeBytes _ _ _, ?_, hbuf, fun a ha => ?_⟩
  · have hslice : slice t.buf off (off + n) = be n v :=
      slice_eq_middle hbuf hfront (by rw [be_length, ← hfront])
    rw [memRead, hslice, ube_be (by rwa [pow_mul] at hv)]
  · exact Memory.read_writeBytes_outside _ _ (by rwa [be_length])

/-- Settles O40: each setter is `setField`, which changes byte 0 at most. -/
theorem fieldSettersTouchByteZeroOnly : Obligations.FieldSettersTouchByteZeroOnly := by
  unfold Obligations.FieldSettersTouchByteZeroOnly
  intro s t arg hwf
  simp only [List.forall_mem_cons]
  exact ⟨setField_frame hwf, setField_frame hwf, setField_frame hwf, setField_frame hwf, setField_frame hwf,
    List.forall_mem_nil _⟩

/-- Settles O41: the bits written are those the setter's getter reads, and no other field has a bit among them. -/
theorem setFieldReadsBack : Obligations.SetFieldReadsBack := by
  unfold Obligations.SetFieldReadsBack
  intro s arg hwf hlen getters
  have flag {i g : Instr} (hg : g ∈ fieldGetters) (hoff : (fieldOf g).off = 0) (hwidth : (fieldOf g).width = 1)
      (hi : exec i s = setField flagValid (fieldOf g).pos (fieldOf g).width arg s) (harg : arg.toNat ≤ 1) :=
    setter_reads_back hwf hlen hg hoff hi ((flagValid_iff arg).2 harg) (by rw [hwidth]; omega)
  simp only [List.forall_mem_cons]
  exact ⟨flag (by decide) rfl rfl rfl, flag (by decide) rfl rfl rfl, flag (by decide) rfl rfl rfl,
    flag (by decide) rfl rfl rfl,
    fun harg => setter_reads_back hwf hlen (by decide) rfl rfl ((opcodeValid_iff arg).2 harg) (Nat.lt_succ_of_le harg),
    List.forall_mem_nil _⟩

end Sys2Proof.Machine
end

section
/-! Who writes the header (10_state.md R23-R25): byte 0, the mask bit and `len7` in the buffer each command leaves. -/

namespace Sys2Proof.Machine

/-! ### The mask bit of a frame with a new payload -/

theorem maskBit_iff (b : Bytes) : maskBit b = true ↔ byteAt b 1 >>> 7 = 1#8 := beq_iff_eq

theorem maskBit_congr {b c : Bytes} (h : byteAt b 1 >>> 7 = 1#8 ↔ byteAt c 1 >>> 7 = 1#8) : maskBit b = maskBit c := by
  rw [Bool.eq_iff_iff, maskBit_iff, maskBit_iff, h]

theorem mask_part_cases (b1 : Byte) :
    (b1 &&& M_MASK = 0x00#8 ∨ b1 &&& M_MASK = 0x80#8) ∧ (b1 &&& M_MASK = 0x80#8 ↔ b1 >>> 7 = 1#8) := by
  revert b1
  decide

/-- The initial length stays clear of the mask bit (R159). -/
theorem maskBit_repayloadedFrame (b data : Bytes) : maskBit (repayloadedFrame b data) = maskBit b := by
  obtain ⟨hcases, hiff⟩ := mask_part_cases (byteAt b 1)
  obtain ⟨-, hinitial⟩ := encodeLength_initial data.length (byteAt b 1 &&& M_MASK) hcases
  exact maskBit_congr (hinitial.trans hiff)

theorem mask_part_shift (b1 : Byte) : (b1 &&& M_MASK) >>> 7 = b1 >>> 7 := by
  revert b1
  decide

theorem maskBit_unpayloadedFrame (b : Bytes) : maskBit (unpayloadedFrame b) = maskBit b :=
  maskBit_congr (iff_of_eq (congrArg (· = 1#8) (mask_part_shift (byteAt b 1))))

/-! ### Commands that keep both header bytes -/

section
variable {i : Instr} {s t : State}

theorem buf_of_readOnly (hread : i.readOnly = true) (h : exec i s = .next t) : t.buf = s.buf := by
  cases hcmd : i.isHeader with
  | true =>
    cases (exec_of_isHeader hcmd s).symm.trans h
    rfl
  | false =>
    obtain ⟨r, hr⟩ := exec_respondsOnly hread hcmd s
    cases hr.symm.trans h
    rfl

theorem byteAt_of_append {data : Bytes} (h : exec (.append data) s = .next t) {a : Nat} (ha : a < s.len) :
    byteAt t.buf a = byteAt s.buf a := by
  obtain ⟨-, hbuf | hbuf⟩ := append_cases h
  · rw [hbuf]
  · rw [hbuf, byteAt_append (by rwa [State.length_buf])]

end

/-! ### O51 -/

/-- Settles O51: the reads keep the buffer and `APPEND` its first bytes, a setter changes byte 0 alone, a change of the
key keeps byte 0 and `len7`, a new payload byte 0 and the mask bit. -/
theorem onlyTheNamedCommandsWriteTheHeader : Obligations.OnlyTheNamedCommandsWriteTheHeader := by
  unfold Obligations.OnlyTheNamedCommandsWriteTheHeader
  intro i s t hwf hlen h hload hbuild
  have mask_len7 (h1 : byteAt t.buf 1 = byteAt s.buf 1) : maskBit t.buf = maskBit s.buf ∧ len7 t.buf = len7 s.buf := by
    obtain ⟨hlen7, -, -, hmask, -⟩ := parser_congr h1
    exact ⟨hmask, hlen7⟩
  cases hread : i.readOnly with
  | true =>
    rw [buf_of_readOnly hread h]
    exact ⟨fun _ => rfl, fun _ _ => rfl, fun _ _ => rfl⟩
  | false =>
    cases i with
    | load data => exact absurd rfl (hload data)
    | build d => exact absurd rfl (hbuild d)
    | append data =>
      obtain ⟨hmask, hlen7⟩ := mask_len7 (byteAt_of_append h hlen)
      exact ⟨fun _ => byteAt_of_append h (by omega), fun _ _ => hmask, fun _ _ => hlen7⟩
    | setFin arg | setRsv1 arg | setRsv2 arg | setRsv3 arg | setOpcode arg =>
      obtain ⟨-, -, hsame⟩ := setField_sameButByteZero hwf h
      obtain ⟨hmask, hlen7⟩ := mask_len7 (hsame.byteAt one_ne_zero)
      exact ⟨fun hother => absurd (by simp) (hother arg), fun _ _ => hmask, fun _ _ => hlen7⟩
    | setKey key =>
      have hkeeps := setKey_keepsOrRewrites h
      exact ⟨fun _ => hkeeps.congr (byteAt · 0) fun _ _ hb => hb.byte0, fun hother => absurd rfl (hother key),
        fun _ _ => hkeeps.congr len7 fun _ _ hb => hb.len7⟩
    | removeKey =>
      have hkeeps := removeKey_keepsOrRewrites h
      exact ⟨fun _ => hkeeps.congr (byteAt · 0) fun _ _ hb => hb.byte0, fun _ hother => absurd rfl hother,
        fun _ _ => hkeeps.congr len7 fun _ _ hb => hb.len7⟩
    | setPayload data =>
      have hkeeps := setPayload_keepsOrRewrites h
      refine ⟨fun _ => hkeeps.congr (byteAt · 0) ?_, fun _ _ => hkeeps.congr maskBit ?_,
        fun hother => absurd rfl (hother data)⟩
      · rintro - _ rfl
        rfl
      · rintro - _ rfl
        exact maskBit_repayloadedFrame s.buf data
    | removePayload =>
      have hkeeps := removePayload_keepsOrRewrites h
      refine ⟨fun _ => hkeeps.congr (byteAt · 0) ?_, fun _ _ => hkeeps.congr maskBit ?_,
        fun _ hother => absurd rfl hother⟩
      · rintro - _ rfl
        rfl
      · rintro - _ rfl
        exact maskBit_unpayloadedFrame s.buf
    | getFin | getRsv1 | getRsv2 | getRsv3 | getOpcode | getMask | getLen7 | getExtw | getKeyoff | getPayoff
    | getResident | getPaylen | getKey | getPayload | isComplete | isValid | xform | hdrL7U | hdrL7M | hdrL16U
    | hdrL16M | hdrL64U | hdrL64M => cases hread

end Sys2Proof.Machine
end

section
/-! The response packet (30_encoding.md R76): its parts, at their offsets. -/

namespace Sys2Proof.Machine

/-- The packet in parts: the code, the flags, `val`, the length of `out`, `out`. -/
theorem responsePacket_of_short {r : Response} (h : r.out.length < 2 ^ 64) :
    responsePacket r = some ([BitVec.ofNat 8 (errorNumber r.err), if r.null then 1#8 else 0#8] ++
      be 8 r.val.toNat ++ be 8 r.out.length ++ r.out) := by
  rw [responsePacket, if_pos h]
  simp

/-- A number written in 8 bytes is read back at its offset. -/
theorem memRead_be_eight {b a z : Bytes} {v off : Nat} (hb : b = a ++ be 8 v ++ z) (hoff : off = a.length)
    (hv : v < 2 ^ 64) : memRead b off 8 = v := by
  rw [memRead, slice_eq_middle hb hoff (by rw [hoff, be_length]), ube_be (by simpa using hv)]

/-! ### O56 -/

/-- Settles O56: the parts before `out` are of fixed lengths, so each stands at a fixed offset. -/
theorem responsePacketLayout : Obligations.ResponsePacketLayout := by
  unfold Obligations.ResponsePacketLayout
  refine ⟨rfl, fun r hout => ⟨_, responsePacket_of_short hout, ?_, rfl, ?_, ?_, ?_⟩⟩
  · simp only [List.length_append, List.length_cons, List.length_nil, be_length]
  · exact memRead_be_eight (by rw [List.append_assoc _ _ r.out]) rfl r.val.isLt
  · exact memRead_be_eight rfl (by simp) hout
  · exact List.drop_left' (by simp)

end Sys2Proof.Machine
end
